-- ==== Sys2Proof/Word.lean ====
section
/-! DEFINITION. The word types of the SSWU-P256 engine (spec/00_scope.md R7, R9). -/

namespace Sys2Proof

/-- One byte of a buffer (R10). -/
abbrev Byte := BitVec 8

/-- A bus word, a control register or a command word: 32 bits (R7, R72, R100). -/
abbrev Word := BitVec 32

/-- A byte offset into the engine window: 16 bits (R71). -/
abbrev Offset := BitVec 16

/-- What a field register stores: any 256-bit value, canonical or not (R32, R33). -/
abbrev FieldWord := BitVec 256

/-- The number of a field register: FE0 to FE7 (R32, R103). -/
abbrev FieldReg := Fin 8

end Sys2Proof
end

