-- ==== Sys2Proof/Config.lean ====
section
/-! DEFINITION. What the spec fixes for every engine (the parameters of R7, the constant table of R47 and R135), and
the parameters it leaves OPEN (the latencies of R323, the window base of R70 and the interrupt number of R283) as opaque
constants, about whose values nothing can be proved. -/

namespace Sys2Proof.Config

/-! ### Parameters of R7 -/

/-- MSG holds 4096 bytes (R34). -/
def msgSize : Nat := 4096
/-- DST holds 256 bytes (R35). -/
def dstSize : Nat := 256
/-- XOUT holds 8192 bytes (R36). -/
def xoutSize : Nat := 8192
/-- The longest domain tag a command accepts (R276). -/
def maxDst : Nat := 255
/-- The longest expander output: 255 digests of 32 bytes (R277). -/
def maxXmd : Nat := 8160
/-- L, the bytes of one hash-to-field chunk (R190). -/
def chunkLen : Nat := 48
/-- The hash's block size in bytes (R7). -/
def hashBlock : Nat := 64
/-- The hash's digest size in bytes (R7). -/
def hashDigest : Nat := 32

/-! ### The address map of R79: where each block of the window begins -/

/-- FE0 begins here; FEk begins 32k bytes further (R76). -/
def feBase : Nat := 0x100
/-- DST[0] stands here. -/
def dstBase : Nat := 0x200
/-- MSG[0] stands here. -/
def msgBase : Nat := 0x1000
/-- XOUT[0] stands here. -/
def xoutBase : Nat := 0x2000

/-! ### Constant registers -/

/-- ID (R44), the ASCII bytes "SSWU". -/
def idWord : Word := 0x53535755
/-- VERSION (R45): major 1, minor 0. -/
def versionWord : Word := 0x00010000

/-! ### The field, the curve and the read-only constant table (R47, R130, R132, R135) -/

/-- The field modulus: the P-256 prime (R130). -/
def p : Nat := 0xffffffff00000001000000000000000000000000ffffffffffffffffffffffff
/-- A = p − 3 (R132). -/
def curveA : Nat := 0xffffffff00000001000000000000000000000000fffffffffffffffffffffffc
/-- B (R132). -/
def curveB : Nat := 0x5ac635d8aa3a93e7b3ebbd55769886bc651d06b0cc53b0f63bce3c3e27d2604b
/-- Z = p − 10, a non-square (R132, R133). -/
def curveZ : Nat := 0xffffffff00000001000000000000000000000000fffffffffffffffffffffff5
/-- C_NBA = −B/A mod p (R135). -/
def cNegBA : Nat := 0x73976747e368dbf83bf93f1c7cdd823ecc5f023b441be5a76944bebf629b756e
/-- C_BA = B/A mod p (R135). -/
def cBA : Nat := 0x8c6898b71c972408c406c0e383227dc133a0fdc5bbe41a5896bb41409d648a91
/-- C_BZA = B/(Z·A) mod p (R135): the table holds it, and no step of the map reads it (R135, last sentence). -/
def cBZA : Nat := 0xa528bd8696bdaf996c65b982d94959d3146fe6a020693090bdba13132375f224
/-- C_SQZ3 = √(−Z³), the root 1000^((p+1)/4) mod p (R135). -/
def cSqrtNegZ3 : Nat := 0x87438e5ed27613f9deb9dc092f06aaf8d3833faafb5a591dc004098eea05acfe
/-- E_SQRT = (p − 3)/4 (R135). -/
def eSqrt : Nat := 0x3fffffffc00000004000000000000000000000003fffffffffffffffffffffff
/-- E_INV = p − 2 (R135). -/
def eInv : Nat := 0xffffffff00000001000000000000000000000000fffffffffffffffffffffffd

/-! ### OPEN parameters: the latencies in engine clock cycles, each a positive integer (R8, R323) -/

/-- LAT_NOP (R323). -/
opaque latNop : PNat
/-- LAT_XMD(MSG_LEN, DST_LEN, n) (R323). -/
opaque latXmd : Nat → Nat → Nat → PNat
/-- LAT_H2F(MSG_LEN, DST_LEN, count) (R323). -/
opaque latH2f : Nat → Nat → Nat → PNat
/-- LAT_REDUCE (R323). -/
opaque latReduce : PNat
/-- LAT_SQRTR (R323). -/
opaque latSqrtr : PNat
/-- LAT_MAP (R323). -/
opaque latMap : PNat
/-- LAT_ERR(w, code) (R323). -/
opaque latErr : Word → BitVec 8 → PNat

/-! ### OPEN parameters of the platform (R70, R71, R283) -/

/-- Which 64 KiB page of the platform's address space the window is. -/
opaque enginePage : Nat
/-- ENGINE_BASE, a multiple of 0x10000 (R71). -/
def engineBase : Nat := 0x10000 * enginePage
/-- ENGINE_IRQ, the platform's number for the interrupt line (R283). -/
opaque engineIrq : Nat

end Sys2Proof.Config
end

