-- ==== Sys2Proof/Syntax.lean ====
section
/-! DEFINITION. The engine's commands as syntax: one constructor per row of spec/opcode_table.json (spec/30_encoding.md
R105), with the operands of the assembler syntax of R108. -/

namespace Sys2Proof

/-- A command. A register operand is one of FE0 to FE7; a length, a count or an offset is a number, whose encodable
range `Instr.wellFormed` checks (R104, R108). -/
inductive Instr where
  /-- `NOP` (R260). -/
  | nop
  /-- `XMD n`: expand MSG under DST into XOUT[0:n] (R160). -/
  | xmd (n : Nat)
  /-- `H2F FEd, count`: hash MSG under DST to `count` field elements from FE[rd] on (R191). -/
  | h2f (rd : FieldReg) (count : Nat)
  /-- `REDUCE FEd, off`: wide-reduce XOUT[off : off + 48] into FE[rd] (R192). -/
  | reduce (rd : FieldReg) (off : Nat)
  /-- `SQRTR FEd, FEu, FEv`: the square-root ratio of FE[ru] over FE[rv] (R214). -/
  | sqrtr (rd ru rv : FieldReg)
  /-- `MAP FEx, FEy, FEu`: the SSWU map of FE[ru] (R240). -/
  | map (rx ry ru : FieldReg)
  deriving DecidableEq, Repr

end Sys2Proof
end

