-- ==== Sys2Proof/WellFormed.lean ====
section
/-! DEFINITION. Which commands have an encoding: the operand ranges of the assembler (spec/30_encoding.md R104, R108).
A register number above 7 cannot be written in `Instr` at all. -/

namespace Sys2Proof

/-- The assembler accepts the operands (R108): XMD's length and REDUCE's offset fit IMM16, and H2F's count fits
IMM16[3:0]. The narrower ranges a command checks when it runs (R278) are no part of this. -/
def Instr.wellFormed : Instr → Bool
  | .nop => true
  | .xmd n => decide (n < 65536)
  | .h2f _ count => decide (count < 16)
  | .reduce _ off => decide (off < 65536)
  | .sqrtr _ _ _ => true
  | .map _ _ _ => true

end Sys2Proof
end

