-- ==== Sys2Proof/Decode.lean ====
section
/-! DEFINITION. Decoding a command word by the opcode map, and encoding a command (spec/30_encoding.md R100 to R108). -/

namespace Sys2Proof

/-- The six mnemonics of the opcode map (R105). -/
inductive Mnemonic where
  | nop | xmd | h2f | reduce | sqrtr | map
  deriving DecidableEq, Repr

/-- A row of the opcode map (R105): it selects its command when the bits under `mask` are those of `pattern`. -/
structure OpcodeRow where
  mnemonic : Mnemonic
  pattern  : Word
  mask     : Word
  deriving DecidableEq, Repr

/-- Why a word is ILLEGAL (R107). Both kinds complete with IllegalCommand(1) (R278): no word stops the machine. -/
inductive Illegal where
  /-- OPC is 0x06 to 0xFF. -/
  | unassignedOpcode
  /-- OPC is 0x00 to 0x05, and a bit that its row fixes to 0 is 1. -/
  | mustBeZero
  deriving DecidableEq, Repr

/-- The opcode map (R105). -/
def opcodeMap : List OpcodeRow :=
  [ ⟨.nop,    0x00000000, 0xFFFFFFFF⟩,
    ⟨.xmd,    0x01000000, 0xFFFF0000⟩,
    ⟨.h2f,    0x02000000, 0xFF8FFFF0⟩,
    ⟨.reduce, 0x03000000, 0xFF8F0000⟩,
    ⟨.sqrtr,  0x04000000, 0xFF8F88FF⟩,
    ⟨.map,    0x05000000, 0xFF888FFF⟩ ]

/-- A word is selected by a row (R105). -/
def OpcodeRow.selects (r : OpcodeRow) (w : Word) : Bool := w &&& r.mask == r.pattern

/-- OPC = w[31:24] (R101, R102). -/
def fieldOpc (w : Word) : BitVec 8 := w.extractLsb' 24 8
/-- The register that field A names: w[22:20] (R103). -/
def fieldA (w : Word) : FieldReg := (w.extractLsb' 20 3).toFin
/-- The register that field B names: w[18:16] (R103). -/
def fieldB (w : Word) : FieldReg := (w.extractLsb' 16 3).toFin
/-- The register that field C names: w[14:12] (R103). -/
def fieldC (w : Word) : FieldReg := (w.extractLsb' 12 3).toFin
/-- The register that field D names: w[10:8] (R103). -/
def fieldD (w : Word) : FieldReg := (w.extractLsb' 8 3).toFin
/-- IMM16 = w[15:0], zero-extended and not scaled (R104). -/
def fieldImm16 (w : Word) : Nat := (w.extractLsb' 0 16).toNat
/-- H2F's count: IMM16[3:0] (R104). -/
def fieldCount (w : Word) : Nat := (w.extractLsb' 0 4).toNat

/-- The command a selected row stands for, with its free fields (R105). -/
def commandOf (m : Mnemonic) (w : Word) : Instr :=
  match m with
  | .nop => .nop
  | .xmd => .xmd (fieldImm16 w)
  | .h2f => .h2f (fieldA w) (fieldCount w)
  | .reduce => .reduce (fieldA w) (fieldImm16 w)
  | .sqrtr => .sqrtr (fieldA w) (fieldC w) (fieldD w)
  | .map => .map (fieldA w) (fieldB w) (fieldC w)

/-- The decoder of R106: total on every 32-bit word, and ILLEGAL, by the name of R107, where no row selects it. -/
def decode (w : Word) : Except Illegal Instr :=
  match opcodeMap.find? (fun r => r.selects w) with
  | some r => .ok (commandOf r.mnemonic w)
  | none => .error (if (fieldOpc w).toNat < 6 then .mustBeZero else .unassignedOpcode)

/-! ### Encoding -/

/-- Format R (R101). A register's four bits begin with the 0 that R103 asks for. -/
def formatR (opc : BitVec 8) (a b c d : BitVec 4) : Word := opc ++ a ++ b ++ c ++ d ++ 0#8

/-- Format I (R102). -/
def formatI (opc : BitVec 8) (a : BitVec 4) (imm16 : BitVec 16) : Word := opc ++ a ++ 0#4 ++ imm16

/-- The four bits of a field that names a register (R103). -/
def regField (r : FieldReg) : BitVec 4 := BitVec.ofNat 4 r.val

/-- The word of a well-formed command (R108). -/
def encode : Instr → Word
  | .nop => formatR 0x00 0 0 0 0
  | .xmd n => formatI 0x01 0 (BitVec.ofNat 16 n)
  | .h2f rd count => formatI 0x02 (regField rd) (BitVec.ofNat 16 count)
  | .reduce rd off => formatI 0x03 (regField rd) (BitVec.ofNat 16 off)
  | .sqrtr rd ru rv => formatR 0x04 (regField rd) 0 (regField ru) (regField rv)
  | .map rx ry ru => formatR 0x05 (regField rx) (regField ry) (regField ru) 0

/-- The assembler (R108): it refuses an operand outside the ranges it shows. -/
def assemble (i : Instr) : Option Word := if i.wellFormed then some (encode i) else none

/-- The command that the decoder reads from a word numbered as spec/opcode_table.json numbers it: every row has the 32
bits of one command word (R100), which reaches the engine as one register value and is laid out in no memory. -/
def decodeTableWord (nbits w : Nat) : Option Instr := (decode (BitVec.ofNat 32 (w % 2 ^ nbits))).toOption

end Sys2Proof
end

