-- ==== Sys2Proof/Machine/Bytes.lean ====
section
/-! DEFINITION. Byte strings and their big-endian values (spec/00_scope.md R9, R10; spec/20_memory.md R75, R76, R77). -/

namespace Sys2Proof.Machine

/-- `OS2IP(b)`: the integer whose big-endian base-256 digits are b (R10). -/
def os2ip (b : List Byte) : Nat := b.foldl (fun n x => 256 * n + x.toNat) 0

/-- `I2OSP(n, k)`: the k-byte big-endian string of n mod 256^k (R10). -/
def i2osp (n : Nat) : Nat → List Byte
  | 0 => []
  | k + 1 => i2osp (n / 256) k ++ [BitVec.ofNat 8 n]

/-- `byte(n)` (R10). -/
def byte (n : Nat) : List Byte := i2osp n 1

/-- `be16(n)` (R10). -/
def be16 (n : Nat) : List Byte := i2osp n 2

/-- `zeros(n)` (R10). -/
def zeros (n : Nat) : List Byte := List.replicate n 0

/-- `a XOR b`, bytewise (R10). -/
def xorBytes (a b : List Byte) : List Byte := List.zipWith (· ^^^ ·) a b

/-- The four bytes of a bus word, bits [31:24] first (R75). -/
def wordBytes (v : Word) : List Byte :=
  [v.extractLsb' 24 8, v.extractLsb' 16 8, v.extractLsb' 8 8, v.extractLsb' 0 8]

/-- The word whose big-endian bytes are b (R75). -/
def bytesWord (b : List Byte) : Word := BitVec.ofNat 32 (os2ip b)

/-- The lowest bit of word j of a field register, which is bits [255 − 32j : 224 − 32j] (R76). -/
def feWordShift (j : Fin 8) : Nat := 224 - 32 * j.val

/-- Word j of a field register's value, word 0 the most significant (R76). -/
def feWord (x : FieldWord) (j : Fin 8) : Word := x.extractLsb' (feWordShift j) 32

/-- A field register's value with word j replaced and the other 224 bits kept (R76). -/
def feSetWord (x : FieldWord) (j : Fin 8) (v : Word) : FieldWord :=
  (x &&& ~~~((BitVec.setWidth 256 (BitVec.allOnes 32)) <<< feWordShift j)) ||| (v.setWidth 256 <<< feWordShift j)

end Sys2Proof.Machine
end

