-- ==== Sys2Proof/Machine/State.lean ====
section
/-! DEFINITION. The engine's state (spec/10_state.md R30 to R53), the host's transactions as data, and the reset state
(spec/70_reset_and_hazards.md R310, R311). -/

namespace Sys2Proof.Machine

/-- The bytes of the three buffers, by window offset (R79): a list of the bytes that are not `Memory.unlisted`, at
strictly rising offsets. Its operations are in Machine/Ops.lean. -/
abbrev Memory := List Host.Cell

/-- What a byte that the list does not name reads as: reset zeroes every buffer byte (R34, R35, R36, R311). -/
def Memory.unlisted : Byte := 0

/-- The execution state (R48). A busy engine holds the accepted command word. The snapshot of R49 is not held a second
time: no host write changes what it covers while the engine is busy (R82), and R49 lets a model compute the result at
completion (log entry 3). -/
inductive ExecState where
  | idle
  | busy (w : Word)
  deriving DecidableEq, Repr

/-- One event of the total order of R84, as the outside of the engine sees it. The model's own type (log entry 1): the
spec gives the host, the reset input and the moment of completion to agents outside the engine's storage (R30, R310,
R323), and State holds what they are about to do as a list of these. -/
inductive BusEvent where
  /-- `MemRead(off, 4)` (R72). -/
  | read (off : Offset)
  /-- `MemWrite(off, 4, v)` (R72). -/
  | write (off : Offset) (v : Word)
  /-- The engine agent's turn: it takes its completion step if a command is in flight (R281, R323). -/
  | engineTurn
  /-- The completion step and `MemWrite(off, 4, v)` in one clock cycle (R284). -/
  | writeAtCompletion (off : Offset) (v : Word)
  /-- The hardware reset input `rst` (R310). -/
  | rst
  deriving DecidableEq, Repr

/-- What the bus answers a host transaction. The model's own type (log entry 1). -/
inductive BusResponse where
  /-- The 32-bit word of an aligned read (R72). -/
  | data (v : Word)
  /-- An aligned write was stored, ignored or dropped (R80, R82): the bus does not tell which (DESIGN CHOICE, safe: log
  entry 12). -/
  | written
  /-- The bus error response of a misaligned transaction (R73). -/
  | busError
  deriving DecidableEq, Repr

/-- The engine's state (R53), and the two lists by which the model holds the host's side of the bus. -/
structure State where
  /-- FE0 to FE7 (R32). -/
  fe        : Vector FieldWord 8
  /-- The bytes of DST, MSG and XOUT, by window offset (R34, R35, R36, R79). -/
  mem       : Memory
  /-- MSG_LEN.LEN (R37). -/
  msgLen    : BitVec 16
  /-- DST_LEN.LEN (R38). -/
  dstLen    : BitVec 16
  /-- CTRL.IE (R39). -/
  ie        : Bool
  /-- STATUS.DONE (R40). -/
  done      : Bool
  /-- STATUS.QR (R40, R41). -/
  qr        : Bool
  /-- STATUS.DROP (R40). -/
  drop      : Bool
  /-- CMD: the last accepted command word (R42). -/
  cmd       : Word
  /-- ERR.CODE (R43). -/
  errCode   : BitVec 8
  /-- ERR.ARG (R43). -/
  errArg    : BitVec 4
  /-- The execution state (R48). STATUS.BUSY and STATUS.ERR are derived (R53). -/
  execState : ExecState
  /-- The model's own field (log entry 1): the events to come, next first, in the total order of R84. -/
  bus       : List BusEvent
  /-- The model's own field (log entry 1): the bus's answers so far, latest first. -/
  responses : List BusResponse
  deriving DecidableEq, Repr

/-- Why a step can stop the machine (log entry 6). There is no constructor: the engine never halts or locks up (R270), a misaligned
transaction is answered by the bus and changes nothing (R73), and every word completes (R106). -/
inductive Fault where
  deriving DecidableEq, Repr

/-- Why a command has no meaning. -/
inductive Refusal where
  /-- A command that the model does not give its meaning yet, by its mnemonic. No arm of `exec` answers with it. Safe:
  the model stops where the engine goes on. -/
  | notModelled (mnemonic : String)
  deriving DecidableEq, Repr

/-- The machine right after reset (R311): every value is the spec's. Nothing is under way on the bus. -/
def State.reset : State where
  fe        := Vector.replicate 8 0
  mem       := []
  msgLen    := 0
  dstLen    := 0
  ie        := false
  done      := false
  qr        := false
  drop      := false
  cmd       := 0
  errCode   := 0
  errArg    := 0
  execState := .idle
  bus       := []
  responses := []

end Sys2Proof.Machine
end

