-- ==== Sys2Proof/Machine/Ops.lean ====
section
/-! DEFINITION. The named operations over the buffers' memory and the field registers (spec/10_state.md R32 to R36,
spec/20_memory.md R75), the two resets (spec/70_reset_and_hazards.md R310, R311), and the engine's analogue of taking an
exception and returning from it: accept, error and completion (spec/60_exceptions.md R270 to R274, R280, R281). -/

namespace Sys2Proof.Machine

/-! ### Memory -/

/-- The byte at offset a (R79): the listed one, or what an unlisted offset reads as. -/
def Memory.read (m : Memory) (a : Nat) : Byte := (List.lookup a m).getD Memory.unlisted

/-- The n bytes from offset a on. -/
def Memory.readBytes (m : Memory) (a n : Nat) : List Byte := (List.range n).map (fun i => m.read (a + i))

/-- The cells of a byte string stored from offset a on: a byte that an unlisted offset reads as needs no cell. -/
def Memory.cells (a : Nat) : List Byte → Memory
  | [] => []
  | x :: xs => if x = Memory.unlisted then Memory.cells (a + 1) xs else (a, x) :: Memory.cells (a + 1) xs

/-- The memory with the byte string b at offsets a to a + len(b) − 1, and every other byte as it was. -/
def Memory.writeBytes (m : Memory) (a : Nat) (b : List Byte) : Memory :=
  m.filter (fun c => decide (c.1 < a)) ++ Memory.cells a b ++ m.filter (fun c => decide (a + b.length ≤ c.1))

/-- The canonical form: offsets strictly rising, and no cell that holds what an unlisted offset reads as. -/
def Memory.wf : Memory → Bool
  | [] => true
  | [c] => decide (c.2 ≠ Memory.unlisted)
  | c :: d :: m => decide (c.2 ≠ Memory.unlisted) && decide (c.1 < d.1) && Memory.wf (d :: m)

/-- The offset a lies in the DST, MSG or XOUT range of R79. -/
def inBuffer (a : Nat) : Bool :=
  (decide (Config.dstBase ≤ a) && decide (a < Config.dstBase + Config.dstSize)) ||
  (decide (Config.msgBase ≤ a) && decide (a < Config.msgBase + Config.msgSize)) ||
  (decide (Config.xoutBase ≤ a) && decide (a < Config.xoutBase + Config.xoutSize))

/-- MSG[i : i + n] (R11, R34). -/
def State.msgBytes (s : State) (i n : Nat) : List Byte := s.mem.readBytes (Config.msgBase + i) n
/-- DST[i : i + n] (R11, R35). -/
def State.dstBytes (s : State) (i n : Nat) : List Byte := s.mem.readBytes (Config.dstBase + i) n
/-- XOUT[i : i + n] (R11, R36). -/
def State.xoutBytes (s : State) (i n : Nat) : List Byte := s.mem.readBytes (Config.xoutBase + i) n
/-- XOUT[0 : len(b)] <- b (R11, R36). -/
def State.writeXout (s : State) (b : List Byte) : State := { s with mem := s.mem.writeBytes Config.xoutBase b }

/-! ### Field registers -/

/-- FE[r] as an unsigned integer (R11, R32). -/
def State.feVal (s : State) (r : FieldReg) : Nat := s.fe[r].toNat
/-- FE[r] <- v (R11, R32). -/
def State.setFe (s : State) (r : FieldReg) (v : Nat) : State := { s with fe := s.fe.set r.val (BitVec.ofNat 256 v) }
/-- FE[rd + i] <- es[i] for every i below len(es); the other registers are unchanged (R191). -/
def State.setFeFrom (s : State) (rd : FieldReg) (es : List Nat) : State :=
  { s with
    fe := Vector.ofFn fun k : Fin 8 =>
      if rd.val ≤ k.val ∧ k.val < rd.val + es.length then BitVec.ofNat 256 (es.getD (k.val - rd.val) 0) else s.fe[k] }

/-! ### Reset -/

/-- Both resets (R310): every piece of the engine's state takes its reset value of R311, whatever the execution state,
and a command in flight is abandoned. What the bus still has to deliver, and has answered, is no state of the engine. -/
def State.resetEngine (s : State) : State := { State.reset with bus := s.bus, responses := s.responses }

/-! ### Errors (R270 to R278) -/

/-- The subcodes of IllegalCommand (R278). -/
inductive Subcode where
  /-- ARG 1: the word decodes to ILLEGAL. -/
  | undecodable
  /-- ARG 2: a register-operand constraint fails. -/
  | registers
  /-- ARG 3: a length or an offset leaves its buffer. -/
  | range
  deriving DecidableEq, Repr

/-- The errors a command can raise, with their arguments (R271). They are results, not traps (R270). -/
inductive CmdError where
  /-- A field operand is ≥ p; the argument is its register (R275). -/
  | invalidFieldEncoding (r : FieldReg)
  /-- DST_LEN > 255 at XMD or H2F (R276). -/
  | domainTagTooLong
  /-- XMD with n > 8160 (R277). -/
  | outputTooLarge
  /-- R278. -/
  | illegalCommand (c : Subcode)
  deriving DecidableEq, Repr

/-- ERR.ARG of an IllegalCommand (R278). -/
def subcodeArg (c : Subcode) : BitVec 4 :=
  match c with
  | .undecodable => 1
  | .registers => 2
  | .range => 3

/-- ERR.CODE of an error (R271). -/
def errorCode (e : CmdError) : BitVec 8 :=
  match e with
  | .invalidFieldEncoding _ => 1
  | .domainTagTooLong => 2
  | .outputTooLarge => 3
  | .illegalCommand _ => 4

/-- ERR.ARG of an error (R43, R271). -/
def errorArg (e : CmdError) : BitVec 4 :=
  match e with
  | .invalidFieldEncoding r => BitVec.ofNat 4 r.val
  | .domainTagTooLong => 0
  | .outputTooLarge => 0
  | .illegalCommand c => subcodeArg c

/-! ### Accept and completion (R280, R281) -/

/-- The execution state is `Busy` (R48), which STATUS.BUSY shows. -/
def State.isBusy (s : State) : Bool :=
  match s.execState with
  | .idle => false
  | .busy _ => true

/-- Accept: the engine's analogue of trap entry (R280). -/
def State.accept (s : State) (w : Word) : State := { s with cmd := w, done := false, execState := .busy w }

/-- A host write that a busy engine drops: the location keeps its value and STATUS.DROP is set (R82). -/
def State.dropWrite (s : State) : State := { s with drop := true }

/-- The completion step (R281), given the command's result over the state s: an error, after which nothing else than ERR,
DONE and the execution state has changed (R272, R273), or the state with the command's writes applied. -/
def State.finish (s : State) (result : Except CmdError State) : State :=
  match result with
  | .error e => { s with errCode := errorCode e, errArg := errorArg e, done := true, execState := .idle }
  | .ok t => { t with errCode := 0, errArg := 0, done := true, execState := .idle }

end Sys2Proof.Machine
end

