-- ==== Sys2Proof/Machine/Flags.lean ====
section
/-! DEFINITION. The status flags, the words that software reads them in, and the interrupt line (spec/10_state.md R37 to
R46, R50; spec/60_exceptions.md R283). -/

namespace Sys2Proof.Machine

/-- A flag as the bit of weight 2^n of a register word (R9). -/
def flagBit (b : Bool) (n : Nat) : Word := if b then 1#32 <<< n else 0

/-- STATUS.ERR equals (ERR.CODE ≠ 0) (R40). -/
def State.errFlag (s : State) : Bool := s.errCode != 0

/-- The STATUS word (R40). -/
def State.statusWord (s : State) : Word :=
  flagBit s.isBusy 0 ||| flagBit s.done 1 ||| flagBit s.errFlag 2 ||| flagBit s.qr 3 ||| flagBit s.drop 4

/-- The CTRL word: SRST and bits [31:2] read as 0 (R39). -/
def State.ctrlWord (s : State) : Word := flagBit s.ie 0

/-- The ERR word: CODE in [7:0], ARG in [11:8] (R43). -/
def State.errWord (s : State) : Word := 0#20 ++ s.errArg ++ s.errCode

/-- The MSG_LEN word: bits [31:16] read as 0 (R37). -/
def State.msgLenWord (s : State) : Word := s.msgLen.setWidth 32

/-- The DST_LEN word: bits [31:16] read as 0 (R38). -/
def State.dstLenWord (s : State) : Word := s.dstLen.setWidth 32

/-- `STATUS.QR <- q` (R11, R41). -/
def State.setQr (s : State) (q : Bool) : State := { s with qr := q }

/-- A write to STATUS: a 1 in bit 1 clears DONE, a 1 in bit 4 clears DROP, and every other bit is ignored (R40). -/
def State.writeStatus (s : State) (v : Word) : State :=
  { s with done := s.done && !v.getLsbD 1, drop := s.drop && !v.getLsbD 4 }

/-- A write to CTRL: a 1 in SRST is the soft reset, and the rest of the word is then ignored; otherwise bit 0 goes to IE
and every other bit is ignored (R39). -/
def State.writeCtrl (s : State) (v : Word) : State :=
  if v.getLsbD 1 then s.resetEngine else { s with ie := v.getLsbD 0 }

/-- The interrupt output, a level: `irq = CTRL.IE AND STATUS.DONE` (R50, R283). -/
def State.irq (s : State) : Bool := s.ie && s.done

end Sys2Proof.Machine
end

