-- ==== Sys2Proof/Machine/Field.lean ====
section
/-! DEFINITION. The prime field and its primitives (spec/40_field.md R130 to R142). A field element is a number below
`Config.p` (R131); R143 leaves the engine's internal form free, and a model computes with canonical integers. -/

namespace Sys2Proof.Machine

/-- `fadd(a, b)` (R136). -/
def fadd (a b : Nat) : Nat := (a + b) % Config.p
/-- `fsub(a, b)`, for b in [0, p) (R136). -/
def fsub (a b : Nat) : Nat := (a + (Config.p - b)) % Config.p
/-- `fneg(a)`, for a in [0, p) (R136). -/
def fneg (a : Nat) : Nat := (Config.p - a) % Config.p
/-- `fmul(a, b)` (R136). -/
def fmul (a b : Nat) : Nat := (a * b) % Config.p
/-- `fsqr(a)` (R136). -/
def fsqr (a : Nat) : Nat := fmul a a
/-- `x³` in a `field:` block (R12). -/
def fcube (a : Nat) : Nat := fmul (fsqr a) a

/-- a^k mod p by squaring, for every k below 2^fuel. -/
def fpowBits : (fuel : Nat) → (a k : Nat) → Nat
  | 0, _, _ => 1
  | fuel + 1, a, k => fmul (if k % 2 = 1 then a else 1) (fpowBits fuel (fsqr a) (k / 2))

/-- `fpow(a, k)` = a^k mod p (R136). The chain of multiplications is free (R144); `fpow_eq` in Laws/Field.lean says that
it is this power for every k. -/
def fpow (a k : Nat) : Nat := fpowBits (k.log2 + 1) a k

/-- `finv(a)` = a^(p − 2), which is 0 for a = 0 (R137). -/
def finv (a : Nat) : Nat := fpow a Config.eInv

/-- `select(c, a, b)` (R138). -/
def select (c : Bool) (a b : Nat) : Nat := if c then a else b
/-- `eq(a, b)` (R138). -/
def feq (a b : Nat) : Bool := a == b
/-- `is_zero(a)` (R138). -/
def isZero (a : Nat) : Bool := feq a 0
/-- `sgn0(e)` = e mod 2 (R139). -/
def sgn0 (e : Nat) : Nat := e % 2
/-- `canon(v)`: v < p (R140). -/
def canon (v : Nat) : Bool := decide (v < Config.p)

/-- `reduce48(b)` = OS2IP(b) mod p (R142). -/
def reduce48 (b : List Byte) : Nat := os2ip b % Config.p

end Sys2Proof.Machine
end

