-- ==== Sys2Proof/Machine/Operands.lean ====
section
/-! DEFINITION. How a command reads its operands (spec/20_memory.md R83; spec/10_state.md R33; spec/60_exceptions.md
R274 to R278), and which location an offset of the window names (spec/20_memory.md R73 to R80). -/

namespace Sys2Proof.Machine

/-! ### Operands of commands -/

/-- A register read as a field operand: InvalidFieldEncoding with its index where the value is not canonical (R33,
R275). -/
def State.fieldOperand (s : State) (r : FieldReg) : Except CmdError Nat :=
  if canon (s.feVal r) then .ok (s.feVal r) else .error (.invalidFieldEncoding r)

/-- The message MSG[0 : MSG_LEN] (R34). -/
def State.message (s : State) : List Byte := s.msgBytes 0 s.msgLen.toNat

/-- The domain tag DST[0 : DST_LEN] (R35). -/
def State.tag (s : State) : List Byte := s.dstBytes 0 s.dstLen.toNat

/-- The checks that XMD and H2F make of the two lengths, in this order: the message fits MSG (IllegalCommand(3)), then
the tag has at most 255 bytes (DomainTagTooLong) (R160, R191, R274). -/
def State.hashLengthError (s : State) : Option CmdError :=
  if Config.msgSize < s.msgLen.toNat then some (.illegalCommand .range)
  else if Config.maxDst < s.dstLen.toNat then some .domainTagTooLong
  else none

/-! ### Locations of the window -/

/-- The eight control registers (R46). -/
inductive CtlReg where
  | id | version | ctrl | status | cmd | err | msgLen | dstLen
  deriving DecidableEq, Repr

/-- What an aligned offset names (R79). -/
inductive Loc where
  /-- A control register. -/
  | control (r : CtlReg)
  /-- Word j of field register k (R76). -/
  | feWord (k j : Fin 8)
  /-- A word of the DST, MSG or XOUT buffer, by its offset (R75). -/
  | bufferWord (a : Nat)
  /-- A reserved offset (R80). -/
  | reserved
  deriving DecidableEq, Repr

/-- The offset is a multiple of 4 (R73). -/
def aligned (off : Offset) : Bool := off.toNat % 4 == 0

/-- The control register of word n of the window, n below 8 (R46). -/
def controlAt (n : Nat) : CtlReg :=
  match n with
  | 0 => .id
  | 1 => .version
  | 2 => .ctrl
  | 3 => .status
  | 4 => .cmd
  | 5 => .err
  | 6 => .msgLen
  | _ => .dstLen

/-- The location that the address map gives for an aligned offset (R74, R79). -/
def locate (off : Offset) : Loc :=
  let a := off.toNat
  if a < 0x20 then .control (controlAt (a / 4))
  else if a < Config.feBase then .reserved
  else if a < Config.dstBase then
    .feWord (Fin.ofNat 8 ((a - Config.feBase) / 32)) (Fin.ofNat 8 ((a - Config.feBase) % 32 / 4))
  else if inBuffer a then .bufferWord a
  else .reserved

/-- The platform address a reaches the engine at this window offset, if it lies in the window (R70, R71). -/
def windowOffset (a : Nat) : Option Offset :=
  if Config.engineBase ≤ a ∧ a < Config.engineBase + 0x10000 then some (BitVec.ofNat 16 (a - Config.engineBase))
  else none

end Sys2Proof.Machine
end

