-- ==== Sys2Proof/Machine/Bus.lean ====
section
/-! DEFINITION. Host transactions on the engine window (spec/20_memory.md R72 to R82; spec/10_state.md R37 to R46), and
the host's pseudo-instructions (spec/30_encoding.md R109). -/

namespace Sys2Proof.Machine

/-- What a read of a control register returns, idle or busy (R46, R82). -/
def State.controlWord (s : State) (r : CtlReg) : Word :=
  match r with
  | .id => Config.idWord
  | .version => Config.versionWord
  | .ctrl => s.ctrlWord
  | .status => s.statusWord
  | .cmd => s.cmd
  | .err => s.errWord
  | .msgLen => s.msgLenWord
  | .dstLen => s.dstLenWord

/-- The word that an aligned read returns. A data location reads as zero while the engine is busy (R82), and a reserved
offset always (R80). -/
def State.peek (s : State) (off : Offset) : Word :=
  match locate off with
  | .control r => s.controlWord r
  | .feWord k j => if s.isBusy then 0 else feWord s.fe[k] j
  | .bufferWord a => if s.isBusy then 0 else bytesWord (s.mem.readBytes a 4)
  | .reserved => 0

/-- The engine after a write to a control register (R37 to R46): a busy engine drops writes to CMD, MSG_LEN and DST_LEN
(R82), an idle one accepts a CMD write as a command, and writes to read-only registers are ignored (R80). -/
def State.writeControl (s : State) (r : CtlReg) (v : Word) : State :=
  match r with
  | .id => s
  | .version => s
  | .ctrl => s.writeCtrl v
  | .status => s.writeStatus v
  | .cmd => if s.isBusy then s.dropWrite else s.accept v
  | .err => s
  | .msgLen => if s.isBusy then s.dropWrite else { s with msgLen := v.setWidth 16 }
  | .dstLen => if s.isBusy then s.dropWrite else { s with dstLen := v.setWidth 16 }

/-- The engine after an aligned write (R74). A busy engine drops a write to a data location (R82), and a write to a
reserved offset is ignored (R80). -/
def State.poke (s : State) (off : Offset) (v : Word) : State :=
  match locate off with
  | .control r => s.writeControl r v
  | .feWord k j => if s.isBusy then s.dropWrite else { s with fe := s.fe.set k.val (feSetWord s.fe[k] j v) }
  | .bufferWord a => if s.isBusy then s.dropWrite else { s with mem := s.mem.writeBytes a (wordBytes v) }
  | .reserved => s

/-- The bus answers. -/
def State.respond (s : State) (r : BusResponse) : State := { s with responses := r :: s.responses }

/-- `MemRead(off, 4)` (R72): a read changes nothing in the window (R81), and a misaligned one gets a bus error (R73). -/
def State.hostRead (s : State) (off : Offset) : State :=
  s.respond (if aligned off then .data (s.peek off) else .busError)

/-- `MemWrite(off, 4, v)` (R72); a misaligned one gets a bus error and has no effect (R73). -/
def State.hostWrite (s : State) (off : Offset) (v : Word) : State :=
  if aligned off then (s.poke off v).respond .written else s.respond .busError

/-- A host write in the clock cycle in which a command completes (R284): `before` is the busy engine before the
completion step, and `after` the state that step gives. A soft reset takes the reset, and the completion has no effect.
A CMD write is dropped with DROP set. A W1C write of DONE leaves DONE = 1. Any other write goes after the completion (log
entry 8). -/
def State.writeAtCompletion (before after : State) (off : Offset) (v : Word) : State :=
  if aligned off then
    match locate off with
    | .control .ctrl => if v.getLsbD 1 then before.hostWrite off v else after.hostWrite off v
    | .control .cmd => after.dropWrite.respond .written
    | .control .status => { after.hostWrite off v with done := true }
    | _ => after.hostWrite off v
  else after.hostWrite off v

/-! ### Host pseudo-instructions (R109) -/

/-- The offset of CMD (R42). -/
def cmdOffset : Offset := 0x010
/-- The offset of STATUS (R40). -/
def statusOffset : Offset := 0x00C

/-- `WR off, v` (R109). -/
def hostWR (off : Offset) (v : Word) : List BusEvent := [.write off v]
/-- `RD off` (R109). -/
def hostRD (off : Offset) : List BusEvent := [.read off]
/-- `WAIT` (R109): n polls of STATUS that still see BUSY, the completion, and the poll that sees BUSY = 0. -/
def hostWAIT (n : Nat) : List BusEvent := List.replicate n (.read statusOffset) ++ [.engineTurn, .read statusOffset]
/-- `ISSUE w`, with n polls before the completion (R109). -/
def hostISSUE (w : Word) (n : Nat) : List BusEvent := hostWR cmdOffset w ++ hostWAIT n
/-- `HTC FEd`, for d ≤ 2: H2F, and MAP of both its elements, with the polls of each (R109). -/
def hostHTC (d : Fin 3) (n0 n1 n2 : Nat) : List BusEvent :=
  let r (k : Nat) : FieldReg := Fin.ofNat 8 (d.val + k)
  hostISSUE (encode (.h2f (r 0) 2)) n0 ++ hostISSUE (encode (.map (r 2) (r 3) (r 0))) n1 ++
    hostISSUE (encode (.map (r 4) (r 5) (r 1))) n2

end Sys2Proof.Machine
end

