-- ==== Sys2Proof/Machine/Control.lean ====
section
/-! DEFINITION. The control command NOP (spec/45_control.md R260). -/

namespace Sys2Proof.Machine

/-- NOP's result: no check, no write (R260). -/
def nopResult (s : State) : Except CmdError State := .ok s

/-- NOP (R260): the completion step, which clears ERR and sets DONE (R281). -/
def execNop (s : State) : Host.Outcome State Fault Refusal := .next (s.finish (nopResult s))

end Sys2Proof.Machine
end

