-- ==== Sys2Proof/Machine/Sha256.lean ====
section
/-! DEFINITION. The hash primitive H: SHA-256 (spec/41_xmd.md R170 to R175). -/

namespace Sys2Proof.Machine

/-- The working variables a to h, or the hash value h0 to h7 (R175). -/
structure HashState where
  a : Word
  b : Word
  c : Word
  d : Word
  e : Word
  f : Word
  g : Word
  h : Word
  deriving DecidableEq, Repr

/-- H0 to H7 (R172). -/
def shaInit : HashState :=
  ⟨0x6a09e667, 0xbb67ae85, 0x3c6ef372, 0xa54ff53a, 0x510e527f, 0x9b05688c, 0x1f83d9ab, 0x5be0cd19⟩

/-- K[0..31] (R173). -/
def shaKLow : List Word :=
  [0x428a2f98, 0x71374491, 0xb5c0fbcf, 0xe9b5dba5, 0x3956c25b, 0x59f111f1, 0x923f82a4, 0xab1c5ed5] ++
  [0xd807aa98, 0x12835b01, 0x243185be, 0x550c7dc3, 0x72be5d74, 0x80deb1fe, 0x9bdc06a7, 0xc19bf174] ++
  [0xe49b69c1, 0xefbe4786, 0x0fc19dc6, 0x240ca1cc, 0x2de92c6f, 0x4a7484aa, 0x5cb0a9dc, 0x76f988da] ++
  [0x983e5152, 0xa831c66d, 0xb00327c8, 0xbf597fc7, 0xc6e00bf3, 0xd5a79147, 0x06ca6351, 0x14292967]

/-- K[32..63] (R173). -/
def shaKHigh : List Word :=
  [0x27b70a85, 0x2e1b2138, 0x4d2c6dfc, 0x53380d13, 0x650a7354, 0x766a0abb, 0x81c2c92e, 0x92722c85] ++
  [0xa2bfe8a1, 0xa81a664b, 0xc24b8b70, 0xc76c51a3, 0xd192e819, 0xd6990624, 0xf40e3585, 0x106aa070] ++
  [0x19a4c116, 0x1e376c08, 0x2748774c, 0x34b0bcb5, 0x391c0cb3, 0x4ed8aa4a, 0x5b9cca4f, 0x682e6ff3] ++
  [0x748f82ee, 0x78a5636f, 0x84c87814, 0x8cc70208, 0x90befffa, 0xa4506ceb, 0xbef9a3f7, 0xc67178f2]

/-- The round constants K[0..63] (R173). -/
def shaK : List Word := shaKLow ++ shaKHigh

/-- Ch (R174). -/
def shaCh (x y z : Word) : Word := (x &&& y) ^^^ (~~~x &&& z)
/-- Maj (R174). -/
def shaMaj (x y z : Word) : Word := (x &&& y) ^^^ (x &&& z) ^^^ (y &&& z)
/-- S0 (R174). -/
def shaBigS0 (x : Word) : Word := x.rotateRight 2 ^^^ x.rotateRight 13 ^^^ x.rotateRight 22
/-- S1 (R174). -/
def shaBigS1 (x : Word) : Word := x.rotateRight 6 ^^^ x.rotateRight 11 ^^^ x.rotateRight 25
/-- s0 (R174). -/
def shaSmallS0 (x : Word) : Word := x.rotateRight 7 ^^^ x.rotateRight 18 ^^^ x >>> 3
/-- s1 (R174). -/
def shaSmallS1 (x : Word) : Word := x.rotateRight 17 ^^^ x.rotateRight 19 ^^^ x >>> 10

/-- The padded string m' (R171): the least k that fills the last block is (55 − len) mod 64. -/
def shaPad (m : List Byte) : List Byte :=
  m ++ [0x80] ++ zeros ((119 - m.length % 64) % 64) ++ i2osp (8 * m.length) 8

/-- The first n words of a string, each four bytes big-endian (R171). -/
def shaWords : Nat → List Byte → List Word
  | 0, _ => []
  | n + 1, b => bytesWord (b.take 4) :: shaWords n (b.drop 4)

/-- One more word of the message schedule in front of those before it, which stand latest first:
W[t] = s1(W[t−2]) + W[t−7] + s0(W[t−15]) + W[t−16] (R175). -/
def shaExtend (ws : List Word) : List Word :=
  (shaSmallS1 (ws.getD 1 0) + ws.getD 6 0 + shaSmallS0 (ws.getD 14 0) + ws.getD 15 0) :: ws

/-- The message schedule W[0..63] of a 64-byte block (R175). -/
def shaSchedule (block : List Byte) : List Word := (Nat.repeat shaExtend 48 (shaWords 16 block).reverse).reverse

/-- One round, for one K[t] and W[t] (R175). -/
def shaRound (s : HashState) (kt wt : Word) : HashState :=
  let t1 := s.h + shaBigS1 s.e + shaCh s.e s.f s.g + kt + wt
  let t2 := shaBigS0 s.a + shaMaj s.a s.b s.c
  ⟨t1 + t2, s.a, s.b, s.c, s.d + t1, s.e, s.f, s.g⟩

/-- The 64 rounds over one block, and the sums that end it (R175). -/
def shaBlock (s : HashState) (block : List Byte) : HashState :=
  let r := (shaK.zip (shaSchedule block)).foldl (fun t kw => shaRound t kw.1 kw.2) s
  ⟨s.a + r.a, s.b + r.b, s.c + r.c, s.d + r.d, s.e + r.e, s.f + r.f, s.g + r.g, s.h + r.h⟩

/-- The first n 64-byte blocks of a string, hashed in order (R175). -/
def shaBlocks (n : Nat) (b : List Byte) (s : HashState) : HashState :=
  (List.range n).foldl (fun h i => shaBlock h ((b.drop (Config.hashBlock * i)).take Config.hashBlock)) s

/-- The digest's 32 bytes: h0 to h7, each big-endian (R175). -/
def HashState.digest (s : HashState) : List Byte :=
  wordBytes s.a ++ wordBytes s.b ++ wordBytes s.c ++ wordBytes s.d ++
  wordBytes s.e ++ wordBytes s.f ++ wordBytes s.g ++ wordBytes s.h

/-- H(m) (R175). -/
def sha256 (m : List Byte) : List Byte :=
  (shaBlocks ((shaPad m).length / Config.hashBlock) (shaPad m) shaInit).digest

end Sys2Proof.Machine
end

