-- ==== Sys2Proof/Machine/Expander.lean ====
section
/-! DEFINITION. The XMD byte expander and its command (spec/41_xmd.md R160 to R163). -/

namespace Sys2Proof.Machine

/-- `dstp` = dst || byte(len(dst)) (R161). -/
def dstPrime (dst : List Byte) : List Byte := dst ++ byte dst.length

/-- b0 (R161, step 1). -/
def xmdB0 (msg dst : List Byte) (n : Nat) : List Byte :=
  sha256 (zeros Config.hashBlock ++ msg ++ be16 n ++ byte 0 ++ dstPrime dst)

/-- b1 = H(b0 || byte(1) || dstp) (R161, step 2). -/
def xmdB1 (b0 dst : List Byte) : List Byte := sha256 (b0 ++ byte 1 ++ dstPrime dst)

/-- b_i = H((b_{i−1} XOR b0) || byte(i) || dstp), for i ≥ 2 (R161, step 3). -/
def xmdBlock (b0 prev dst : List Byte) (i : Nat) : List Byte := sha256 (xorBytes prev b0 ++ byte i ++ dstPrime dst)

/-- k turns of the loop, from the block number i on, where `prev` is b_{i−1}: the blocks b_i to b_{i+k−1} (R161,
step 3). -/
def xmdLoop (b0 dst : List Byte) : (k i : Nat) → (prev : List Byte) → List (List Byte)
  | 0, _, _ => []
  | k + 1, i, prev => xmdBlock b0 prev dst i :: xmdLoop b0 dst k (i + 1) (xmdBlock b0 prev dst i)

/-- ell = ceil(n / 32), the number of the loop's last block (R161). -/
def xmdEll (n : Nat) : Nat := (n + (Config.hashDigest - 1)) / Config.hashDigest

/-- The blocks b1 to b_ell; b1 is computed even where n = 0 (R161, R163, R322). -/
def xmdBlocks (msg dst : List Byte) (n : Nat) : List (List Byte) :=
  let b0 := xmdB0 msg dst n
  let b1 := xmdB1 b0 dst
  b1 :: xmdLoop b0 dst (xmdEll n - 1) 2 b1

/-- `expand(msg, dst, n)`, for len(dst) ≤ 255 and n ≤ 8160: the blocks' bytes, truncated to n (R161, step 4). -/
def expand (msg dst : List Byte) (n : Nat) : List Byte := (xmdBlocks msg dst n).flatten.take n

/-- XMD's result (R160): its checks in the order of R274, and its write of XOUT[0:n]. -/
def xmdResult (n : Nat) (s : State) : Except CmdError State :=
  match s.hashLengthError with
  | some e => .error e
  | none => if Config.maxXmd < n then .error .outputTooLarge else .ok (s.writeXout (expand s.message s.tag n))

/-- XMD (R160): the completion step with XMD's result. -/
def execXmd (n : Nat) (s : State) : Host.Outcome State Fault Refusal := .next (s.finish (xmdResult n s))

end Sys2Proof.Machine
end

