-- ==== Sys2Proof/Machine/HashToField.lean ====
section
/-! DEFINITION. The hash-to-field reducer and its two commands (spec/42_hash_to_field.md R190 to R193). -/

namespace Sys2Proof.Machine

/-- `hashToField(msg, dst, count)` (R190): chunk i of 48 bytes gives element i. -/
def hashToField (msg dst : List Byte) (count : Nat) : List Nat :=
  let ub := expand msg dst (Config.chunkLen * count)
  (List.range count).map fun i => reduce48 ((ub.drop (Config.chunkLen * i)).take Config.chunkLen)

/-- H2F's result (R191): its checks in the order of R274, and its writes of FE[rd] to FE[rd + count − 1]. -/
def h2fResult (rd : FieldReg) (count : Nat) (s : State) : Except CmdError State :=
  if count = 0 ∨ 8 < rd.val + count then .error (.illegalCommand .registers)
  else
    match s.hashLengthError with
    | some e => .error e
    | none => .ok (s.setFeFrom rd (hashToField s.message s.tag count))

/-- H2F (R191): the completion step with H2F's result. -/
def execH2f (rd : FieldReg) (count : Nat) (s : State) : Host.Outcome State Fault Refusal :=
  .next (s.finish (h2fResult rd count s))

/-- REDUCE's result (R192): its check of the offset, and its write of FE[rd]. -/
def reduceResult (rd : FieldReg) (off : Nat) (s : State) : Except CmdError State :=
  if Config.xoutSize < off + Config.chunkLen then .error (.illegalCommand .range)
  else .ok (s.setFe rd (reduce48 (s.xoutBytes off Config.chunkLen)))

/-- REDUCE (R192): the completion step with REDUCE's result. -/
def execReduce (rd : FieldReg) (off : Nat) (s : State) : Host.Outcome State Fault Refusal :=
  .next (s.finish (reduceResult rd off s))

end Sys2Proof.Machine
end

