-- ==== Sys2Proof/Machine/SqrtRatio.lean ====
section
/-! DEFINITION. The square-root ratio and its command (spec/43_sqrt_ratio.md R210 to R214). -/

namespace Sys2Proof.Machine

/-- `sqrtRatio(u, v)` → (root, isSquare) (R210), v = 0 included (R212). -/
def sqrtRatio (u v : Nat) : Nat × Bool :=
  let x := fmul u (fcube v)
  let z := fpow x Config.eSqrt
  let root := fmul (fmul z u) v
  (root, feq (fmul (fsqr root) v) u)

/-- SQRTR's result (R214): u is checked before v (R274), both are read before FE[rd] is written, and QR is isSquare. -/
def sqrtrResult (rd ru rv : FieldReg) (s : State) : Except CmdError State :=
  match s.fieldOperand ru with
  | .error e => .error e
  | .ok u =>
    match s.fieldOperand rv with
    | .error e => .error e
    | .ok v => .ok ((s.setFe rd (sqrtRatio u v).1).setQr (sqrtRatio u v).2)

/-- SQRTR (R214): the completion step with SQRTR's result. -/
def execSqrtr (rd ru rv : FieldReg) (s : State) : Host.Outcome State Fault Refusal :=
  .next (s.finish (sqrtrResult rd ru rv s))

end Sys2Proof.Machine
end

