-- ==== Sys2Proof/Machine/Sswu.lean ====
section
/-! DEFINITION. The SSWU map to the curve and its command (spec/44_sswu_map.md R230 to R240). -/

namespace Sys2Proof.Machine

/-- What the map returns (R230): the affine point and the isSquare bit of step 6. -/
structure MapPoint where
  x : Nat
  y : Nat
  isSquare : Bool
  deriving DecidableEq, Repr

/-- Zu2 = Z·u² (R230, step 2). -/
def sswuZu2 (u : Nat) : Nat := fmul Config.curveZ (fsqr u)
/-- t1 = Zu2 + Zu2² (R230, step 2). -/
def sswuT1 (u : Nat) : Nat := fadd (sswuZu2 u) (fsqr (sswuZu2 u))
/-- x1n (R230, step 3; R231). -/
def sswuX1n (u : Nat) : Nat :=
  select (isZero (sswuT1 u)) Config.cBA (fmul Config.cNegBA (fadd 1 (sswuT1 u)))
/-- x1d (R230, step 3; R231). -/
def sswuX1d (u : Nat) : Nat := select (isZero (sswuT1 u)) Config.curveZ (sswuT1 u)
/-- x³ + A·x·d² + B·d³, the curve polynomial in homogeneous form (R230, step 4). -/
def curvePoly (x d : Nat) : Nat :=
  fadd (fadd (fcube x) (fmul (fmul Config.curveA x) (fsqr d))) (fmul Config.curveB (fcube d))
/-- y2 = u³ · C_SQZ3 · y1 (R230, step 7; R234). -/
def sswuY2 (u y1 : Nat) : Nat := fmul (fmul (fcube u) Config.cSqrtNegZ3) y1
/-- Step 9: y, negated where its sign is not that of u (R233). -/
def fixSign (u y : Nat) : Nat := select (sgn0 y == sgn0 u) y (fneg y)

/-- `sswu(u)` for a canonical u (R230). -/
def sswu (u : Nat) : MapPoint :=
  let x1n := sswuX1n u
  let x1d := sswuX1d u
  let x2n := fmul (sswuZu2 u) x1n
  let r := sqrtRatio (curvePoly x1n x1d) (fcube x1d)
  let xn := select r.2 x1n x2n
  let y := select r.2 r.1 (sswuY2 u r.1)
  ⟨fmul xn (finv x1d), fixSign u y, r.2⟩

/-- MAP's result (R240): rx ≠ ry is checked before the operand (R274), u is read before both writes, and QR is
isSquare. -/
def mapResult (rx ry ru : FieldReg) (s : State) : Except CmdError State :=
  if rx = ry then .error (.illegalCommand .registers)
  else
    match s.fieldOperand ru with
    | .error e => .error e
    | .ok u => .ok (((s.setFe rx (sswu u).x).setFe ry (sswu u).y).setQr (sswu u).isSquare)

/-- MAP (R240): the completion step with MAP's result. -/
def execMap (rx ry ru : FieldReg) (s : State) : Host.Outcome State Fault Refusal :=
  .next (s.finish (mapResult rx ry ru s))

end Sys2Proof.Machine
end

