-- ==== Sys2Proof/Machine/Dispatch.lean ====
section
/-! DEFINITION. What a command does at its completion step (spec/60_exceptions.md R281), one arm per command. -/

namespace Sys2Proof.Machine

-- exec i s is the state after the completion step of the command i over the state s.
def exec (i : Instr) (s : State) : Host.Outcome State Fault Refusal :=
  match i with
  | .nop => Sys2Proof.Machine.execNop s
  | .xmd n => Sys2Proof.Machine.execXmd n s
  | .h2f rd count => Sys2Proof.Machine.execH2f rd count s
  | .reduce rd off => Sys2Proof.Machine.execReduce rd off s
  | .sqrtr rd ru rv => Sys2Proof.Machine.execSqrtr rd ru rv s
  | .map rx ry ru => Sys2Proof.Machine.execMap rx ry ru s

end Sys2Proof.Machine
end

