-- ==== Sys2Proof/Machine/Engine.lean ====
section
/-! DEFINITION. The engine agent's turn, and one event of the total order (spec/10_state.md R30, R48; spec/20_memory.md
R84; spec/60_exceptions.md R280 to R284). -/

namespace Sys2Proof.Machine

/-- The completion step of the command word w (R281): the decoded command's, or IllegalCommand(1) where the word is
ILLEGAL (R106, R107, R278). -/
def runWord (w : Word) (s : State) : Host.Outcome State Fault Refusal :=
  match decode w with
  | .ok i => exec i s
  | .error _ => .next (s.finish (.error (.illegalCommand .undecodable)))

/-- The engine agent's turn: a busy engine completes its command, and an idle one waits (R31, R48, R281). -/
def engineTurn (s : State) : Host.Outcome State Fault Refusal :=
  match s.execState with
  | .idle => .next s
  | .busy w => runWord w s

/-- A host write in the cycle of a completion (R284). An idle engine has no completion to coincide with. -/
def coincidentWrite (off : Offset) (v : Word) (s : State) : Host.Outcome State Fault Refusal :=
  match s.execState with
  | .idle => .next (s.hostWrite off v)
  | .busy w =>
    match runWord w s with
    | .next t => .next (s.writeAtCompletion t off v)
    | .fault r => .fault r
    | .refused r => .refused r

/-- One event of the total order (R84). -/
def deliver (e : BusEvent) (s : State) : Host.Outcome State Fault Refusal :=
  match e with
  | .read off => .next (s.hostRead off)
  | .write off v => .next (s.hostWrite off v)
  | .engineTurn => engineTurn s
  | .writeAtCompletion off v => coincidentWrite off v s
  | .rst => .next s.resetEngine

/-- The next event of the bus list, taken off it. Where the list is empty the engine agent has its turn, so that every
accepted command completes (R323, weak fairness), and an idle engine waits for the next write (R31); DESIGN CHOICE, safe
(log entry 5). -/
def nextEvent (s : State) : Host.Outcome State Fault Refusal :=
  match s.bus with
  | [] => engineTurn s
  | e :: rest => deliver e { s with bus := rest }

/-- A state in which the command word w was accepted and the engine agent has the next turn (R280). -/
def State.withCommand (s : State) (w : Word) : State := { s.accept w with bus := .engineTurn :: s.bus }

end Sys2Proof.Machine
end

