-- ==== Sys2Proof/Machine/Step.lean ====
section
/-! DEFINITION. One step of the machine: one event of the total order of spec/20_memory.md R84. -/

namespace Sys2Proof.Machine

/-- One step: the next event (R84). -/
def step (s : State) : Host.Outcome State Fault Refusal := nextEvent s

/-- s with the command word of the table's bits accepted, and the engine agent next: the engine fetches nothing (R31),
and a command reaches it as one CMD write (R42, R280), for which this stands (log entry 4). -/
def State.withFetchWord (s : State) (nbits w : Nat) : State := s.withCommand (BitVec.ofNat 32 (w % 2 ^ nbits))

end Sys2Proof.Machine
end

