-- ==== Sys2Proof/Machine/Timing.lean ====
section
/-! DEFINITION. The latency of a command in engine clock cycles (spec/00_scope.md R8; spec/70_reset_and_hazards.md R320,
R322, R323). `step` does not read it: no functional rule depends on a latency (R8), and the moment of completion is an
event of the bus list (R323's timeless model; log entry 2). -/

namespace Sys2Proof.Machine

/-- The result of a command over the state s, before the completion step applies it (R281). -/
def commandResult (i : Instr) (s : State) : Except CmdError State :=
  match i with
  | .nop => nopResult s
  | .xmd n => xmdResult n s
  | .h2f rd count => h2fResult rd count s
  | .reduce rd off => reduceResult rd off s
  | .sqrtr rd ru rv => sqrtrResult rd ru rv s
  | .map rx ry ru => mapResult rx ry ru s

/-- The latency parameter of a command that raises no error (R323). -/
def commandLatency (i : Instr) (s : State) : PNat :=
  match i with
  | .nop => Config.latNop
  | .xmd n => Config.latXmd s.msgLen.toNat s.dstLen.toNat n
  | .h2f _ count => Config.latH2f s.msgLen.toNat s.dstLen.toNat count
  | .reduce _ _ => Config.latReduce
  | .sqrtr _ _ _ => Config.latSqrtr
  | .map _ _ _ => Config.latMap

/-- The cycles from accept to completion of the command word w over the state s (R320): LAT_ERR(w, code) where the word
or the command raises an error, and the command's own parameter otherwise (R323). -/
def latency (w : Word) (s : State) : PNat :=
  match decode w with
  | .error _ => Config.latErr w (errorCode (.illegalCommand .undecodable))
  | .ok i =>
    match commandResult i s with
    | .error e => Config.latErr w (errorCode e)
    | .ok _ => commandLatency i s

/-- The hash calls of an XMD of length n, b0's among them (R322). -/
def xmdHashCalls (msg dst : List Byte) (n : Nat) : Nat := 1 + (xmdBlocks msg dst n).length

end Sys2Proof.Machine
end

