-- ==== Sys2Proof/Safety.lean ====
section
/-! DEFINITION. What the claims mean by a legal state, which states they compare, and the map's first candidate. -/

namespace Sys2Proof.Machine

/-- A content of ERR that R271 gives: codes 5 to 255 are never produced, and the argument is the one of the code. -/
def errLegal (code : BitVec 8) (arg : BitVec 4) : Bool :=
  (code == 0 && arg == 0) || (code == 1 && decide (arg.toNat < 8)) || (code == 2 && arg == 0) ||
  (code == 3 && arg == 0) || (code == 4 && decide (1 ≤ arg.toNat) && decide (arg.toNat ≤ 3))

/-- A busy engine shows its command in CMD (R42) and has DONE = 0 (R280). -/
def State.busyLegal (s : State) : Bool :=
  match s.execState with
  | .idle => true
  | .busy w => s.cmd == w && !s.done

/-- The legal states: the buffers' memory is in its canonical form and lies in the DST, MSG and XOUT ranges (R79), ERR
holds what R271 gives, and a busy engine's CMD and DONE are as accept left them (R42, R280). -/
def State.legal (s : State) : Bool :=
  s.mem.wf && s.mem.all (fun c => inBuffer c.1) && errLegal s.errCode s.errArg && s.busyLegal

/-- Two states agree on all that the host may read or cause while the engine is busy: everything but the field registers
and the buffers (R82). -/
def State.sameButData (s t : State) : Prop := { s with fe := t.fe, mem := t.mem } = t

/-- The registers whose canonicity a command checks over the state s, in the order of R274: SQRTR comes to its second
operand only where the first passes, and MAP to its operand only where rx ≠ ry. -/
def checkedOperands (i : Instr) (s : State) : List FieldReg :=
  match i with
  | .nop => []
  | .xmd _ => []
  | .h2f _ _ => []
  | .reduce _ _ => []
  | .sqrtr _ ru rv => if canon (s.feVal ru) then [ru, rv] else [ru]
  | .map rx ry ru => if rx = ry then [] else [ru]

/-- Two states agree on what the latency of the command word w may depend on (R16, R320): the two lengths, and the
canonicity of the operands that the command checks. -/
def State.samePublic (s t : State) (w : Word) : Prop :=
  s.msgLen = t.msgLen ∧ s.dstLen = t.dstLen ∧
  ∀ i, decode w = .ok i → ∀ r ∈ checkedOperands i s, canon (s.feVal r) = canon (t.feVal r)

/-- g(x) = x³ + A·x + B (R133). -/
def curveG (x : Nat) : Nat := fadd (fadd (fcube x) (fmul Config.curveA x)) Config.curveB

/-- x1, the affine first candidate of R231: (−B/A)·(1 + 1/t1), or B/(Z·A) where t1 = 0. -/
def firstCandidate (u : Nat) : Nat :=
  let zu2 := fmul Config.curveZ (fsqr u)
  let t1 := fmul zu2 (fadd 1 zu2)
  if t1 = 0 then Config.cBZA else fmul Config.cNegBA (fadd 1 (finv t1))

end Sys2Proof.Machine
end

