-- ==== Sys2Proof/Certificates/Slice0/Obligations.lean ====
section
/-! DEFINITION. The statements for the provers, rule by rule of spec/. `exec i s` is the state after the completion step
of the command i over the state s, and `runWord w s` the same for a command word; `hostRead` and `hostWrite` are the two
bus transactions; `step` takes the next event of the total order. -/

open Sys2Proof Sys2Proof.Machine

/-! ### Encoding -/

/-- R105, R108: decoding the word of a well-formed command gives the command back, whatever its operands. -/
def Obligations.DecodeInvertsEncode : Prop :=
  ∀ i : Instr, i.wellFormed = true → decode (encode i) = .ok i

/-- R105: each word has one meaning. A word that decodes is the word of its command, and the command is
well-formed. -/
def Obligations.EncodeInvertsDecode : Prop :=
  ∀ (w : Word) (i : Instr), decode w = .ok i → i.wellFormed = true ∧ encode i = w

/-- R106: every word selects exactly one row, whose command the decoder gives with the word's free fields, or it
selects none, and is ILLEGAL, and completes with IllegalCommand(1). -/
def Obligations.DecodingIsTotal : Prop :=
  ∀ (w : Word) (s : State),
    (∃ r ∈ opcodeMap, w &&& r.mask = r.pattern ∧
      (∀ r' ∈ opcodeMap, w &&& r'.mask = r'.pattern → r' = r) ∧ decode w = .ok (commandOf r.mnemonic w)) ∨
    ((∀ r ∈ opcodeMap, w &&& r.mask ≠ r.pattern) ∧ (∃ e, decode w = .error e) ∧
      runWord w s = .next { s with errCode := 4, errArg := 1, done := true, execState := .idle })

/-- R107: the illegal words are those with OPC 0x06 to 0xFF and those with a 1 in a bit that their row's mask fixes to
0; each completes with IllegalCommand(1) and changes nothing but ERR, DONE and the execution state (CMD was written at
accept). -/
def Obligations.IllegalEncodings : Prop :=
  ∀ w : Word,
    ((∃ e, decode w = .error e) ↔
      (6 ≤ (w.extractLsb' 24 8).toNat ∨
        ∃ r ∈ opcodeMap, w.extractLsb' 24 8 = r.pattern.extractLsb' 24 8 ∧
          ∃ b < 24, r.mask.getLsbD b = true ∧ w.getLsbD b = true)) ∧
    ((∃ e, decode w = .error e) → ∀ s : State,
      runWord w s = .next { s with errCode := 4, errArg := 1, done := true, execState := .idle })

/-- R108: the assembler's encodings, and its refusal of an operand outside the ranges shown. (A register number above
7 is no operand of `Instr`.) -/
def Obligations.AssemblerEncodings : Prop :=
  assemble .nop = some 0x00000000#32 ∧
  (∀ n, assemble (.xmd n) = if n ≤ 65535 then some (0x01000000#32 ||| BitVec.ofNat 32 n) else none) ∧
  (∀ d count, assemble (.h2f d count) =
    if count ≤ 15 then some (0x02000000#32 ||| BitVec.ofNat 32 d.val <<< 20 ||| BitVec.ofNat 32 count) else none) ∧
  (∀ d off, assemble (.reduce d off) =
    if off ≤ 65535 then some (0x03000000#32 ||| BitVec.ofNat 32 d.val <<< 20 ||| BitVec.ofNat 32 off) else none) ∧
  (∀ d u v, assemble (.sqrtr d u v) =
    some (0x04000000#32 ||| BitVec.ofNat 32 d.val <<< 20 ||| BitVec.ofNat 32 u.val <<< 12 |||
      BitVec.ofNat 32 v.val <<< 8)) ∧
  (∀ x y u, assemble (.map x y u) =
    some (0x05000000#32 ||| BitVec.ofNat 32 x.val <<< 20 ||| BitVec.ofNat 32 y.val <<< 16 |||
      BitVec.ofNat 32 u.val <<< 12))

/-- R110, which the spec marks as derived from R105 and R108: its example words, both ways, and the two words that
fail. -/
def Obligations.ExampleWordsDecode : Prop :=
  (encode (.h2f 0 2) = 0x02000002 ∧ decode 0x02000002 = .ok (.h2f 0 2)) ∧
  (encode (.map 2 3 0) = 0x05230000 ∧ decode 0x05230000 = .ok (.map 2 3 0)) ∧
  (encode (.map 4 5 1) = 0x05451000 ∧ decode 0x05451000 = .ok (.map 4 5 1)) ∧
  (encode (.sqrtr 7 0 1) = 0x04700100 ∧ decode 0x04700100 = .ok (.sqrtr 7 0 1)) ∧
  (encode (.xmd 96) = 0x01000060 ∧ decode 0x01000060 = .ok (.xmd 96)) ∧
  (encode (.reduce 6 48) = 0x03600030 ∧ decode 0x03600030 = .ok (.reduce 6 48)) ∧
  (decode 0x05220000 = .ok (.map 2 2 0) ∧ ∀ s : State,
    runWord 0x05220000 s = .next { s with errCode := 4, errArg := 2, done := true, execState := .idle }) ∧
  ((∃ e, decode 0x05A30000 = .error e) ∧ ∀ s : State,
    runWord 0x05A30000 s = .next { s with errCode := 4, errArg := 1, done := true, execState := .idle })

/-! ### Steps and runs -/

/-- R281: at the engine agent's turn (the next event of the model's own list, or no event left: log entries 1 and 5),
a step of a busy engine runs the command that its word decodes to, with the event taken off the list. -/
def Obligations.StepRunsTheDecodedCommand : Prop :=
  ∀ (s : State) (w : Word) (i : Instr), s.execState = .busy w → decode w = .ok i →
    (s.bus = [] → step s = exec i s) ∧
    (∀ rest, s.bus = .engineTurn :: rest → step s = exec i { s with bus := rest })

/-- R30, R31, R84, over the model's own list of events (log entry 1): a step takes the next event off the list and
applies it. A read and a write reach the window; `rst` gives the reset state of R311 and keeps the model's two lists
(the model's choice, log entry 13); an idle engine that has its turn waits (R31), and waits too where the list is
empty (the model's choice, log entry 5); and a write in the cycle of a completion, on an idle engine, is a plain write
(log entry 8). -/
def Obligations.StepDeliversTheNextEvent : Prop :=
  ∀ (s : State) (rest : List BusEvent),
    (∀ off, s.bus = .read off :: rest → step s = .next (({ s with bus := rest } : State).hostRead off)) ∧
    (∀ off v, s.bus = .write off v :: rest → step s = .next (({ s with bus := rest } : State).hostWrite off v)) ∧
    (s.bus = .rst :: rest → step s = .next { State.reset with bus := rest, responses := s.responses }) ∧
    (s.execState = .idle → s.bus = .engineTurn :: rest → step s = .next { s with bus := rest }) ∧
    (s.execState = .idle → s.bus = [] → step s = .next s) ∧
    (∀ off v, s.execState = .idle → s.bus = .writeAtCompletion off v :: rest →
      step s = .next (({ s with bus := rest } : State).hostWrite off v))

/-- R270: the engine never halts or locks up. Every step, from every state, answers a next state. -/
def Obligations.EveryStepAnswersNext : Prop := ∀ s : State, ∃ t, step s = .next t

/-- The model's own invariant, from R43, R79, R271 and R280: every step keeps the legal states: the buffers' memory
stays in its canonical form and inside the DST, MSG and XOUT ranges, ERR holds a code and argument of R271, and a busy
engine's CMD is its command, with DONE = 0. -/
def Obligations.StepKeepsLegalStates : Prop :=
  ∀ s t : State, s.legal = true → step s = .next t → t.legal = true

/-- The model's own invariant holds at the reset state of R311. -/
def Obligations.ResetIsLegal : Prop := State.reset.legal = true

/-- R281 and R323, over the model's own list of events (log entry 1): every accepted command completes, or is
abandoned by a reset, within one more step than the list has events, where the last step stands for an empty list (the
model's choice, log entry 5). m is the state before that step: the command is still in flight there, over the inputs
that it had (R49). The step gives the reset state, or the command's own result u with DONE = 1, or that result with a
write in the same cycle (R284). -/
def Obligations.AcceptedCommandCompletes : Prop :=
  ∀ (s : State) (w : Word), s.execState = .busy w →
    ∃ k ≤ s.bus.length, ∃ m t : State,
      Host.Core.run core k s = .next m ∧ m.execState = .busy w ∧
      m.fe = s.fe ∧ m.mem = s.mem ∧ m.msgLen = s.msgLen ∧ m.dstLen = s.dstLen ∧
      step m = .next t ∧ t.execState = .idle ∧
      (t = { State.reset with bus := t.bus, responses := t.responses } ∨
        ∃ u, runWord w { m with bus := t.bus } = .next u ∧ t.done = true ∧
          (t = u ∨ ∃ off v, m.bus = .writeAtCompletion off v :: t.bus ∧
            t = ({ m with bus := t.bus } : State).writeAtCompletion u off v))

/-! ### Accept, completion and errors -/

/-- R42: a CMD write is accepted whatever its bits while the engine is idle, and dropped with DROP set while it is
busy; a read returns the last accepted word. -/
def Obligations.CmdWriteAccepts : Prop :=
  (∀ (s : State) (w : Word),
    (s.execState = .idle → s.hostWrite 0x010#16 w =
      { s with cmd := w, done := false, execState := .busy w, responses := .written :: s.responses }) ∧
    (∀ w', s.execState = .busy w' →
      s.hostWrite 0x010#16 w = { s with drop := true, responses := .written :: s.responses }) ∧
    s.hostRead 0x010#16 = { s with responses := .data s.cmd :: s.responses }) ∧
  State.reset.cmd = 0

/-- R273, R281: the completion step of any word sets DONE, makes the engine idle and changes nothing that only the
host writes: not MSG or DST (R34, R35), the lengths, IE, DROP or CMD. Where it leaves an error, the state is the one
before it but for ERR, DONE and the execution state; where it leaves none, ERR.ARG is 0 too. -/
def Obligations.CompletionIsPrecise : Prop :=
  ∀ (w : Word) (s : State), ∃ t, runWord w s = .next t ∧
    t = { s with fe := t.fe, mem := t.mem, qr := t.qr, errCode := t.errCode, errArg := t.errArg, done := true,
                 execState := .idle } ∧
    (t.errCode ≠ 0 → t.fe = s.fe ∧ t.mem = s.mem ∧ t.qr = s.qr) ∧
    (t.errCode = 0 → t.errArg = 0) ∧
    (∀ a, a < 0x2000 ∨ 0x4000 ≤ a → t.mem.read a = s.mem.read a) ∧
    t.statusWord.getLsbD 0 = false ∧ t.statusWord.getLsbD 1 = true

/-- R274: the order of the checks. The error that a command leaves is the first that fails. -/
def Obligations.ChecksInPriorityOrder : Prop :=
  ∀ s : State,
    (∀ w, (∃ e, decode w = .error e) → ∃ t, runWord w s = .next t ∧ t.errCode = 4 ∧ t.errArg = 1) ∧
    (∃ t, exec .nop s = .next t ∧ t.errCode = 0) ∧
    (∀ n, ∃ t, exec (.xmd n) s = .next t ∧
      if 4096 < s.msgLen.toNat then t.errCode = 4 ∧ t.errArg = 3
      else if 255 < s.dstLen.toNat then t.errCode = 2 ∧ t.errArg = 0
      else if 8160 < n then t.errCode = 3 ∧ t.errArg = 0
      else t.errCode = 0) ∧
    (∀ rd count, ∃ t, exec (.h2f rd count) s = .next t ∧
      if count = 0 ∨ 8 < rd.val + count then t.errCode = 4 ∧ t.errArg = 2
      else if 4096 < s.msgLen.toNat then t.errCode = 4 ∧ t.errArg = 3
      else if 255 < s.dstLen.toNat then t.errCode = 2 ∧ t.errArg = 0
      else t.errCode = 0) ∧
    (∀ rd off, ∃ t, exec (.reduce rd off) s = .next t ∧
      if 8144 < off then t.errCode = 4 ∧ t.errArg = 3 else t.errCode = 0) ∧
    (∀ rd ru rv, ∃ t, exec (.sqrtr rd ru rv) s = .next t ∧
      if Config.p ≤ s.feVal ru then t.errCode = 1 ∧ t.errArg.toNat = ru.val
      else if Config.p ≤ s.feVal rv then t.errCode = 1 ∧ t.errArg.toNat = rv.val
      else t.errCode = 0) ∧
    (∀ rx ry ru, ∃ t, exec (.map rx ry ru) s = .next t ∧
      if rx = ry then t.errCode = 4 ∧ t.errArg = 2
      else if Config.p ≤ s.feVal ru then t.errCode = 1 ∧ t.errArg.toNat = ru.val
      else t.errCode = 0)

/-- R271, R278: each code with its argument, the commands that raise it and its cause, which for IllegalCommand is
that of its subcode; 5 to 255 are never produced. -/
def Obligations.ErrorCodesAndCauses : Prop :=
  ∀ (w : Word) (s t : State), runWord w s = .next t →
    (t.errCode = 0 ∧ t.errArg = 0) ∨
    (t.errCode = 1 ∧ ∃ r : FieldReg, t.errArg.toNat = r.val ∧ Config.p ≤ s.feVal r ∧
      ((∃ rd ru rv, decode w = .ok (.sqrtr rd ru rv) ∧ (r = ru ∨ r = rv)) ∨
        (∃ rx ry, decode w = .ok (.map rx ry r)))) ∨
    (t.errCode = 2 ∧ t.errArg = 0 ∧ 255 < s.dstLen.toNat ∧
      ((∃ n, decode w = .ok (.xmd n)) ∨ (∃ rd count, decode w = .ok (.h2f rd count)))) ∨
    (t.errCode = 3 ∧ t.errArg = 0 ∧ ∃ n, decode w = .ok (.xmd n) ∧ 8160 < n) ∨
    (t.errCode = 4 ∧ t.errArg = 1 ∧ ∃ e, decode w = .error e) ∨
    (t.errCode = 4 ∧ t.errArg = 2 ∧
      ((∃ rd count, decode w = .ok (.h2f rd count) ∧ (count = 0 ∨ 8 < rd.val + count)) ∨
        (∃ r ru, decode w = .ok (.map r r ru)))) ∨
    (t.errCode = 4 ∧ t.errArg = 3 ∧
      ((4096 < s.msgLen.toNat ∧ ((∃ n, decode w = .ok (.xmd n)) ∨ (∃ rd count, decode w = .ok (.h2f rd count)))) ∨
        (∃ rd off, decode w = .ok (.reduce rd off) ∧ 8144 < off)))

/-- The derived sentence of R282 on reissuing: a command that failed, issued again over the state that it left, fails
the same way. -/
def Obligations.FailedCommandFailsAgain : Prop :=
  ∀ (w : Word) (s t : State), runWord w s = .next t → t.errCode ≠ 0 → runWord w t = .next t

/-! ### The commands -/

/-- R260: NOP clears ERR, sets DONE and does nothing else; its only word is 0, which is also CMD's reset value, and
any other word with OPC 0x00 completes with IllegalCommand(1). -/
def Obligations.NopCompletes : Prop :=
  (∀ s : State, exec .nop s = .next { s with errCode := 0, errArg := 0, done := true, execState := .idle }) ∧
  (∀ s t : State, exec .nop s = .next t → s.drop = false →
    t.errWord = 0 ∧ t.statusWord = if s.qr then 0x0000000A else 0x00000002) ∧
  (∀ w : Word, decode w = .ok .nop ↔ w = 0) ∧
  (∀ (w : Word) (s : State), w.extractLsb' 24 8 = 0 → w ≠ 0 →
    runWord w s = .next { s with errCode := 4, errArg := 1, done := true, execState := .idle }) ∧
  State.reset.cmd = encode .nop

/-- R160: where the lengths are legal, XMD writes XOUT[0:n] with the expansion of MSG[0:MSG_LEN] under DST[0:DST_LEN],
clears ERR, and changes nothing else: every other byte of the window's memory reads as before. -/
def Obligations.XmdWritesTheExpansion : Prop :=
  ∀ (n : Nat) (s : State), s.msgLen.toNat ≤ 4096 → s.dstLen.toNat ≤ 255 → n ≤ 8160 →
    ∃ t, exec (.xmd n) s = .next t ∧
      t = { s with mem := t.mem, errCode := 0, errArg := 0, done := true, execState := .idle } ∧
      (∀ i < n, t.mem.read (0x2000 + i) =
        (expand (s.mem.readBytes 0x1000 s.msgLen.toNat) (s.mem.readBytes 0x200 s.dstLen.toNat) n).getD i 0) ∧
      (∀ a, a < 0x2000 ∨ 0x2000 + n ≤ a → t.mem.read a = s.mem.read a)

/-- R190, R191: where the registers and the lengths are legal, H2F writes chunk i of the expansion, reduced modulo p,
to FE[rd + i], clears ERR, and changes nothing else: the other registers and all of memory are as before. -/
def Obligations.HashToFieldWritesElements : Prop :=
  ∀ (rd : FieldReg) (count : Nat) (s : State), 1 ≤ count → rd.val + count ≤ 8 →
    s.msgLen.toNat ≤ 4096 → s.dstLen.toNat ≤ 255 →
    ∃ t, exec (.h2f rd count) s = .next t ∧
      t = { s with fe := t.fe, errCode := 0, errArg := 0, done := true, execState := .idle } ∧
      ∀ k : FieldReg, t.feVal k =
        if rd.val ≤ k.val ∧ k.val < rd.val + count then
          os2ip (((expand (s.mem.readBytes 0x1000 s.msgLen.toNat) (s.mem.readBytes 0x200 s.dstLen.toNat)
            (48 * count)).drop (48 * (k.val - rd.val))).take 48) % Config.p
        else s.feVal k

/-- R192: REDUCE of an offset up to 8144 writes OS2IP(XOUT[off : off + 48]) mod p to FE[rd], clears ERR, and changes
nothing else. -/
def Obligations.ReduceWritesOneRegister : Prop :=
  ∀ (rd : FieldReg) (off : Nat) (s : State), off ≤ 8144 →
    ∃ t, exec (.reduce rd off) s = .next t ∧
      t = { s with fe := t.fe, errCode := 0, errArg := 0, done := true, execState := .idle } ∧
      t.feVal rd = os2ip (s.mem.readBytes (0x2000 + off) 48) % Config.p ∧
      ∀ k : FieldReg, k ≠ rd → t.feVal k = s.feVal k

/-- R210, R214: SQRTR of two canonical operands writes the root to FE[rd], which is the one root (u·v³)^((p−3)/4)·u·v
and not its negative, and isSquare to QR, which is 1 exactly where root²·v = u, clears ERR, and changes nothing else;
rd may be a source. -/
def Obligations.SqrtrWritesRootAndFlag : Prop :=
  ∀ (rd ru rv : FieldReg) (s : State), s.feVal ru < Config.p → s.feVal rv < Config.p →
    ∃ t, exec (.sqrtr rd ru rv) s = .next t ∧
      t = { s with fe := t.fe, qr := (sqrtRatio (s.feVal ru) (s.feVal rv)).2, errCode := 0, errArg := 0, done := true,
                   execState := .idle } ∧
      t.feVal rd = (sqrtRatio (s.feVal ru) (s.feVal rv)).1 ∧
      t.feVal rd =
        (s.feVal ru * s.feVal rv ^ 3) ^ ((Config.p - 3) / 4) * s.feVal ru * s.feVal rv % Config.p ∧
      (t.qr = true ↔ t.feVal rd ^ 2 * s.feVal rv % Config.p = s.feVal ru) ∧
      ∀ k : FieldReg, k ≠ rd → t.feVal k = s.feVal k

/-- R240: MAP of a canonical operand to two different registers writes the point's x and y and isSquare, clears ERR,
and changes nothing else; ru may be a destination. -/
def Obligations.MapWritesPointAndFlag : Prop :=
  ∀ (rx ry ru : FieldReg) (s : State), rx ≠ ry → s.feVal ru < Config.p →
    ∃ t, exec (.map rx ry ru) s = .next t ∧
      t = { s with fe := t.fe, qr := (sswu (s.feVal ru)).isSquare, errCode := 0, errArg := 0, done := true,
                   execState := .idle } ∧
      t.feVal rx = (sswu (s.feVal ru)).x ∧ t.feVal ry = (sswu (s.feVal ru)).y ∧
      ∀ k : FieldReg, k ≠ rx → k ≠ ry → t.feVal k = s.feVal k

/-- R193, which the spec marks as derived from R190 to R192 and R160: an H2F with no error leaves the field registers
as XMD of 48·count followed by the REDUCEs leaves them; the second sequence also writes XOUT[0 : 48·count], and H2F
writes no byte. `ys i` is the state before the REDUCE number i. -/
def Obligations.HashToFieldIsXmdThenReduce : Prop :=
  ∀ (rd : FieldReg) (count : Nat) (s h x : State), 1 ≤ count → rd.val + count ≤ 8 →
    s.msgLen.toNat ≤ 4096 → s.dstLen.toNat ≤ 255 →
    exec (.h2f rd count) s = .next h → exec (.xmd (48 * count)) s = .next x →
    ∃ ys : Nat → State, ys 0 = x ∧
      (∀ i < count, exec (.reduce (Fin.ofNat 8 (rd.val + i)) (48 * i)) (ys i) = .next (ys (i + 1))) ∧
      (ys count).fe = h.fe ∧ (ys count).errCode = 0 ∧ h.mem = s.mem ∧
      ∀ a, a < 0x2000 ∨ 0x2000 + 48 * count ≤ a → (ys count).mem.read a = s.mem.read a

/-- R83, and R49, which the spec marks as derived: a command's result depends only on what the command reads: XMD and
H2F on MSG[0:MSG_LEN] and DST[0:DST_LEN], REDUCE on XOUT[off : off + 48], SQRTR and MAP on their source registers. Two
states that agree there get the same error, and the same values in the command's destinations. -/
def Obligations.CommandsReadOnlyTheirInputs : Prop :=
  ∀ s t : State,
    (∀ n s' t', s.msgLen = t.msgLen → s.dstLen = t.dstLen →
      (∀ i < s.msgLen.toNat, s.mem.read (0x1000 + i) = t.mem.read (0x1000 + i)) →
      (∀ i < s.dstLen.toNat, s.mem.read (0x200 + i) = t.mem.read (0x200 + i)) →
      exec (.xmd n) s = .next s' → exec (.xmd n) t = .next t' →
      s'.errWord = t'.errWord ∧
        (s'.errCode = 0 → ∀ i < n, s'.mem.read (0x2000 + i) = t'.mem.read (0x2000 + i))) ∧
    (∀ rd count s' t', s.msgLen = t.msgLen → s.dstLen = t.dstLen →
      (∀ i < s.msgLen.toNat, s.mem.read (0x1000 + i) = t.mem.read (0x1000 + i)) →
      (∀ i < s.dstLen.toNat, s.mem.read (0x200 + i) = t.mem.read (0x200 + i)) →
      exec (.h2f rd count) s = .next s' → exec (.h2f rd count) t = .next t' →
      s'.errWord = t'.errWord ∧
        (s'.errCode = 0 → ∀ k : FieldReg, rd.val ≤ k.val → k.val < rd.val + count → s'.feVal k = t'.feVal k)) ∧
    (∀ rd off s' t', (∀ i < 48, s.mem.read (0x2000 + off + i) = t.mem.read (0x2000 + off + i)) →
      exec (.reduce rd off) s = .next s' → exec (.reduce rd off) t = .next t' →
      s'.errWord = t'.errWord ∧ (s'.errCode = 0 → s'.feVal rd = t'.feVal rd)) ∧
    (∀ rd ru rv s' t', s.feVal ru = t.feVal ru → s.feVal rv = t.feVal rv →
      exec (.sqrtr rd ru rv) s = .next s' → exec (.sqrtr rd ru rv) t = .next t' →
      s'.errWord = t'.errWord ∧ (s'.errCode = 0 → s'.feVal rd = t'.feVal rd ∧ s'.qr = t'.qr)) ∧
    (∀ rx ry ru s' t', s.feVal ru = t.feVal ru →
      exec (.map rx ry ru) s = .next s' → exec (.map rx ry ru) t = .next t' →
      s'.errWord = t'.errWord ∧
        (s'.errCode = 0 → s'.feVal rx = t'.feVal rx ∧ s'.feVal ry = t'.feVal ry ∧ s'.qr = t'.qr))

/-- R141, which the spec marks as derived from R136 to R139: every primitive gives a canonical value, and so every
field register that a command writes holds one. -/
def Obligations.CommandsWriteCanonicalValues : Prop :=
  (∀ a b k : Nat, fadd a b < Config.p ∧ fsub a b < Config.p ∧ fneg a < Config.p ∧ fmul a b < Config.p ∧
    fsqr a < Config.p ∧ fpow a k < Config.p ∧ finv a < Config.p) ∧
  (∀ (c : Bool) (a b : Nat), a < Config.p → b < Config.p → select c a b < Config.p) ∧
  (∀ a : Nat, sgn0 a < Config.p) ∧
  (∀ (i : Instr) (s t : State) (r : FieldReg), exec i s = .next t → t.fe[r] = s.fe[r] ∨ t.feVal r < Config.p)

/-! ### The field, the expander, the square-root ratio and the map -/

/-- R136: each primitive is the exact operation modulo p, on canonical operands. -/
def Obligations.FieldArithmeticIsExact : Prop :=
  ∀ a b k : Nat, a < Config.p → b < Config.p →
    (fadd a b : Int) = ((a : Int) + b) % Config.p ∧ (fsub a b : Int) = ((a : Int) - b) % Config.p ∧
    (fneg a : Int) = ((Config.p : Int) - a) % Config.p ∧ fneg 0 = 0 ∧ (fmul a b : Int) = ((a : Int) * b) % Config.p ∧
    (fsqr a : Int) = ((a : Int) * a) % Config.p ∧ fpow a k = a ^ k % Config.p ∧ fpow a 0 = 1 ∧
    fadd a b < Config.p ∧ fsub a b < Config.p ∧ fneg a < Config.p ∧ fmul a b < Config.p ∧ fsqr a < Config.p ∧
    fpow a k < Config.p

/-- The derived sentences of R137 and R232: `finv` gives the one inverse of every a ≠ 0, and 0 for 0; the map inverts
only x1d, which is never 0. -/
def Obligations.InversionIsExact : Prop :=
  (∀ a : Nat, finv a = fpow a Config.eInv) ∧
  (∀ a : Nat, 0 < a → a < Config.p → ∀ b < Config.p, (a * b % Config.p = 1 ↔ b = finv a)) ∧
  finv 0 = 0 ∧
  (∀ u < Config.p, sswuX1d u ≠ 0 ∧ sswuX1d u < Config.p)

/-- R133, which the spec marks as derived from R130 and R132: Z and −1 are non-squares, −Z = 10 and −Z³ = 1000 are
squares, and g(B/(Z·A)) is a square. -/
def Obligations.ConstantProperties : Prop :=
  (∀ x : Nat, x * x % Config.p ≠ Config.curveZ) ∧
  (∀ x : Nat, x * x % Config.p ≠ Config.p - 1) ∧
  (fneg Config.curveZ = 10 ∧ ∃ x < Config.p, x * x % Config.p = 10) ∧
  (fneg (fcube Config.curveZ) = 1000 ∧ ∃ x < Config.p, x * x % Config.p = 1000) ∧
  (∃ x < Config.p, x * x % Config.p = curvePoly Config.cBZA 1)

/-- R47: the whole constant table. The values of p, A, B and Z are those of R130 and R132, p and B general knowledge
and not the source's (log entry 9), and p mod 4 is 3; the values of the others are those of R135, which the spec marks
as derived from R130 and R132, and they are what their definitions say. -/
def Obligations.ConstantTableIsRight : Prop :=
  (Config.p = 2 ^ 256 - 2 ^ 224 + 2 ^ 192 + 2 ^ 96 - 1 ∧
    Config.p = 0xffffffff00000001000000000000000000000000ffffffffffffffffffffffff ∧ Config.p % 4 = 3) ∧
  (Config.curveA = Config.p - 3 ∧ Config.curveZ = Config.p - 10 ∧
    Config.curveB = 0x5ac635d8aa3a93e7b3ebbd55769886bc651d06b0cc53b0f63bce3c3e27d2604b) ∧
  (Config.cNegBA = 0x73976747e368dbf83bf93f1c7cdd823ecc5f023b441be5a76944bebf629b756e ∧
    Config.cBA = 0x8c6898b71c972408c406c0e383227dc133a0fdc5bbe41a5896bb41409d648a91 ∧
    Config.cBZA = 0xa528bd8696bdaf996c65b982d94959d3146fe6a020693090bdba13132375f224 ∧
    Config.cSqrtNegZ3 = 0x87438e5ed27613f9deb9dc092f06aaf8d3833faafb5a591dc004098eea05acfe ∧
    Config.eSqrt = 0x3fffffffc00000004000000000000000000000003fffffffffffffffffffffff ∧
    Config.eInv = 0xffffffff00000001000000000000000000000000fffffffffffffffffffffffd) ∧
  fmul Config.cNegBA Config.curveA = fneg Config.curveB ∧ fmul Config.cBA Config.curveA = Config.curveB ∧
  Config.cBA = Config.p - Config.cNegBA ∧
  fmul Config.cBZA (fmul Config.curveZ Config.curveA) = Config.curveB ∧
  fmul Config.cBZA Config.curveZ = Config.cBA ∧
  fpow 1000 ((Config.p + 1) / 4) = Config.cSqrtNegZ3 ∧ fsqr Config.cSqrtNegZ3 = fneg (fcube Config.curveZ) ∧
  sgn0 Config.cSqrtNegZ3 = 0 ∧ Config.eSqrt = (Config.p - 3) / 4 ∧ Config.eInv = Config.p - 2

/-- R163, which the spec marks as derived from R161: the expander's edge cases: n = 0, one block, 255 blocks with last
counter byte 0xFF, and the empty message and tag. -/
def Obligations.ExpanderEdgeCases : Prop :=
  (∀ msg dst : List Byte, expand msg dst 0 = [] ∧
    xmdBlocks msg dst 0 = [xmdB1 (xmdB0 msg dst 0) dst]) ∧
  (∀ (msg dst : List Byte) (n : Nat), 1 ≤ n → n ≤ 32 → expand msg dst n = (xmdB1 (xmdB0 msg dst n) dst).take n) ∧
  (∀ msg dst : List Byte, ∃ prev, (xmdBlocks msg dst 8160).length = 255 ∧
    (xmdBlocks msg dst 8160)[253]? = some prev ∧
    (xmdBlocks msg dst 8160)[254]? = some (xmdBlock (xmdB0 msg dst 8160) prev dst 255) ∧ byte 255 = [0xFF]) ∧
  dstPrime [] = [0x00] ∧
  (∀ (n : Nat) (s : State), s.msgLen = 0 → s.dstLen = 0 → n ≤ 8160 →
    ∃ t, exec (.xmd n) s = .next t ∧ t.errCode = 0 ∧ t.mem = s.mem.writeBytes 0x2000 (expand [] [] n))

/-- R171, R175, which the spec marks as general knowledge and not the source's (log entry 9): the padded string is the
message, 0x80, the least number of zero bytes that fills the last block, and the message's length in bits as 8 bytes;
and the schedule of a block is its sixteen big-endian words, then the recurrence of R175. -/
def Obligations.HashPaddingAndSchedule : Prop :=
  (∀ m : List Byte, ∃ k : Nat,
    shaPad m = m ++ [0x80] ++ List.replicate k 0 ++ i2osp (8 * m.length) 8 ∧
    (shaPad m).length % 64 = 0 ∧ (shaPad m).length = m.length + k + 9 ∧
    ∀ j < k, (m.length + j + 9) % 64 ≠ 0) ∧
  (∀ block : List Byte, block.length = 64 → ∃ W : Nat → Word,
    shaSchedule block = (List.range 64).map W ∧
    (∀ t < 16, (W t).toNat = os2ip ((block.drop (4 * t)).take 4)) ∧
    (∀ t, 16 ≤ t → t < 64 →
      W t = shaSmallS1 (W (t - 2)) + W (t - 7) + shaSmallS0 (W (t - 15)) + W (t - 16)))

/-- R172 to R175, which the spec marks as general knowledge and not the source's (log entry 9): the 64 rounds of a
block, with the functions of R174 written out, the sums that end the block, and the digest as the last hash value's
eight words, from the initial value of R172 on. -/
def Obligations.HashRoundsAndDigest : Prop :=
  (∀ x y z : Word,
    shaCh x y z = ((x &&& y) ^^^ (~~~x &&& z)) ∧ shaMaj x y z = ((x &&& y) ^^^ (x &&& z) ^^^ (y &&& z)) ∧
    shaBigS0 x = (x.rotateRight 2 ^^^ x.rotateRight 13 ^^^ x.rotateRight 22) ∧
    shaBigS1 x = (x.rotateRight 6 ^^^ x.rotateRight 11 ^^^ x.rotateRight 25) ∧
    shaSmallS0 x = (x.rotateRight 7 ^^^ x.rotateRight 18 ^^^ x >>> 3) ∧
    shaSmallS1 x = (x.rotateRight 17 ^^^ x.rotateRight 19 ^^^ x >>> 10)) ∧
  (∀ (s : HashState) (block : List Byte), block.length = 64 → ∃ r : Nat → HashState, r 0 = s ∧
    (∀ t < 64, ∃ kt wt t1 : Word, shaK[t]? = some kt ∧ (shaSchedule block)[t]? = some wt ∧
      t1 = (r t).h + shaBigS1 (r t).e + shaCh (r t).e (r t).f (r t).g + kt + wt ∧
      r (t + 1) = ⟨t1 + (shaBigS0 (r t).a + shaMaj (r t).a (r t).b (r t).c), (r t).a, (r t).b, (r t).c,
        (r t).d + t1, (r t).e, (r t).f, (r t).g⟩) ∧
    shaBlock s block = ⟨s.a + (r 64).a, s.b + (r 64).b, s.c + (r 64).c, s.d + (r 64).d,
      s.e + (r 64).e, s.f + (r 64).f, s.g + (r 64).g, s.h + (r 64).h⟩) ∧
  (∀ m : List Byte, ∃ h : Nat → HashState,
    h 0 = ⟨0x6a09e667, 0xbb67ae85, 0x3c6ef372, 0xa54ff53a, 0x510e527f, 0x9b05688c, 0x1f83d9ab, 0x5be0cd19⟩ ∧
    (∀ i < (shaPad m).length / 64, h (i + 1) = shaBlock (h i) (((shaPad m).drop (64 * i)).take 64)) ∧
    ∀ v, v = h ((shaPad m).length / 64) →
      sha256 m = i2osp v.a.toNat 4 ++ i2osp v.b.toNat 4 ++ i2osp v.c.toNat 4 ++ i2osp v.d.toNat 4 ++
        i2osp v.e.toNat 4 ++ i2osp v.f.toNat 4 ++ i2osp v.g.toNat 4 ++ i2osp v.h.toNat 4)

/-- R175, which the spec marks as general knowledge and not the source's (log entry 9), and section 3 of
95_test_vectors.md: the check values of H, which depend on every constant of R172 and R173. -/
def Obligations.HashCheckValues : Prop :=
  os2ip (sha256 []) = 0xe3b0c44298fc1c149afbf4c8996fb92427ae41e4649b934ca495991b7852b855 ∧
  os2ip (sha256 [0x61, 0x62, 0x63]) = 0xba7816bf8f01cfea414140de5dae2223b00361a396177a9cb410ff61f20015ad ∧
  os2ip (sha256 (List.replicate 64 0x61)) = 0xffe054fe7ae0cb6dc65c3af9b61d5209f439851db43d0ba5997337df154668eb

/-- R161, and the hash calls that R322 derives from it: the expander returns exactly n bytes, with 1 + max(1,
ceil(n/32)) hash calls, a count that depends on n alone; and its byte i is byte i mod 32 of the block b_(i/32 + 1),
where b0, b1 and the later blocks are the hashes that R161 gives. -/
def Obligations.ExpanderLengthAndWork : Prop :=
  ∀ (msg dst : List Byte) (n : Nat),
    (expand msg dst n).length = n ∧ xmdHashCalls msg dst n = 1 + max 1 ((n + 31) / 32) ∧
    (dst.length ≤ 255 → n ≤ 8160 → ∃ (b0 : List Byte) (b : Nat → List Byte),
      b0 = sha256 (List.replicate 64 0 ++ msg ++ [BitVec.ofNat 8 (n / 256), BitVec.ofNat 8 n] ++ [0] ++ dst ++
        [BitVec.ofNat 8 dst.length]) ∧
      b 1 = sha256 (b0 ++ [1] ++ dst ++ [BitVec.ofNat 8 dst.length]) ∧
      (∀ i, 2 ≤ i → i ≤ (n + 31) / 32 →
        b i = sha256 (List.zipWith (· ^^^ ·) (b (i - 1)) b0 ++ [BitVec.ofNat 8 i] ++ dst ++
          [BitVec.ofNat 8 dst.length])) ∧
      ∀ i, i < n → ∃ x, (b (i / 32 + 1))[i % 32]? = some x ∧ (expand msg dst n)[i]? = some x)

/-- R210, and R211, which the spec marks as derived from it: the exact root (u·v³)^((p−3)/4)·u·v, isSquare as root²·v
= u, and what the two mean, with χ(a) = a^((p−1)/2). -/
def Obligations.SqrtRatioMeaning : Prop :=
  ∀ u v : Nat, u < Config.p → v < Config.p →
    (sqrtRatio u v).1 = (u * v ^ 3) ^ ((Config.p - 3) / 4) * u * v % Config.p ∧
    ((sqrtRatio u v).2 = true ↔ (sqrtRatio u v).1 ^ 2 * v % Config.p = u) ∧
    (u ≠ 0 → v ≠ 0 →
      fmul (fsqr (sqrtRatio u v).1) v = fmul u (fpow (fmul u v) ((Config.p - 1) / 2)) ∧
      ((sqrtRatio u v).2 = true ↔ ∃ x, fmul (fsqr x) v = u) ∧
      ((sqrtRatio u v).2 = true → fmul (fsqr (sqrtRatio u v).1) v = u) ∧
      ((sqrtRatio u v).2 = false → fmul (fsqr (sqrtRatio u v).1) v = fneg u)) ∧
    (u = 0 → sqrtRatio u v = (0, true))

/-- R212, a decision whose values the spec marks as derived from R210: SQRTR with v = 0 computes the formula: root 0,
and isSquare exactly where u = 0. No error is raised. -/
def Obligations.SqrtRatioOfZeroDenominator : Prop :=
  (∀ u < Config.p, sqrtRatio u 0 = (0, u == 0)) ∧
  (∀ (rd ru rv : FieldReg) (s : State), s.feVal ru < Config.p → s.feVal rv = 0 →
    ∃ t, exec (.sqrtr rd ru rv) s = .next t ∧ t.errCode = 0 ∧ t.feVal rd = 0 ∧ t.qr = (s.feVal ru == 0))

/-- R214's derived corner case: SQRTR with ru = rv gives root 1 for u ≠ 0 and root 0 for u = 0, with QR = 1. -/
def Obligations.SqrtrOfEqualOperands : Prop :=
  ∀ (rd r : FieldReg) (s : State), s.feVal r < Config.p →
    ∃ t, exec (.sqrtr rd r r) s = .next t ∧ t.qr = true ∧ t.errCode = 0 ∧
      t.feVal rd = if s.feVal r = 0 then 0 else 1

/-- R236 and R233, which the spec marks as derived from R230: every canonical u maps to an affine point of the curve
whose y has the sign of u, and p − u to the point with the same x and y negated. -/
def Obligations.MapIsTotalAndOnTheCurve : Prop :=
  (∀ u < Config.p,
    (sswu u).x < Config.p ∧ (sswu u).y < Config.p ∧
    fsqr (sswu u).y =
      fadd (fadd (fcube (sswu u).x) (fmul Config.curveA (sswu u).x)) Config.curveB ∧
    sgn0 (sswu u).y = sgn0 u ∧ (sswu u).y ≠ 0) ∧
  (∀ u < Config.p, u ≠ 0 →
    (sswu (Config.p - u)).x = (sswu u).x ∧ (sswu (Config.p - u)).y = Config.p - (sswu u).y)

/-- R231 to R234, which the spec marks as derived from R230: which point MAP writes. With x1 the affine first
candidate, (−B/A)·(1 + 1/t1), or B/(Z·A) where t1 = 0, QR is 1 exactly where g(x1) is a square; x is x1 there and
Z·u²·x1 elsewhere; and y is the root of g(x) that has the sign of u, the one such number below p. -/
def Obligations.MapTakesTheFirstSquareCandidate : Prop :=
  ∀ (rx ry ru : FieldReg) (s : State), rx ≠ ry → s.feVal ru < Config.p →
    ∃ t, exec (.map rx ry ru) s = .next t ∧
      (t.qr = true ↔ ∃ y : Nat, y * y % Config.p = curveG (firstCandidate (s.feVal ru))) ∧
      t.feVal rx =
        (if t.qr then firstCandidate (s.feVal ru)
          else fmul (fmul Config.curveZ (fsqr (s.feVal ru))) (firstCandidate (s.feVal ru))) ∧
      (∀ y < Config.p, t.feVal ry = y ↔ (y * y % Config.p = curveG (t.feVal rx) ∧ y % 2 = s.feVal ru % 2))

/-- R232, which the spec marks as derived from R230: the exceptional inputs are 0 and the two square roots of 1/10,
all three map to x = C_BZA with isSquare = 1, and x1d is 0 for no input. -/
def Obligations.ExceptionalInputsOfTheMap : Prop :=
  (∀ u < Config.p, sswuT1 u = 0 ↔ (u = 0 ∨ fmul Config.curveZ (fsqr u) = Config.p - 1)) ∧
  (∀ u < Config.p, fmul Config.curveZ (fsqr u) = Config.p - 1 ↔ fmul 10 (fsqr u) = 1) ∧
  (∃ r : Nat, r < Config.p ∧ r ≠ 0 ∧ fmul 10 (fsqr r) = 1 ∧
    ∀ u < Config.p, sswuT1 u = 0 ↔ (u = 0 ∨ u = r ∨ u = Config.p - r)) ∧
  (∀ u < Config.p, sswuT1 u = 0 → (sswu u).x = Config.cBZA ∧ (sswu u).isSquare = true) ∧
  (∀ u < Config.p, sswuX1d u ≠ 0 ∧ fcube (sswuX1d u) ≠ 0)

/-! ### The bus -/

/-- R73: a transaction at an offset that is no multiple of 4 gets a bus error and changes nothing; an aligned one
never gets a bus error. -/
def Obligations.MisalignedIsABusError : Prop :=
  ∀ (s : State) (off : Offset) (v : Word),
    (off.toNat % 4 ≠ 0 →
      s.hostRead off = { s with responses := .busError :: s.responses } ∧
      s.hostWrite off v = { s with responses := .busError :: s.responses }) ∧
    (off.toNat % 4 = 0 →
      (s.hostRead off).responses = .data (s.peek off) :: s.responses ∧
      (s.hostWrite off v).responses = .written :: s.responses)

/-- R81: a read changes no state anywhere in the window: it only adds the bus's answer. -/
def Obligations.ReadsChangeNothing : Prop :=
  ∀ (s : State) (off : Offset), ∃ r, s.hostRead off = { s with responses := r :: s.responses }

/-- R75: the words of MSG, DST and XOUT are big-endian, read and written; a write changes its four bytes and nothing
else. -/
def Obligations.BufferWordsAreBigEndian : Prop :=
  ∀ (s : State) (base size k : Nat) (v : Word), s.execState = .idle →
    (base, size) ∈ [(0x200, 256), (0x1000, 4096), (0x2000, 8192)] → 4 * k < size →
    (∃ w : Word, s.hostRead (BitVec.ofNat 16 (base + 4 * k)) = { s with responses := .data w :: s.responses } ∧
      w.toNat = 16777216 * (s.mem.read (base + 4 * k)).toNat + 65536 * (s.mem.read (base + 4 * k + 1)).toNat +
        256 * (s.mem.read (base + 4 * k + 2)).toNat + (s.mem.read (base + 4 * k + 3)).toNat) ∧
    (∃ t, s.hostWrite (BitVec.ofNat 16 (base + 4 * k)) v = t ∧
      t = { s with mem := t.mem, responses := .written :: s.responses } ∧
      t.mem.read (base + 4 * k) = v.extractLsb' 24 8 ∧ t.mem.read (base + 4 * k + 1) = v.extractLsb' 16 8 ∧
      t.mem.read (base + 4 * k + 2) = v.extractLsb' 8 8 ∧ t.mem.read (base + 4 * k + 3) = v.extractLsb' 0 8 ∧
      ∀ a, a < base + 4 * k ∨ base + 4 * k + 4 ≤ a → t.mem.read a = s.mem.read a)

/-- R76: word j of field register k, at offset 0x100 + 32k + 4j, is bits [255 − 32j : 224 − 32j]; a write replaces
them and leaves the other 224 bits, the other registers and everything else. -/
def Obligations.FieldRegisterWords : Prop :=
  ∀ (s : State) (k j : Fin 8) (v : Word), s.execState = .idle →
    s.hostRead (BitVec.ofNat 16 (0x100 + 32 * k.val + 4 * j.val)) =
      { s with responses := .data (s.fe[k].extractLsb' (224 - 32 * j.val) 32) :: s.responses } ∧
    (∃ t, s.hostWrite (BitVec.ofNat 16 (0x100 + 32 * k.val + 4 * j.val)) v = t ∧
      t = { s with fe := t.fe, responses := .written :: s.responses } ∧
      t.fe[k].extractLsb' (224 - 32 * j.val) 32 = v ∧
      (∀ b, b < 224 - 32 * j.val ∨ 256 - 32 * j.val ≤ b → t.fe[k].getLsbD b = s.fe[k].getLsbD b) ∧
      ∀ k' : Fin 8, k' ≠ k → t.fe[k'] = s.fe[k'])

/-- R80: a reserved offset reads as 0 and ignores writes, and ID, VERSION and ERR ignore writes, idle or busy, without
DROP. -/
def Obligations.ReservedAndReadOnlyOffsets : Prop :=
  ∀ (s : State) (off : Offset) (v : Word), off.toNat % 4 = 0 →
    ((0x20 ≤ off.toNat ∧ off.toNat < 0x100) ∨ (0x300 ≤ off.toNat ∧ off.toNat < 0x1000) ∨ 0x4000 ≤ off.toNat →
      s.hostRead off = { s with responses := .data 0 :: s.responses } ∧
      s.hostWrite off v = { s with responses := .written :: s.responses }) ∧
    (off = 0x000#16 ∨ off = 0x004#16 ∨ off = 0x014#16 →
      s.hostWrite off v = { s with responses := .written :: s.responses })

/-- R82: accesses while busy. Data reads give 0; writes to data, MSG_LEN, DST_LEN and CMD are dropped and set DROP;
the control registers read as they stand; CTRL and STATUS take writes as an idle engine's; reserved and read-only
offsets ignore writes. -/
def Obligations.AccessesWhileBusy : Prop :=
  ∀ (s : State) (w : Word) (off : Offset) (v : Word), s.execState = .busy w → off.toNat % 4 = 0 →
    ((0x100 ≤ off.toNat ∧ off.toNat < 0x300) ∨ (0x1000 ≤ off.toNat ∧ off.toNat < 0x4000) →
      s.hostRead off = { s with responses := .data 0 :: s.responses } ∧
      s.hostWrite off v = { s with drop := true, responses := .written :: s.responses }) ∧
    (off = 0x010#16 ∨ off = 0x018#16 ∨ off = 0x01C#16 →
      s.hostWrite off v = { s with drop := true, responses := .written :: s.responses }) ∧
    s.peek 0x000#16 = 0x53535755 ∧ s.peek 0x004#16 = 0x00010000 ∧ s.peek 0x008#16 = s.ctrlWord ∧
    s.peek 0x00C#16 = s.statusWord ∧ s.peek 0x010#16 = s.cmd ∧ s.peek 0x014#16 = s.errWord ∧
    s.peek 0x018#16 = s.msgLenWord ∧ s.peek 0x01C#16 = s.dstLenWord ∧
    s.hostWrite 0x00C#16 v =
      { s with done := s.done && !v.getLsbD 1, drop := s.drop && !v.getLsbD 4,
               responses := .written :: s.responses } ∧
    (v.getLsbD 1 = true → s.hostWrite 0x008#16 v =
      { State.reset with bus := s.bus, responses := .written :: s.responses }) ∧
    (v.getLsbD 1 = false → s.hostWrite 0x008#16 v =
      { s with ie := v.getLsbD 0, responses := .written :: s.responses }) ∧
    ((0x20 ≤ off.toNat ∧ off.toNat < 0x100) ∨ (0x300 ≤ off.toNat ∧ off.toNat < 0x1000) ∨ 0x4000 ≤ off.toNat ∨
      off = 0x000#16 ∨ off = 0x004#16 ∨ off = 0x014#16 →
      s.hostWrite off v = { s with responses := .written :: s.responses })

/-- R49, which the spec marks as derived from R42 and R82: no host write, read or idle turn changes what the command
in flight reads: from a busy state, an event after which the same command is still in flight leaves FE, MSG, DST,
XOUT, MSG_LEN, DST_LEN and CMD as they were. -/
def Obligations.InputsAreFixedWhileBusy : Prop :=
  ∀ (s t : State) (e : BusEvent) (w w' : Word), s.execState = .busy w → deliver e s = .next t →
    t.execState = .busy w' →
    w' = w ∧ t.fe = s.fe ∧ t.mem = s.mem ∧ t.msgLen = s.msgLen ∧ t.dstLen = s.dstLen ∧ t.cmd = s.cmd ∧ t.qr = s.qr ∧
      t.errCode = s.errCode ∧ t.errArg = s.errArg

/-- R82: while the engine is busy, no host access tells anything of the field registers or the buffers: from two busy
states that differ only there, every transaction gets the same answer and leaves states that differ only there. -/
def Obligations.BusyEngineRevealsNoData : Prop :=
  ∀ (s t : State) (w : Word) (off : Offset) (v : Word), s.execState = .busy w → s.sameButData t →
    (s.hostRead off).sameButData (t.hostRead off) ∧ (s.hostWrite off v).sameButData (t.hostWrite off v)

/-- R44, R45: ID and VERSION read as their constants in every state, and ignore writes. -/
def Obligations.IdentityRegisters : Prop :=
  ∀ (s : State) (v : Word),
    s.hostRead 0x000#16 = { s with responses := .data 0x53535755 :: s.responses } ∧
    s.hostWrite 0x000#16 v = { s with responses := .written :: s.responses } ∧
    s.hostRead 0x004#16 = { s with responses := .data 0x00010000 :: s.responses } ∧
    s.hostWrite 0x004#16 v = { s with responses := .written :: s.responses }

/-- R39: CTRL, idle or busy. A 1 in SRST is a soft reset and the rest of the word is ignored; otherwise bit 0 goes to
IE. SRST and bits [31:2] read as 0. -/
def Obligations.ControlRegister : Prop :=
  (∀ (s : State) (v : Word),
    (v.getLsbD 1 = true → s.hostWrite 0x008#16 v =
      { State.reset with bus := s.bus, responses := .written :: s.responses }) ∧
    (v.getLsbD 1 = false → s.hostWrite 0x008#16 v =
      { s with ie := v.getLsbD 0, responses := .written :: s.responses }) ∧
    s.hostRead 0x008#16 = { s with responses := .data (if s.ie then 1 else 0) :: s.responses }) ∧
  State.reset.ctrlWord = 0

/-- R40: the bits of STATUS, and what a write to it clears. -/
def Obligations.StatusRegister : Prop :=
  (∀ s : State,
    (s.statusWord.getLsbD 0 = true ↔ ∃ w, s.execState = .busy w) ∧ s.statusWord.getLsbD 1 = s.done ∧
    (s.statusWord.getLsbD 2 = true ↔ s.errCode ≠ 0) ∧ s.statusWord.getLsbD 3 = s.qr ∧
    s.statusWord.getLsbD 4 = s.drop ∧ ∀ b, 5 ≤ b → s.statusWord.getLsbD b = false) ∧
  (∀ s : State, s.hostRead 0x00C#16 = { s with responses := .data s.statusWord :: s.responses }) ∧
  (∀ (s : State) (v : Word), s.hostWrite 0x00C#16 v =
    { s with done := s.done && !v.getLsbD 1, drop := s.drop && !v.getLsbD 4,
             responses := .written :: s.responses }) ∧
  State.reset.statusWord = 0

/-- R43: ERR, idle or busy. A read gives CODE in bits [7:0], ARG in bits [11:8] and zero above; a write is ignored. A
completion leaves the code of its command there, with the index of the failing register as the argument of code 1, the
subcode as that of code 4, and 0 otherwise; every other read and write but a soft reset leaves it, an accept among
them; and it is 0 at reset. -/
def Obligations.ErrorRegister : Prop :=
  (∀ (s : State) (v : Word),
    (∃ w : Word, s.hostRead 0x014#16 = { s with responses := .data w :: s.responses } ∧
      w.extractLsb' 0 8 = s.errCode ∧ w.extractLsb' 8 4 = s.errArg ∧ (∀ b, 12 ≤ b → w.getLsbD b = false) ∧
      w.toNat = 256 * s.errArg.toNat + s.errCode.toNat ∧ w = s.errWord) ∧
    s.hostWrite 0x014#16 v = { s with responses := .written :: s.responses }) ∧
  (∀ (w : Word) (s t : State), runWord w s = .next t →
    (t.errCode = 1 → ∃ i, decode w = .ok i ∧ ∃ r ∈ checkedOperands i s,
      Config.p ≤ s.feVal r ∧ t.errArg.toNat = r.val) ∧
    (t.errCode = 4 → 1 ≤ t.errArg.toNat ∧ t.errArg.toNat ≤ 3 ∧ (t.errArg = 1 ↔ ∃ e, decode w = .error e)) ∧
    (t.errCode ≠ 1 → t.errCode ≠ 4 → t.errArg = 0)) ∧
  (∀ (s : State) (off : Offset) (v : Word),
    (s.hostRead off).errWord = s.errWord ∧
    (off ≠ 0x008#16 ∨ v.getLsbD 1 = false → (s.hostWrite off v).errWord = s.errWord)) ∧
  State.reset.hostRead 0x014#16 = { State.reset with responses := [.data 0] }

/-- R37, R38: the length registers keep 16 bits as written, are dropped while busy, and are checked by the command
that uses them. -/
def Obligations.LengthRegisters : Prop :=
  (∀ (s : State) (v : Word), s.execState = .idle →
    s.hostWrite 0x018#16 v = { s with msgLen := v.extractLsb' 0 16, responses := .written :: s.responses } ∧
    s.hostWrite 0x01C#16 v = { s with dstLen := v.extractLsb' 0 16, responses := .written :: s.responses }) ∧
  (∀ (s : State) (w v : Word), s.execState = .busy w →
    s.hostWrite 0x018#16 v = { s with drop := true, responses := .written :: s.responses } ∧
    s.hostWrite 0x01C#16 v = { s with drop := true, responses := .written :: s.responses }) ∧
  (∀ s : State,
    s.hostRead 0x018#16 = { s with responses := .data (BitVec.ofNat 32 s.msgLen.toNat) :: s.responses } ∧
    s.hostRead 0x01C#16 = { s with responses := .data (BitVec.ofNat 32 s.dstLen.toNat) :: s.responses }) ∧
  (∀ (s : State) (n : Nat) (rd : FieldReg) (count : Nat), 1 ≤ count → rd.val + count ≤ 8 →
    (4096 < s.msgLen.toNat → ∀ i, i = .xmd n ∨ i = .h2f rd count →
      exec i s = .next { s with errCode := 4, errArg := 3, done := true, execState := .idle }) ∧
    (s.msgLen.toNat ≤ 4096 → 255 < s.dstLen.toNat → ∀ i, i = .xmd n ∨ i = .h2f rd count →
      exec i s = .next { s with errCode := 2, errArg := 0, done := true, execState := .idle }) ∧
    (s.msgLen.toNat ≤ 4096 → s.dstLen = 0 → n ≤ 8160 → ∀ i, i = .xmd n ∨ i = .h2f rd count →
      ∃ t, exec i s = .next t ∧ t.errCode = 0)) ∧
  State.reset.msgLen = 0 ∧ State.reset.dstLen = 0

/-- R310, R311: both resets, idle or busy, leave every piece of the engine's state at its reset value, and a command
in flight has no effect. -/
def Obligations.BothResets : Prop :=
  (∀ s : State, deliver .rst s = .next { State.reset with bus := s.bus, responses := s.responses }) ∧
  (∀ (s : State) (v : Word), v.getLsbD 1 = true →
    deliver (.write 0x008#16 v) s = .next { State.reset with bus := s.bus, responses := .written :: s.responses }) ∧
  (∀ r : FieldReg, State.reset.feVal r = 0) ∧ (∀ a, State.reset.mem.read a = 0) ∧
  State.reset.msgLen = 0 ∧ State.reset.dstLen = 0 ∧ State.reset.ie = false ∧ State.reset.statusWord = 0 ∧
  State.reset.cmd = 0 ∧ State.reset.errWord = 0 ∧ State.reset.execState = .idle ∧ State.reset.irq = false ∧
  State.reset.peek 0x000#16 = 0x53535755 ∧ State.reset.peek 0x004#16 = 0x00010000

/-! ### The interrupt, the flag, coincident events and timing -/

/-- R50, R283: irq is CTRL.IE AND STATUS.DONE, and so a completion, with or without an error, raises it where IE is 1.
It is cleared by writing 1 to DONE, by an accept and by a reset; clearing IE lowers it and leaves DONE; a dropped
write does not touch it; and in a step it rises only by a completion or by a CTRL write that sets IE while DONE is
1. -/
def Obligations.InterruptLine : Prop :=
  (∀ s : State, s.irq = (s.ie && s.done)) ∧
  (∀ (w : Word) (s t : State), runWord w s = .next t → t.irq = s.ie) ∧
  (∀ (s : State) (v : Word), v.getLsbD 1 = true → (s.hostWrite 0x00C#16 v).irq = false) ∧
  (∀ (s : State) (w : Word), s.execState = .idle → (s.hostWrite 0x010#16 w).irq = false) ∧
  (∀ s : State, s.resetEngine.irq = false) ∧
  (∀ (s : State) (v : Word), v.getLsbD 0 = false → v.getLsbD 1 = false →
    (s.hostWrite 0x008#16 v).irq = false ∧ (s.hostWrite 0x008#16 v).done = s.done) ∧
  (∀ s : State, s.dropWrite.irq = s.irq) ∧
  (∀ s t : State, step s = .next t → s.irq = false → t.irq = true →
    ((∃ w, s.execState = .busy w) ∧ t.execState = .idle) ∨
    (s.done = true ∧ s.ie = false ∧ t.ie = true ∧ ∃ v rest, v.getLsbD 0 = true ∧
      (s.bus = .write 0x008#16 v :: rest ∨ s.bus = .writeAtCompletion 0x008#16 v :: rest)))

/-- R41: only SQRTR and MAP write QR. In a step, QR changes only by a reset, which clears it, or by the completion of
a SQRTR or MAP without error, which writes its isSquare. -/
def Obligations.QrIsWrittenBySqrtrAndMap : Prop :=
  (∀ s t : State, step s = .next t → t.qr ≠ s.qr →
    (t = { State.reset with bus := t.bus, responses := t.responses }) ∨
    (∃ w, s.execState = .busy w ∧ t.errCode = 0 ∧
      ((∃ rd ru rv, decode w = .ok (.sqrtr rd ru rv) ∧ t.qr = (sqrtRatio (s.feVal ru) (s.feVal rv)).2) ∨
        (∃ rx ry ru, decode w = .ok (.map rx ry ru) ∧ t.qr = (sswu (s.feVal ru)).isSquare)))) ∧
  State.reset.qr = false

/-- R284: a host write and the completion in one cycle. t is the state that the completion step alone gives. -/
def Obligations.CoincidentWrite : Prop :=
  ∀ (s t : State) (w : Word) (off : Offset) (v : Word), s.execState = .busy w → runWord w s = .next t →
    (off ≠ 0x008#16 → off ≠ 0x00C#16 → off ≠ 0x010#16 →
      deliver (.writeAtCompletion off v) s = .next (t.hostWrite off v)) ∧
    deliver (.writeAtCompletion 0x00C#16 v) s =
      .next { t with done := true, drop := t.drop && !v.getLsbD 4, responses := .written :: t.responses } ∧
    deliver (.writeAtCompletion 0x010#16 v) s = .next { t with drop := true, responses := .written :: t.responses } ∧
    (v.getLsbD 1 = true → deliver (.writeAtCompletion 0x008#16 v) s =
      .next { State.reset with bus := s.bus, responses := .written :: s.responses }) ∧
    (v.getLsbD 1 = false → deliver (.writeAtCompletion 0x008#16 v) s = .next (t.hostWrite 0x008#16 v))

/-- R84, R284: no two events are simultaneous. A host write in the cycle of a completion leaves what the two events
leave one after the other, in one of the two orders. -/
def Obligations.CoincidentWriteIsOneOfTheTwoOrders : Prop :=
  ∀ (s : State) (off : Offset) (v : Word),
    (∃ m, deliver (.write off v) s = .next m ∧
      deliver (.writeAtCompletion off v) s = deliver .engineTurn m) ∨
    (∃ m, deliver .engineTurn s = .next m ∧
      deliver (.writeAtCompletion off v) s = deliver (.write off v) m)

/-- R320: the latency is a function of the command word, the two lengths and the canonicity of the operands that the
command checks: states that agree on these have the same latency for that word. -/
def Obligations.LatencyDependsOnPublicValues : Prop :=
  ∀ (w : Word) (s t : State), s.samePublic t w → latency w s = latency w t
end

