-- ==== Sys2Proof/Laws/Bytes.lean ====
section
/-! SUPPORT. Byte strings, bus words and the words of a field register. -/

namespace Sys2Proof.Machine

@[simp] theorem i2osp_length (n k : Nat) : (i2osp n k).length = k := by
  induction k generalizing n with
  | zero => rfl
  | succ k ih => simp [i2osp, ih]

@[simp] theorem byte_length (n : Nat) : (byte n).length = 1 := i2osp_length n 1
@[simp] theorem be16_length (n : Nat) : (be16 n).length = 2 := i2osp_length n 2
@[simp] theorem zeros_length (n : Nat) : (zeros n).length = n := by simp [zeros]
@[simp] theorem wordBytes_length (v : Word) : (wordBytes v).length = 4 := rfl

/-- One more byte at the end of a string (R10). -/
theorem os2ip_concat (b : List Byte) (x : Byte) : os2ip (b ++ [x]) = 256 * os2ip b + x.toNat := by
  simp [os2ip]

/-- `OS2IP(b)` is below 256^len(b). -/
theorem os2ip_lt (b : List Byte) : os2ip b < 256 ^ b.length := by
  induction b using List.reverseRecOn with
  | nil => simp [os2ip]
  | append_singleton b x ih =>
    rw [os2ip_concat, List.length_append, List.length_singleton, pow_succ]
    have := x.isLt
    omega

/-- OS2IP undoes I2OSP on n < 256^k (R10). -/
theorem os2ip_i2osp (n k : Nat) (h : n < 256 ^ k) : os2ip (i2osp n k) = n := by
  induction k generalizing n with
  | zero => simp [i2osp, os2ip] at *; omega
  | succ k ih =>
    rw [i2osp, os2ip_concat, ih (n / 256) (by rw [pow_succ] at h; omega)]
    simp only [BitVec.toNat_ofNat]
    omega

/-- The bytes of a word, put together again, are the word (R75). -/
@[simp] theorem bytesWord_wordBytes (v : Word) : bytesWord (wordBytes v) = v := by
  apply BitVec.eq_of_toNat_eq
  have := v.isLt
  simp [bytesWord, wordBytes, os2ip, BitVec.extractLsb'_toNat, Nat.shiftRight_eq_div_pow]
  omega

/-- A word's four bytes, where the word was put together from them (R75). -/
theorem wordBytes_bytesWord (a b c d : Byte) : wordBytes (bytesWord [a, b, c, d]) = [a, b, c, d] := by
  have ha := a.isLt
  have hb := b.isLt
  have hc := c.isLt
  have hd := d.isLt
  simp only [wordBytes, bytesWord, os2ip, List.foldl, List.cons.injEq, and_true]
  refine ⟨?_, ?_, ?_, ?_⟩ <;> apply BitVec.eq_of_toNat_eq <;>
    simp [BitVec.extractLsb'_toNat, Nat.shiftRight_eq_div_pow] <;> omega

/-- Bit i of a field register's value after word j was replaced (R76). -/
theorem feSetWord_getLsbD (x : FieldWord) (j : Fin 8) (v : Word) (i : Nat) :
    (feSetWord x j v).getLsbD i =
      if feWordShift j ≤ i ∧ i < feWordShift j + 32 then v.getLsbD (i - feWordShift j) else x.getLsbD i := by
  have hj : feWordShift j ≤ 224 := by simp [feWordShift]
  by_cases hi : i < 256
  · simp only [feSetWord, BitVec.getLsbD_or, BitVec.getLsbD_and, BitVec.getLsbD_not, BitVec.getLsbD_shiftLeft,
      BitVec.getLsbD_setWidth, BitVec.getLsbD_allOnes, hi, decide_true, Bool.true_and]
    by_cases h1 : feWordShift j ≤ i
    · by_cases h2 : i < feWordShift j + 32
      · have h3 : ¬ i < feWordShift j := by omega
        have h4 : i - feWordShift j < 32 := by omega
        have h5 : i - feWordShift j < 256 := by omega
        simp [h1, h2, h3, h4, h5]
      · have h3 : ¬ i < feWordShift j := by omega
        have h4 : ¬ i - feWordShift j < 32 := by omega
        have h5 : v.getLsbD (i - feWordShift j) = false := BitVec.getLsbD_of_ge _ _ (by omega)
        simp [h2, h4, h5]
    · have h3 : i < feWordShift j := by omega
      simp [h1, h3]
  · rw [BitVec.getLsbD_of_ge _ _ (by omega), if_neg (by omega), BitVec.getLsbD_of_ge _ _ (by omega)]

/-- Reading word j after writing it gives what was written (R76). -/
@[simp] theorem feWord_feSetWord (x : FieldWord) (j : Fin 8) (v : Word) : feWord (feSetWord x j v) j = v := by
  apply BitVec.eq_of_getLsbD_eq
  intro i hi
  simp only [feWord, BitVec.getLsbD_extractLsb', hi, decide_true, Bool.true_and, feSetWord_getLsbD]
  rw [if_pos (by omega), Nat.add_sub_cancel_left]

/-- Writing word j leaves the other words (R76). -/
theorem feWord_feSetWord_of_ne (x : FieldWord) {j k : Fin 8} (h : k ≠ j) (v : Word) :
    feWord (feSetWord x j v) k = feWord x k := by
  apply BitVec.eq_of_getLsbD_eq
  intro i hi
  have hne : k.val ≠ j.val := fun he => h (Fin.ext he)
  simp only [feWord, BitVec.getLsbD_extractLsb', hi, decide_true, Bool.true_and, feSetWord_getLsbD]
  rw [if_neg]
  have := j.isLt
  have := k.isLt
  simp only [feWordShift]
  omega

/-- A field register's value is its eight words. -/
theorem fieldWord_ext {x y : FieldWord} (h : ∀ j, feWord x j = feWord y j) : x = y := by
  apply BitVec.eq_of_getLsbD_eq
  intro i hi
  have hj := congrArg (fun w => w.getLsbD (i % 32)) (h ⟨7 - i / 32, by omega⟩)
  simp only [feWord, feWordShift, BitVec.getLsbD_extractLsb', show i % 32 < 32 by omega, decide_true,
    Bool.true_and] at hj
  have he : 224 - 32 * (7 - i / 32) + i % 32 = i := by omega
  rwa [he] at hj

end Sys2Proof.Machine
end

