-- ==== Sys2Proof/Laws/Field.lean ====
section
/-! SUPPORT. The field primitives: bounds, the power they compute, and their images in `ZMod p`. -/

namespace Sys2Proof.Machine

theorem p_pos : 0 < Config.p := by decide

theorem fadd_lt (a b : Nat) : fadd a b < Config.p := Nat.mod_lt _ p_pos
theorem fsub_lt (a b : Nat) : fsub a b < Config.p := Nat.mod_lt _ p_pos
theorem fneg_lt (a : Nat) : fneg a < Config.p := Nat.mod_lt _ p_pos
theorem fmul_lt (a b : Nat) : fmul a b < Config.p := Nat.mod_lt _ p_pos
theorem fsqr_lt (a : Nat) : fsqr a < Config.p := fmul_lt a a
theorem fcube_lt (a : Nat) : fcube a < Config.p := fmul_lt _ _
theorem reduce48_lt (b : List Byte) : reduce48 b < Config.p := Nat.mod_lt _ p_pos

/-- Squaring and multiplying computes the power, for every exponent that the fuel covers. -/
theorem fpowBits_eq (fuel a k : Nat) (h : k < 2 ^ fuel) : fpowBits fuel a k = a ^ k % Config.p := by
  induction fuel generalizing a k with
  | zero => obtain rfl : k = 0 := by simpa using h
            rfl
  | succ fuel ih =>
    have hk : k / 2 < 2 ^ fuel := by rw [pow_succ] at h; omega
    rw [fpowBits, ih _ _ hk, fmul, fsqr, fmul, Nat.mul_mod_mod]
    have hs := ((Nat.mod_modEq (a * a) Config.p).pow (k / 2)).mul_left (if k % 2 = 1 then a else 1)
    rw [hs, ← sq, ← pow_mul]
    have h2 := Nat.div_add_mod k 2
    split
    · rename_i h1
      rw [← pow_succ', ← h1, h2]
    · rename_i h1
      have h0 : k % 2 = 0 := by omega
      rw [one_mul, show 2 * (k / 2) = k by omega]

/-- `fpow(a, k)` is a^k mod p, for every k (R136). -/
theorem fpow_eq (a k : Nat) : fpow a k = a ^ k % Config.p := fpowBits_eq _ _ _ Nat.lt_log2_self

theorem fpow_lt (a k : Nat) : fpow a k < Config.p := by rw [fpow_eq]; exact Nat.mod_lt _ p_pos
theorem finv_lt (a : Nat) : finv a < Config.p := fpow_lt _ _

/-! ### Images in `ZMod p` -/

@[simp] theorem cast_fadd (a b : Nat) : ((fadd a b : Nat) : ZMod Config.p) = a + b := by simp [fadd]
@[simp] theorem cast_fmul (a b : Nat) : ((fmul a b : Nat) : ZMod Config.p) = a * b := by simp [fmul]
@[simp] theorem cast_fsqr (a : Nat) : ((fsqr a : Nat) : ZMod Config.p) = a ^ 2 := by simp [fsqr, sq]
@[simp] theorem cast_fcube (a : Nat) : ((fcube a : Nat) : ZMod Config.p) = a ^ 3 := by simp [fcube]; ring
@[simp] theorem cast_fpow (a k : Nat) : ((fpow a k : Nat) : ZMod Config.p) = a ^ k := by simp [fpow_eq]

theorem cast_fneg {a : Nat} (h : a ≤ Config.p) : ((fneg a : Nat) : ZMod Config.p) = -a := by
  simp [fneg, Nat.cast_sub h]

theorem cast_fsub {b : Nat} (a : Nat) (h : b ≤ Config.p) : ((fsub a b : Nat) : ZMod Config.p) = a - b := by
  simp [fsub, Nat.cast_sub h, sub_eq_add_neg]

/-- Canonical numbers with one image are equal. -/
theorem eq_of_cast_eq {a b : Nat} (ha : a < Config.p) (hb : b < Config.p)
    (h : (a : ZMod Config.p) = b) : a = b := by
  rw [ZMod.natCast_eq_natCast_iff'] at h
  rwa [Nat.mod_eq_of_lt ha, Nat.mod_eq_of_lt hb] at h

end Sys2Proof.Machine
end

