-- ==== Sys2Proof/Laws/Expander.lean ====
section
/-! SUPPORT. Lengths in the hash, the expander and the hash-to-field reducer. -/

namespace Sys2Proof.Machine

@[simp] theorem sha256_length (m : List Byte) : (sha256 m).length = 32 := by simp [sha256, HashState.digest]

/-- One more block, after those before it (R175). -/
theorem shaBlocks_succ (n : Nat) (b : List Byte) (s : HashState) :
    shaBlocks (n + 1) b s =
      shaBlock (shaBlocks n b s) ((b.drop (Config.hashBlock * n)).take Config.hashBlock) := by
  simp only [shaBlocks, List.range_succ, List.foldl_append, List.foldl_cons, List.foldl_nil]

/-- The padded string fills whole blocks (R171). -/
theorem shaPad_length_mod (m : List Byte) : (shaPad m).length % 64 = 0 := by
  simp only [shaPad, List.length_append, List.length_cons, List.length_nil, zeros_length, i2osp_length]
  omega

theorem xmdLoop_length (b0 dst : List Byte) (k i : Nat) (prev : List Byte) :
    (xmdLoop b0 dst k i prev).length = k := by
  induction k generalizing i prev with
  | zero => rfl
  | succ k ih => simp [xmdLoop, ih]

theorem xmdLoop_block_length {b0 dst : List Byte} {k i : Nat} {prev b : List Byte}
    (h : b ∈ xmdLoop b0 dst k i prev) : b.length = 32 := by
  induction k generalizing i prev with
  | zero => simp [xmdLoop] at h
  | succ k ih =>
    rcases List.mem_cons.mp h with rfl | h
    · simp [xmdBlock]
    · exact ih h

/-- Every block b_i has 32 bytes (R161). -/
theorem xmdBlocks_block_length {msg dst : List Byte} {n : Nat} {b : List Byte} (h : b ∈ xmdBlocks msg dst n) :
    b.length = 32 := by
  rcases List.mem_cons.mp h with rfl | h
  · simp [xmdB1]
  · exact xmdLoop_block_length h

/-- The number of blocks: b1, and the loop's. -/
theorem xmdBlocks_length_eq (msg dst : List Byte) (n : Nat) : (xmdBlocks msg dst n).length = xmdEll n - 1 + 1 := by
  simp [xmdBlocks, xmdLoop_length]

/-- The bytes of blocks of 32 bytes each. -/
theorem flatten_length_of_blocks {l : List (List Byte)} (h : ∀ b ∈ l, b.length = 32) :
    l.flatten.length = 32 * l.length := by
  induction l with
  | nil => rfl
  | cons b l ih =>
    rw [List.flatten_cons, List.length_append, h b (by simp), ih fun c hc => h c (by simp [hc]), List.length_cons]
    ring

/-- `expand` returns exactly n bytes (R161). -/
@[simp] theorem expand_length (msg dst : List Byte) (n : Nat) : (expand msg dst n).length = n := by
  have h := flatten_length_of_blocks fun _ hb => xmdBlocks_block_length (msg := msg) (dst := dst) (n := n) hb
  rw [expand, List.length_take, h, xmdBlocks_length_eq, xmdEll]
  simp only [Config.hashDigest]
  omega

@[simp] theorem hashToField_length (msg dst : List Byte) (count : Nat) :
    (hashToField msg dst count).length = count := by
  simp [hashToField]

/-- Every element is canonical (R141, R191). -/
theorem hashToField_lt {msg dst : List Byte} {count e : Nat} (h : e ∈ hashToField msg dst count) : e < Config.p := by
  simp only [hashToField, List.mem_map] at h
  obtain ⟨i, -, rfl⟩ := h
  exact reduce48_lt _

end Sys2Proof.Machine
end

