-- ==== Sys2Proof/Laws/Memory.lean ====
section
/-! SUPPORT. The buffers' memory: what a read gives after a write, and that a write keeps the canonical form. -/

namespace Sys2Proof.Machine

/-- Looking a key up among the cells whose key satisfies p. -/
theorem lookup_filter_key (m : Memory) (p : Nat → Bool) (x : Nat) :
    List.lookup x (m.filter fun c => p c.1) = if p x then List.lookup x m else none := by
  induction m with
  | nil => simp
  | cons c m ih =>
    obtain ⟨k, b⟩ := c
    by_cases hk : p k <;> by_cases hx : x = k
    · subst hx; simp [List.filter, hk]
    · have : (x == k) = false := by simpa using hx
      simp [List.filter, hk, List.lookup, this, ih]
    · subst hx; simp [List.filter, hk, ih]
    · have : (x == k) = false := by simpa using hx
      simp [List.filter, hk, List.lookup, this, ih]

/-- A byte string's cells list exactly its bytes that are not `Memory.unlisted`. -/
theorem lookup_cells (b : List Byte) (a x : Nat) :
    List.lookup x (Memory.cells a b) =
      if a ≤ x ∧ x < a + b.length ∧ b.getD (x - a) 0 ≠ Memory.unlisted then some (b.getD (x - a) 0) else none := by
  induction b generalizing a with
  | nil => simp [Memory.cells]; omega
  | cons y b ih =>
    by_cases hax : x = a
    · subst hax
      by_cases hy : y = Memory.unlisted
      · simp [Memory.cells, hy, ih]
      · simp [Memory.cells, hy]
    · have hne : (x == a) = false := by simpa using hax
      have hcells : List.lookup x (Memory.cells a (y :: b)) = List.lookup x (Memory.cells (a + 1) b) := by
        by_cases hy : y = Memory.unlisted
        · simp [Memory.cells, hy]
        · simp [Memory.cells, hy, List.lookup, hne]
      rw [hcells, ih]
      by_cases hlt : a < x
      · obtain ⟨d, rfl⟩ : ∃ d, x = a + 1 + d := ⟨x - (a + 1), by omega⟩
        have h1 : a + 1 + d - a = d + 1 := by omega
        have h2 : a + 1 + d - (a + 1) = d := by omega
        simp only [h1, h2, List.length_cons, List.getD_cons_succ]
        congr 1
        simp only [eq_iff_iff]
        constructor <;> rintro ⟨_, _, h⟩ <;> exact ⟨by omega, by omega, h⟩
      · rw [if_neg (by omega), if_neg (by omega)]

/-- Reading after a write: the stored byte inside the written range, and the old byte outside it. -/
theorem Memory.read_writeBytes (m : Memory) (a : Nat) (b : List Byte) (x : Nat) :
    (m.writeBytes a b).read x = if a ≤ x ∧ x < a + b.length then b.getD (x - a) 0 else m.read x := by
  simp only [Memory.read, Memory.writeBytes, List.lookup_append]
  rw [lookup_filter_key m (fun k => decide (k < a)), lookup_filter_key m (fun k => decide (a + b.length ≤ k)),
    lookup_cells]
  by_cases h1 : x < a
  · have h2 : ¬ a ≤ x := by omega
    have h3 : ¬ a + b.length ≤ x := by omega
    simp [h1, h2, h3]
  · by_cases h2 : x < a + b.length
    · have h3 : a ≤ x := by omega
      have h4 : ¬ a + b.length ≤ x := by omega
      by_cases h5 : b.getD (x - a) 0 = Memory.unlisted
      · simp only [h1, h2, h3, h4, h5]; simp
      · simp only [h1, h2, h3, h4]
        simp only [decide_false, Bool.false_eq_true, if_false, Option.none_or, Option.or_none, ne_eq, h5,
          not_false_eq_true, if_true, and_self, Option.getD_some]
    · have h3 : a ≤ x := by omega
      have h4 : a + b.length ≤ x := by omega
      simp [h1, h2, h3, h4]

/-- A byte outside the written range reads as before. -/
theorem Memory.read_writeBytes_outside (m : Memory) (a : Nat) (b : List Byte) (x : Nat)
    (h : x < a ∨ a + b.length ≤ x) : (m.writeBytes a b).read x = m.read x := by
  rw [Memory.read_writeBytes, if_neg (by omega)]

/-- Reading a range back right after it was written gives what was stored. -/
theorem Memory.readBytes_writeBytes (m : Memory) (a : Nat) (b : List Byte) :
    (m.writeBytes a b).readBytes a b.length = b := by
  apply List.ext_getElem
  · simp [Memory.readBytes]
  · intro i h1 h2
    simp only [Memory.readBytes, List.getElem_map, List.getElem_range]
    rw [Memory.read_writeBytes, if_pos (by omega)]
    simp [List.getD_eq_getElem?_getD, h2]

/-- A read range has the length asked for. -/
@[simp] theorem Memory.readBytes_length (m : Memory) (a n : Nat) : (m.readBytes a n).length = n := by
  simp [Memory.readBytes]

/-- A read range depends only on the bytes in it. -/
theorem Memory.readBytes_congr {m m' : Memory} {a n : Nat} (h : ∀ i < n, m.read (a + i) = m'.read (a + i)) :
    m.readBytes a n = m'.readBytes a n := by
  simp only [Memory.readBytes]
  exact List.map_congr_left fun i hi => h i (List.mem_range.mp hi)

/-! ### The canonical form -/

/-- The canonical form, said of all cells and of all pairs of cells. -/
theorem Memory.wf_iff (m : Memory) :
    m.wf = true ↔ (∀ c ∈ m, c.2 ≠ Memory.unlisted) ∧ m.Pairwise (fun c d => c.1 < d.1) := by
  induction m with
  | nil => simp [Memory.wf]
  | cons c m ih =>
    cases m with
    | nil => simp [Memory.wf]
    | cons d m =>
      simp only [Memory.wf, Bool.and_eq_true, decide_eq_true_eq, ih, List.mem_cons, forall_eq_or_imp,
        List.pairwise_cons]
      constructor
      · rintro ⟨⟨hc, hcd⟩, ⟨hd, hm⟩, hdm, hp⟩
        exact ⟨⟨hc, hd, hm⟩, ⟨hcd, fun e he => hcd.trans (hdm e he)⟩, hdm, hp⟩
      · rintro ⟨⟨hc, hd, hm⟩, ⟨hcd, -⟩, hdm, hp⟩
        exact ⟨⟨hc, hcd⟩, ⟨hd, hm⟩, hdm, hp⟩

/-- The cells of a byte string stand at its offsets and hold no `Memory.unlisted`. -/
theorem mem_cells {b : List Byte} {a : Nat} {c : Host.Cell} (h : c ∈ Memory.cells a b) :
    a ≤ c.1 ∧ c.1 < a + b.length ∧ c.2 ≠ Memory.unlisted := by
  induction b generalizing a with
  | nil => simp [Memory.cells] at h
  | cons y b ih =>
    simp only [Memory.cells] at h
    split at h
    · have := ih h; simp only [List.length_cons]; exact ⟨by omega, by omega, this.2.2⟩
    · rcases List.mem_cons.mp h with rfl | h
      · exact ⟨le_rfl, by simp, by assumption⟩
      · have := ih h; simp only [List.length_cons]; exact ⟨by omega, by omega, this.2.2⟩

/-- The cells of a byte string stand in rising order. -/
theorem cells_pairwise (b : List Byte) (a : Nat) : (Memory.cells a b).Pairwise (fun c d => c.1 < d.1) := by
  induction b generalizing a with
  | nil => simp [Memory.cells]
  | cons y b ih =>
    simp only [Memory.cells]
    split
    · exact ih _
    · exact List.pairwise_cons.mpr ⟨fun c hc => (mem_cells hc).1, ih _⟩

/-- A cell after a write is an old one or stands in the written range. -/
theorem Memory.mem_writeBytes {m : Memory} {a : Nat} {b : List Byte} {c : Host.Cell} (h : c ∈ m.writeBytes a b) :
    c ∈ m ∨ (a ≤ c.1 ∧ c.1 < a + b.length) := by
  simp only [Memory.writeBytes, List.mem_append, List.mem_filter] at h
  rcases h with (h | h) | h
  · exact .inl h.1
  · exact .inr ⟨(mem_cells h).1, (mem_cells h).2.1⟩
  · exact .inl h.1

/-- Every write keeps the canonical form. -/
theorem Memory.writeBytes_wf {m : Memory} (h : m.wf = true) (a : Nat) (b : List Byte) :
    (m.writeBytes a b).wf = true := by
  rw [Memory.wf_iff] at h ⊢
  obtain ⟨hne, hp⟩ := h
  constructor
  · intro c hc
    simp only [Memory.writeBytes, List.mem_append, List.mem_filter] at hc
    rcases hc with (hc | hc) | hc
    · exact hne c hc.1
    · exact (mem_cells hc).2.2
    · exact hne c hc.1
  · simp only [Memory.writeBytes, List.pairwise_append, List.mem_append, List.mem_filter, decide_eq_true_eq]
    refine ⟨⟨hp.filter _, cells_pairwise b a, fun c hc d hd => ?_⟩, hp.filter _, fun c hc d hd => ?_⟩
    · exact hc.2.trans_le (mem_cells hd).1
    · rcases hc with hc | hc
      · omega
      · have := (mem_cells hc).2.1; omega

/-- Reset memory has the canonical form. -/
theorem reset_mem_wf : State.reset.mem.wf = true := rfl

/-- A cell of a canonical memory is what its offset reads as. -/
theorem Memory.read_of_mem {m : Memory} (h : m.Pairwise (fun c d => c.1 < d.1)) {c : Host.Cell} (hc : c ∈ m) :
    List.lookup c.1 m = some c.2 := by
  induction m with
  | nil => simp at hc
  | cons d m ih =>
    rw [List.pairwise_cons] at h
    rcases List.mem_cons.mp hc with rfl | hc'
    · obtain ⟨k, v⟩ := c; simp
    · have hlt := h.1 c hc'
      have : (c.1 == d.1) = false := by simpa using (by omega : c.1 ≠ d.1)
      obtain ⟨k, v⟩ := d
      simp only [List.lookup, this]
      exact ih h.2 hc'

/-- A key that is looked up with success is a cell. -/
theorem mem_of_lookup {m : Memory} {x : Nat} {v : Byte} (h : List.lookup x m = some v) : (x, v) ∈ m := by
  induction m with
  | nil => simp at h
  | cons d m ih =>
    obtain ⟨k, w⟩ := d
    by_cases hx : x = k
    · subst hx; simp at h; simp [h]
    · have : (x == k) = false := by simpa using hx
      simp only [List.lookup, this] at h
      exact List.mem_cons_of_mem _ (ih h)

/-- Equal memories are equal data: canonical memories that read alike everywhere are the same list. -/
theorem Memory.ext_of_wf {m m' : Memory} (h : m.wf = true) (h' : m'.wf = true) (hr : ∀ x, m.read x = m'.read x) :
    m = m' := by
  rw [Memory.wf_iff] at h h'
  have sub : ∀ {n n' : Memory}, ((∀ c ∈ n, c.2 ≠ Memory.unlisted) ∧ n.Pairwise (fun c d => c.1 < d.1)) →
      (∀ x, n.read x = n'.read x) → ∀ c ∈ n, c ∈ n' := by
    intro n n' hn hrr c hc
    have h1 := Memory.read_of_mem hn.2 hc
    have h2 := hrr c.1
    simp only [Memory.read, h1, Option.getD_some] at h2
    cases h3 : List.lookup c.1 n' with
    | none => rw [h3] at h2; exact absurd h2 (hn.1 c hc)
    | some v => rw [h3] at h2; simp only [Option.getD_some] at h2; subst h2; exact mem_of_lookup h3
  have hnd : ∀ {n : Memory}, n.Pairwise (fun c d => c.1 < d.1) → n.Nodup := fun hp =>
    hp.imp fun {c d} hcd he => by subst he; exact lt_irrefl _ hcd
  have hperm : m.Perm m' := (List.perm_ext_iff_of_nodup (hnd h.2) (hnd h'.2)).mpr fun c =>
    ⟨sub h hr c, sub h' (fun x => (hr x).symm) c⟩
  exact hperm.eq_of_pairwise (fun c d _ _ h1 h2 => absurd h1 (by omega)) h.2 h'.2

end Sys2Proof.Machine
end

