-- ==== Sys2Proof/Laws/State.lean ====
section
/-! SUPPORT. The small lemmas of the state: one per field and update, so that no later proof unfolds a record update. -/

namespace Sys2Proof.Machine

/-! ### `setFe` -/

@[simp] theorem State.setFe_fe (s : State) (r : FieldReg) (v : Nat) : (s.setFe r v).fe = s.fe.set r.val (BitVec.ofNat 256 v) := rfl
@[simp] theorem State.setFe_mem (s : State) (r : FieldReg) (v : Nat) : (s.setFe r v).mem = s.mem := rfl
@[simp] theorem State.setFe_msgLen (s : State) (r : FieldReg) (v : Nat) : (s.setFe r v).msgLen = s.msgLen := rfl
@[simp] theorem State.setFe_dstLen (s : State) (r : FieldReg) (v : Nat) : (s.setFe r v).dstLen = s.dstLen := rfl
@[simp] theorem State.setFe_ie (s : State) (r : FieldReg) (v : Nat) : (s.setFe r v).ie = s.ie := rfl
@[simp] theorem State.setFe_done (s : State) (r : FieldReg) (v : Nat) : (s.setFe r v).done = s.done := rfl
@[simp] theorem State.setFe_qr (s : State) (r : FieldReg) (v : Nat) : (s.setFe r v).qr = s.qr := rfl
@[simp] theorem State.setFe_drop (s : State) (r : FieldReg) (v : Nat) : (s.setFe r v).drop = s.drop := rfl
@[simp] theorem State.setFe_cmd (s : State) (r : FieldReg) (v : Nat) : (s.setFe r v).cmd = s.cmd := rfl
@[simp] theorem State.setFe_errCode (s : State) (r : FieldReg) (v : Nat) : (s.setFe r v).errCode = s.errCode := rfl
@[simp] theorem State.setFe_errArg (s : State) (r : FieldReg) (v : Nat) : (s.setFe r v).errArg = s.errArg := rfl
@[simp] theorem State.setFe_execState (s : State) (r : FieldReg) (v : Nat) : (s.setFe r v).execState = s.execState := rfl
@[simp] theorem State.setFe_bus (s : State) (r : FieldReg) (v : Nat) : (s.setFe r v).bus = s.bus := rfl
@[simp] theorem State.setFe_responses (s : State) (r : FieldReg) (v : Nat) : (s.setFe r v).responses = s.responses := rfl

/-! ### `setFeFrom` -/

@[simp] theorem State.setFeFrom_mem (s : State) (rd : FieldReg) (es : List Nat) : (s.setFeFrom rd es).mem = s.mem := rfl
@[simp] theorem State.setFeFrom_msgLen (s : State) (rd : FieldReg) (es : List Nat) : (s.setFeFrom rd es).msgLen = s.msgLen := rfl
@[simp] theorem State.setFeFrom_dstLen (s : State) (rd : FieldReg) (es : List Nat) : (s.setFeFrom rd es).dstLen = s.dstLen := rfl
@[simp] theorem State.setFeFrom_ie (s : State) (rd : FieldReg) (es : List Nat) : (s.setFeFrom rd es).ie = s.ie := rfl
@[simp] theorem State.setFeFrom_done (s : State) (rd : FieldReg) (es : List Nat) : (s.setFeFrom rd es).done = s.done := rfl
@[simp] theorem State.setFeFrom_qr (s : State) (rd : FieldReg) (es : List Nat) : (s.setFeFrom rd es).qr = s.qr := rfl
@[simp] theorem State.setFeFrom_drop (s : State) (rd : FieldReg) (es : List Nat) : (s.setFeFrom rd es).drop = s.drop := rfl
@[simp] theorem State.setFeFrom_cmd (s : State) (rd : FieldReg) (es : List Nat) : (s.setFeFrom rd es).cmd = s.cmd := rfl
@[simp] theorem State.setFeFrom_errCode (s : State) (rd : FieldReg) (es : List Nat) : (s.setFeFrom rd es).errCode = s.errCode := rfl
@[simp] theorem State.setFeFrom_errArg (s : State) (rd : FieldReg) (es : List Nat) : (s.setFeFrom rd es).errArg = s.errArg := rfl
@[simp] theorem State.setFeFrom_execState (s : State) (rd : FieldReg) (es : List Nat) : (s.setFeFrom rd es).execState = s.execState := rfl
@[simp] theorem State.setFeFrom_bus (s : State) (rd : FieldReg) (es : List Nat) : (s.setFeFrom rd es).bus = s.bus := rfl
@[simp] theorem State.setFeFrom_responses (s : State) (rd : FieldReg) (es : List Nat) : (s.setFeFrom rd es).responses = s.responses := rfl

/-! ### `writeXout` -/

@[simp] theorem State.writeXout_fe (s : State) (b : List Byte) : (s.writeXout b).fe = s.fe := rfl
@[simp] theorem State.writeXout_mem (s : State) (b : List Byte) : (s.writeXout b).mem = s.mem.writeBytes Config.xoutBase b := rfl
@[simp] theorem State.writeXout_msgLen (s : State) (b : List Byte) : (s.writeXout b).msgLen = s.msgLen := rfl
@[simp] theorem State.writeXout_dstLen (s : State) (b : List Byte) : (s.writeXout b).dstLen = s.dstLen := rfl
@[simp] theorem State.writeXout_ie (s : State) (b : List Byte) : (s.writeXout b).ie = s.ie := rfl
@[simp] theorem State.writeXout_done (s : State) (b : List Byte) : (s.writeXout b).done = s.done := rfl
@[simp] theorem State.writeXout_qr (s : State) (b : List Byte) : (s.writeXout b).qr = s.qr := rfl
@[simp] theorem State.writeXout_drop (s : State) (b : List Byte) : (s.writeXout b).drop = s.drop := rfl
@[simp] theorem State.writeXout_cmd (s : State) (b : List Byte) : (s.writeXout b).cmd = s.cmd := rfl
@[simp] theorem State.writeXout_errCode (s : State) (b : List Byte) : (s.writeXout b).errCode = s.errCode := rfl
@[simp] theorem State.writeXout_errArg (s : State) (b : List Byte) : (s.writeXout b).errArg = s.errArg := rfl
@[simp] theorem State.writeXout_execState (s : State) (b : List Byte) : (s.writeXout b).execState = s.execState := rfl
@[simp] theorem State.writeXout_bus (s : State) (b : List Byte) : (s.writeXout b).bus = s.bus := rfl
@[simp] theorem State.writeXout_responses (s : State) (b : List Byte) : (s.writeXout b).responses = s.responses := rfl

/-! ### `resetEngine` -/

@[simp] theorem State.resetEngine_fe (s : State) : s.resetEngine.fe = State.reset.fe := rfl
@[simp] theorem State.resetEngine_mem (s : State) : s.resetEngine.mem = State.reset.mem := rfl
@[simp] theorem State.resetEngine_msgLen (s : State) : s.resetEngine.msgLen = State.reset.msgLen := rfl
@[simp] theorem State.resetEngine_dstLen (s : State) : s.resetEngine.dstLen = State.reset.dstLen := rfl
@[simp] theorem State.resetEngine_ie (s : State) : s.resetEngine.ie = State.reset.ie := rfl
@[simp] theorem State.resetEngine_done (s : State) : s.resetEngine.done = State.reset.done := rfl
@[simp] theorem State.resetEngine_qr (s : State) : s.resetEngine.qr = State.reset.qr := rfl
@[simp] theorem State.resetEngine_drop (s : State) : s.resetEngine.drop = State.reset.drop := rfl
@[simp] theorem State.resetEngine_cmd (s : State) : s.resetEngine.cmd = State.reset.cmd := rfl
@[simp] theorem State.resetEngine_errCode (s : State) : s.resetEngine.errCode = State.reset.errCode := rfl
@[simp] theorem State.resetEngine_errArg (s : State) : s.resetEngine.errArg = State.reset.errArg := rfl
@[simp] theorem State.resetEngine_execState (s : State) : s.resetEngine.execState = State.reset.execState := rfl
@[simp] theorem State.resetEngine_bus (s : State) : s.resetEngine.bus = s.bus := rfl
@[simp] theorem State.resetEngine_responses (s : State) : s.resetEngine.responses = s.responses := rfl

/-! ### `accept` -/

@[simp] theorem State.accept_fe (s : State) (w : Word) : (s.accept w).fe = s.fe := rfl
@[simp] theorem State.accept_mem (s : State) (w : Word) : (s.accept w).mem = s.mem := rfl
@[simp] theorem State.accept_msgLen (s : State) (w : Word) : (s.accept w).msgLen = s.msgLen := rfl
@[simp] theorem State.accept_dstLen (s : State) (w : Word) : (s.accept w).dstLen = s.dstLen := rfl
@[simp] theorem State.accept_ie (s : State) (w : Word) : (s.accept w).ie = s.ie := rfl
@[simp] theorem State.accept_done (s : State) (w : Word) : (s.accept w).done = false := rfl
@[simp] theorem State.accept_qr (s : State) (w : Word) : (s.accept w).qr = s.qr := rfl
@[simp] theorem State.accept_drop (s : State) (w : Word) : (s.accept w).drop = s.drop := rfl
@[simp] theorem State.accept_cmd (s : State) (w : Word) : (s.accept w).cmd = w := rfl
@[simp] theorem State.accept_errCode (s : State) (w : Word) : (s.accept w).errCode = s.errCode := rfl
@[simp] theorem State.accept_errArg (s : State) (w : Word) : (s.accept w).errArg = s.errArg := rfl
@[simp] theorem State.accept_execState (s : State) (w : Word) : (s.accept w).execState = .busy w := rfl
@[simp] theorem State.accept_bus (s : State) (w : Word) : (s.accept w).bus = s.bus := rfl
@[simp] theorem State.accept_responses (s : State) (w : Word) : (s.accept w).responses = s.responses := rfl

/-! ### `dropWrite` -/

@[simp] theorem State.dropWrite_fe (s : State) : s.dropWrite.fe = s.fe := rfl
@[simp] theorem State.dropWrite_mem (s : State) : s.dropWrite.mem = s.mem := rfl
@[simp] theorem State.dropWrite_msgLen (s : State) : s.dropWrite.msgLen = s.msgLen := rfl
@[simp] theorem State.dropWrite_dstLen (s : State) : s.dropWrite.dstLen = s.dstLen := rfl
@[simp] theorem State.dropWrite_ie (s : State) : s.dropWrite.ie = s.ie := rfl
@[simp] theorem State.dropWrite_done (s : State) : s.dropWrite.done = s.done := rfl
@[simp] theorem State.dropWrite_qr (s : State) : s.dropWrite.qr = s.qr := rfl
@[simp] theorem State.dropWrite_drop (s : State) : s.dropWrite.drop = true := rfl
@[simp] theorem State.dropWrite_cmd (s : State) : s.dropWrite.cmd = s.cmd := rfl
@[simp] theorem State.dropWrite_errCode (s : State) : s.dropWrite.errCode = s.errCode := rfl
@[simp] theorem State.dropWrite_errArg (s : State) : s.dropWrite.errArg = s.errArg := rfl
@[simp] theorem State.dropWrite_execState (s : State) : s.dropWrite.execState = s.execState := rfl
@[simp] theorem State.dropWrite_bus (s : State) : s.dropWrite.bus = s.bus := rfl
@[simp] theorem State.dropWrite_responses (s : State) : s.dropWrite.responses = s.responses := rfl

/-! ### `finish_error` -/

@[simp] theorem State.finish_error_fe (s : State) (e : CmdError) : (s.finish (.error e)).fe = s.fe := rfl
@[simp] theorem State.finish_error_mem (s : State) (e : CmdError) : (s.finish (.error e)).mem = s.mem := rfl
@[simp] theorem State.finish_error_msgLen (s : State) (e : CmdError) : (s.finish (.error e)).msgLen = s.msgLen := rfl
@[simp] theorem State.finish_error_dstLen (s : State) (e : CmdError) : (s.finish (.error e)).dstLen = s.dstLen := rfl
@[simp] theorem State.finish_error_ie (s : State) (e : CmdError) : (s.finish (.error e)).ie = s.ie := rfl
@[simp] theorem State.finish_error_done (s : State) (e : CmdError) : (s.finish (.error e)).done = true := rfl
@[simp] theorem State.finish_error_qr (s : State) (e : CmdError) : (s.finish (.error e)).qr = s.qr := rfl
@[simp] theorem State.finish_error_drop (s : State) (e : CmdError) : (s.finish (.error e)).drop = s.drop := rfl
@[simp] theorem State.finish_error_cmd (s : State) (e : CmdError) : (s.finish (.error e)).cmd = s.cmd := rfl
@[simp] theorem State.finish_error_errCode (s : State) (e : CmdError) : (s.finish (.error e)).errCode = errorCode e := rfl
@[simp] theorem State.finish_error_errArg (s : State) (e : CmdError) : (s.finish (.error e)).errArg = errorArg e := rfl
@[simp] theorem State.finish_error_execState (s : State) (e : CmdError) : (s.finish (.error e)).execState = .idle := rfl
@[simp] theorem State.finish_error_bus (s : State) (e : CmdError) : (s.finish (.error e)).bus = s.bus := rfl
@[simp] theorem State.finish_error_responses (s : State) (e : CmdError) : (s.finish (.error e)).responses = s.responses := rfl

/-! ### `finish_ok` -/

@[simp] theorem State.finish_ok_fe (s t : State) : (s.finish (.ok t)).fe = t.fe := rfl
@[simp] theorem State.finish_ok_mem (s t : State) : (s.finish (.ok t)).mem = t.mem := rfl
@[simp] theorem State.finish_ok_msgLen (s t : State) : (s.finish (.ok t)).msgLen = t.msgLen := rfl
@[simp] theorem State.finish_ok_dstLen (s t : State) : (s.finish (.ok t)).dstLen = t.dstLen := rfl
@[simp] theorem State.finish_ok_ie (s t : State) : (s.finish (.ok t)).ie = t.ie := rfl
@[simp] theorem State.finish_ok_done (s t : State) : (s.finish (.ok t)).done = true := rfl
@[simp] theorem State.finish_ok_qr (s t : State) : (s.finish (.ok t)).qr = t.qr := rfl
@[simp] theorem State.finish_ok_drop (s t : State) : (s.finish (.ok t)).drop = t.drop := rfl
@[simp] theorem State.finish_ok_cmd (s t : State) : (s.finish (.ok t)).cmd = t.cmd := rfl
@[simp] theorem State.finish_ok_errCode (s t : State) : (s.finish (.ok t)).errCode = 0 := rfl
@[simp] theorem State.finish_ok_errArg (s t : State) : (s.finish (.ok t)).errArg = 0 := rfl
@[simp] theorem State.finish_ok_execState (s t : State) : (s.finish (.ok t)).execState = .idle := rfl
@[simp] theorem State.finish_ok_bus (s t : State) : (s.finish (.ok t)).bus = t.bus := rfl
@[simp] theorem State.finish_ok_responses (s t : State) : (s.finish (.ok t)).responses = t.responses := rfl

/-! ### `setQr` -/

@[simp] theorem State.setQr_fe (s : State) (q : Bool) : (s.setQr q).fe = s.fe := rfl
@[simp] theorem State.setQr_mem (s : State) (q : Bool) : (s.setQr q).mem = s.mem := rfl
@[simp] theorem State.setQr_msgLen (s : State) (q : Bool) : (s.setQr q).msgLen = s.msgLen := rfl
@[simp] theorem State.setQr_dstLen (s : State) (q : Bool) : (s.setQr q).dstLen = s.dstLen := rfl
@[simp] theorem State.setQr_ie (s : State) (q : Bool) : (s.setQr q).ie = s.ie := rfl
@[simp] theorem State.setQr_done (s : State) (q : Bool) : (s.setQr q).done = s.done := rfl
@[simp] theorem State.setQr_qr (s : State) (q : Bool) : (s.setQr q).qr = q := rfl
@[simp] theorem State.setQr_drop (s : State) (q : Bool) : (s.setQr q).drop = s.drop := rfl
@[simp] theorem State.setQr_cmd (s : State) (q : Bool) : (s.setQr q).cmd = s.cmd := rfl
@[simp] theorem State.setQr_errCode (s : State) (q : Bool) : (s.setQr q).errCode = s.errCode := rfl
@[simp] theorem State.setQr_errArg (s : State) (q : Bool) : (s.setQr q).errArg = s.errArg := rfl
@[simp] theorem State.setQr_execState (s : State) (q : Bool) : (s.setQr q).execState = s.execState := rfl
@[simp] theorem State.setQr_bus (s : State) (q : Bool) : (s.setQr q).bus = s.bus := rfl
@[simp] theorem State.setQr_responses (s : State) (q : Bool) : (s.setQr q).responses = s.responses := rfl

/-! ### `writeStatus` -/

@[simp] theorem State.writeStatus_fe (s : State) (v : Word) : (s.writeStatus v).fe = s.fe := rfl
@[simp] theorem State.writeStatus_mem (s : State) (v : Word) : (s.writeStatus v).mem = s.mem := rfl
@[simp] theorem State.writeStatus_msgLen (s : State) (v : Word) : (s.writeStatus v).msgLen = s.msgLen := rfl
@[simp] theorem State.writeStatus_dstLen (s : State) (v : Word) : (s.writeStatus v).dstLen = s.dstLen := rfl
@[simp] theorem State.writeStatus_ie (s : State) (v : Word) : (s.writeStatus v).ie = s.ie := rfl
@[simp] theorem State.writeStatus_done (s : State) (v : Word) : (s.writeStatus v).done = (s.done && !v.getLsbD 1) := rfl
@[simp] theorem State.writeStatus_qr (s : State) (v : Word) : (s.writeStatus v).qr = s.qr := rfl
@[simp] theorem State.writeStatus_drop (s : State) (v : Word) : (s.writeStatus v).drop = (s.drop && !v.getLsbD 4) := rfl
@[simp] theorem State.writeStatus_cmd (s : State) (v : Word) : (s.writeStatus v).cmd = s.cmd := rfl
@[simp] theorem State.writeStatus_errCode (s : State) (v : Word) : (s.writeStatus v).errCode = s.errCode := rfl
@[simp] theorem State.writeStatus_errArg (s : State) (v : Word) : (s.writeStatus v).errArg = s.errArg := rfl
@[simp] theorem State.writeStatus_execState (s : State) (v : Word) : (s.writeStatus v).execState = s.execState := rfl
@[simp] theorem State.writeStatus_bus (s : State) (v : Word) : (s.writeStatus v).bus = s.bus := rfl
@[simp] theorem State.writeStatus_responses (s : State) (v : Word) : (s.writeStatus v).responses = s.responses := rfl

/-! ### `respond` -/

@[simp] theorem State.respond_fe (s : State) (r : BusResponse) : (s.respond r).fe = s.fe := rfl
@[simp] theorem State.respond_mem (s : State) (r : BusResponse) : (s.respond r).mem = s.mem := rfl
@[simp] theorem State.respond_msgLen (s : State) (r : BusResponse) : (s.respond r).msgLen = s.msgLen := rfl
@[simp] theorem State.respond_dstLen (s : State) (r : BusResponse) : (s.respond r).dstLen = s.dstLen := rfl
@[simp] theorem State.respond_ie (s : State) (r : BusResponse) : (s.respond r).ie = s.ie := rfl
@[simp] theorem State.respond_done (s : State) (r : BusResponse) : (s.respond r).done = s.done := rfl
@[simp] theorem State.respond_qr (s : State) (r : BusResponse) : (s.respond r).qr = s.qr := rfl
@[simp] theorem State.respond_drop (s : State) (r : BusResponse) : (s.respond r).drop = s.drop := rfl
@[simp] theorem State.respond_cmd (s : State) (r : BusResponse) : (s.respond r).cmd = s.cmd := rfl
@[simp] theorem State.respond_errCode (s : State) (r : BusResponse) : (s.respond r).errCode = s.errCode := rfl
@[simp] theorem State.respond_errArg (s : State) (r : BusResponse) : (s.respond r).errArg = s.errArg := rfl
@[simp] theorem State.respond_execState (s : State) (r : BusResponse) : (s.respond r).execState = s.execState := rfl
@[simp] theorem State.respond_bus (s : State) (r : BusResponse) : (s.respond r).bus = s.bus := rfl
@[simp] theorem State.respond_responses (s : State) (r : BusResponse) : (s.respond r).responses = r :: s.responses := rfl

/-! ### `withCommand` -/

@[simp] theorem State.withCommand_fe (s : State) (w : Word) : (s.withCommand w).fe = s.fe := rfl
@[simp] theorem State.withCommand_mem (s : State) (w : Word) : (s.withCommand w).mem = s.mem := rfl
@[simp] theorem State.withCommand_msgLen (s : State) (w : Word) : (s.withCommand w).msgLen = s.msgLen := rfl
@[simp] theorem State.withCommand_dstLen (s : State) (w : Word) : (s.withCommand w).dstLen = s.dstLen := rfl
@[simp] theorem State.withCommand_ie (s : State) (w : Word) : (s.withCommand w).ie = s.ie := rfl
@[simp] theorem State.withCommand_done (s : State) (w : Word) : (s.withCommand w).done = false := rfl
@[simp] theorem State.withCommand_qr (s : State) (w : Word) : (s.withCommand w).qr = s.qr := rfl
@[simp] theorem State.withCommand_drop (s : State) (w : Word) : (s.withCommand w).drop = s.drop := rfl
@[simp] theorem State.withCommand_cmd (s : State) (w : Word) : (s.withCommand w).cmd = w := rfl
@[simp] theorem State.withCommand_errCode (s : State) (w : Word) : (s.withCommand w).errCode = s.errCode := rfl
@[simp] theorem State.withCommand_errArg (s : State) (w : Word) : (s.withCommand w).errArg = s.errArg := rfl
@[simp] theorem State.withCommand_execState (s : State) (w : Word) : (s.withCommand w).execState = .busy w := rfl
@[simp] theorem State.withCommand_bus (s : State) (w : Word) : (s.withCommand w).bus = .engineTurn :: s.bus := rfl
@[simp] theorem State.withCommand_responses (s : State) (w : Word) : (s.withCommand w).responses = s.responses := rfl

end Sys2Proof.Machine
end

