-- ==== Sys2Proof/Laws/Exec.lean ====
section
/-! SUPPORT. What a command can do, said once: every command is a completion step with its result (R281), and every
result is an error or a write of the command's own destinations. -/

namespace Sys2Proof.Machine

/-! ### Operands -/

/-- Reading a field operand succeeds exactly on a canonical value (R275). -/
theorem State.fieldOperand_ok {s : State} {r : FieldReg} {u : Nat} :
    s.fieldOperand r = .ok u ↔ s.feVal r = u ∧ s.feVal r < Config.p := by
  simp only [State.fieldOperand]
  split
  · simp_all [canon]
  · simp_all [canon]; omega

/-- Reading a field operand fails exactly on a value ≥ p, with the register's index (R275). -/
theorem State.fieldOperand_error {s : State} {r : FieldReg} {e : CmdError} :
    s.fieldOperand r = .error e ↔ Config.p ≤ s.feVal r ∧ e = .invalidFieldEncoding r := by
  simp only [State.fieldOperand]
  split <;> simp_all [canon, eq_comm]

/-- The lengths pass exactly where the message fits MSG and the tag has at most 255 bytes (R274). -/
theorem State.hashLengthError_none {s : State} :
    s.hashLengthError = none ↔ s.msgLen.toNat ≤ 4096 ∧ s.dstLen.toNat ≤ 255 := by
  have h1 : Config.msgSize = 4096 := rfl
  have h2 : Config.maxDst = 255 := rfl
  simp only [State.hashLengthError]
  split
  · simp; omega
  · split <;> simp <;> omega

/-- A failing length is a message that leaves MSG, or else a tag of more than 255 bytes (R274). -/
theorem State.hashLengthError_some {s : State} {e : CmdError} :
    s.hashLengthError = some e ↔
      (4096 < s.msgLen.toNat ∧ e = .illegalCommand .range) ∨
      (s.msgLen.toNat ≤ 4096 ∧ 255 < s.dstLen.toNat ∧ e = .domainTagTooLong) := by
  have hm : Config.msgSize = 4096 := rfl
  have hd : Config.maxDst = 255 := rfl
  simp only [State.hashLengthError]
  split
  · rename_i h
    constructor
    · rintro ⟨⟩; exact .inl ⟨by omega, rfl⟩
    · rintro (⟨-, rfl⟩ | ⟨h', -⟩)
      · rfl
      · omega
  · rename_i h
    split
    · rename_i h'
      constructor
      · rintro ⟨⟩; exact .inr ⟨by omega, by omega, rfl⟩
      · rintro (⟨h', -⟩ | ⟨-, -, rfl⟩)
        · omega
        · rfl
    · rename_i h'
      constructor
      · rintro ⟨⟩
      · rintro (⟨h', -⟩ | ⟨-, h', -⟩) <;> omega

/-! ### Field registers -/

theorem State.setFe_feVal_self (s : State) (r : FieldReg) {v : Nat} (h : v < 2 ^ 256) :
    (s.setFe r v).feVal r = v := by
  simpa [State.feVal, State.setFe] using h

theorem State.setFe_getElem_of_ne (s : State) {r k : FieldReg} (h : k ≠ r) (v : Nat) :
    (s.setFe r v).fe[k] = s.fe[k] := by
  have : r.val ≠ k.val := fun he => h (Fin.ext he.symm)
  simp [State.setFe, this]

theorem State.setFeFrom_getElem (s : State) (rd : FieldReg) (es : List Nat) (k : FieldReg) :
    (s.setFeFrom rd es).fe[k] =
      if rd.val ≤ k.val ∧ k.val < rd.val + es.length then BitVec.ofNat 256 (es.getD (k.val - rd.val) 0)
      else s.fe[k] := by
  simp [State.setFeFrom]

/-! ### Commands -/

/-- Every command is the completion step with its result (R281). -/
theorem exec_eq (i : Instr) (s : State) : exec i s = .next (s.finish (commandResult i s)) := by cases i <;> rfl

/-- The result of a command word: its command's, or IllegalCommand(1) (R106). -/
def wordResult (w : Word) (s : State) : Except CmdError State :=
  match decode w with
  | .ok i => commandResult i s
  | .error _ => .error (.illegalCommand .undecodable)

/-- Every word is the completion step with its result (R281). -/
theorem runWord_eq (w : Word) (s : State) : runWord w s = .next (s.finish (wordResult w s)) := by
  simp only [runWord, wordResult]
  cases decode w with
  | ok i => exact exec_eq i s
  | error _ => rfl

theorem wordResult_of_decode {w : Word} {i : Instr} (h : decode w = .ok i) (s : State) :
    wordResult w s = commandResult i s := by simp [wordResult, h]

/-- A result without error is a command's. -/
theorem wordResult_ok {w : Word} {s t : State} (h : wordResult w s = .ok t) :
    ∃ i, decode w = .ok i ∧ commandResult i s = .ok t := by
  simp only [wordResult] at h
  split at h
  · exact ⟨_, by assumption, h⟩
  · cases h

/-- Every completion step makes the engine idle (R281). -/
@[simp] theorem State.finish_execState (s : State) (r : Except CmdError State) : (s.finish r).execState = .idle := by
  cases r <;> rfl

/-- Every completion step sets DONE (R281). -/
@[simp] theorem State.finish_done (s : State) (r : Except CmdError State) : (s.finish r).done = true := by
  cases r <;> rfl

/-- After a completion step ERR.CODE is 0 exactly where the command raised no error (R271, R281). -/
theorem State.finish_errCode_eq_zero (s : State) (r : Except CmdError State) :
    (s.finish r).errCode = 0 ↔ ∃ t, r = .ok t := by
  cases r with
  | ok t => simp
  | error e => cases e <;> simp [errorCode]

/-- A command that raises no error changes nothing but field registers, XOUT and QR before its completion step applies
(R83, R281). -/
theorem commandResult_frame {i : Instr} {s t : State} (h : commandResult i s = .ok t) :
    t = { s with fe := t.fe, mem := t.mem, qr := t.qr } := by
  cases i with
  | nop => simp only [commandResult, nopResult] at h; cases h; rfl
  | xmd n =>
    simp only [commandResult, xmdResult] at h
    split at h
    · cases h
    · split at h <;> cases h; rfl
  | h2f rd count =>
    simp only [commandResult, h2fResult] at h
    split at h
    · cases h
    · split at h <;> cases h; rfl
  | reduce rd off =>
    simp only [commandResult, reduceResult] at h
    split at h <;> cases h; rfl
  | sqrtr rd ru rv =>
    simp only [commandResult, sqrtrResult] at h
    split at h
    · cases h
    · split at h <;> cases h; rfl
  | map rx ry ru =>
    simp only [commandResult, mapResult] at h
    split at h
    · cases h
    · split at h <;> cases h; rfl

/-- A command's result is a function of the field registers, the buffers, the two lengths and QR (R49): over a state
that agrees there it is the same error, or the same writes. -/
theorem commandResult_congr (i : Instr) {s t : State} (hfe : s.fe = t.fe) (hmem : s.mem = t.mem)
    (hm : s.msgLen = t.msgLen) (hd : s.dstLen = t.dstLen) (hq : s.qr = t.qr) :
    commandResult i s = (commandResult i t).map fun u => { s with fe := u.fe, mem := u.mem, qr := u.qr } := by
  have hlen : s.hashLengthError = t.hashLengthError := by
    unfold State.hashLengthError; rw [hm, hd]
  have hop : ∀ r, s.fieldOperand r = t.fieldOperand r := fun r => by
    unfold State.fieldOperand State.feVal; rw [hfe]
  have hmsg : s.message = t.message := by simp only [State.message, State.msgBytes, hmem, hm]
  have htag : s.tag = t.tag := by simp only [State.tag, State.dstBytes, hmem, hd]
  cases s
  cases t
  obtain rfl : _ = _ := hfe
  obtain rfl : _ = _ := hmem
  obtain rfl : _ = _ := hm
  obtain rfl : _ = _ := hd
  obtain rfl : _ = _ := hq
  cases i with
  | nop => rfl
  | xmd n =>
    simp only [commandResult, xmdResult, hlen, hmsg, htag]
    split
    · rfl
    · split <;> rfl
  | h2f rd count =>
    simp only [commandResult, h2fResult, hlen, hmsg, htag]
    split
    · rfl
    · split <;> rfl
  | reduce rd off =>
    simp only [commandResult, reduceResult]
    split <;> rfl
  | sqrtr rd ru rv =>
    simp only [commandResult, sqrtrResult, hop]
    split
    · rfl
    · split <;> rfl
  | map rx ry ru =>
    simp only [commandResult, mapResult, hop]
    split
    · rfl
    · split <;> rfl

/-- A word's result without error changes nothing but field registers, XOUT and QR. -/
theorem wordResult_frame {w : Word} {s t : State} (h : wordResult w s = .ok t) :
    t = { s with fe := t.fe, mem := t.mem, qr := t.qr } := by
  obtain ⟨i, -, hi⟩ := wordResult_ok h
  exact commandResult_frame hi

/-- A word's result is a function of what R49 names. -/
theorem wordResult_congr (w : Word) {s t : State} (hfe : s.fe = t.fe) (hmem : s.mem = t.mem)
    (hm : s.msgLen = t.msgLen) (hd : s.dstLen = t.dstLen) (hq : s.qr = t.qr) :
    wordResult w s = (wordResult w t).map fun u => { s with fe := u.fe, mem := u.mem, qr := u.qr } := by
  simp only [wordResult]
  split
  · exact commandResult_congr _ hfe hmem hm hd hq
  · rfl

/-- Only XMD writes memory: XOUT[0:n], with n ≤ 8160 (R83, R160). -/
theorem commandResult_mem {i : Instr} {s t : State} (h : commandResult i s = .ok t) :
    t.mem = s.mem ∨ ∃ b : List Byte, b.length ≤ 8160 ∧ t.mem = s.mem.writeBytes Config.xoutBase b := by
  cases i with
  | nop => simp only [commandResult, nopResult] at h; cases h; exact .inl rfl
  | xmd n =>
    simp only [commandResult, xmdResult] at h
    split at h
    · cases h
    · split at h
      · cases h
      · rename_i hn
        cases h
        exact .inr ⟨_, by simpa [Config.maxXmd] using hn, rfl⟩
  | h2f rd count =>
    simp only [commandResult, h2fResult] at h
    split at h
    · cases h
    · split at h <;> cases h; exact .inl rfl
  | reduce rd off =>
    simp only [commandResult, reduceResult] at h
    split at h <;> cases h; exact .inl rfl
  | sqrtr rd ru rv =>
    simp only [commandResult, sqrtrResult] at h
    split at h
    · cases h
    · split at h <;> cases h; exact .inl rfl
  | map rx ry ru =>
    simp only [commandResult, mapResult] at h
    split at h
    · cases h
    · split at h <;> cases h; exact .inl rfl

/-! ### The window -/

/-- A buffer word of the address map is the offset itself, in a buffer (R79). -/
theorem locate_bufferWord {off : Offset} {a : Nat} (h : locate off = .bufferWord a) :
    a = off.toNat ∧ inBuffer off.toNat = true := by
  simp only [locate] at h
  split at h
  · cases h
  · split at h
    · cases h
    · split at h
      · cases h
      · split at h <;> cases h
        exact ⟨rfl, by assumption⟩

/-- Word j of field register k stands at 0x100 + 32k + 4j (R76). -/
theorem locate_fe (k j : Fin 8) : locate (BitVec.ofNat 16 (0x100 + 32 * k.val + 4 * j.val)) = .feWord k j := by
  revert k j; decide

/-- An aligned buffer word lies in its buffer with all four bytes (R75, R79). -/
theorem inBuffer_word {a x : Nat} (h : inBuffer a = true) (ha : a % 4 = 0) (hx : a ≤ x ∧ x < a + 4) :
    inBuffer x = true := by
  simp only [inBuffer, Bool.or_eq_true, Bool.and_eq_true, decide_eq_true_eq] at h ⊢
  simp only [Config.dstBase, Config.dstSize, Config.msgBase, Config.msgSize, Config.xoutBase, Config.xoutSize] at h ⊢
  omega

/-! ### Steps -/

/-- The engine agent's turn, said once: an idle engine waits, and a busy one takes the completion step of its word. -/
theorem engineTurn_cases {s t : State} (h : engineTurn s = .next t) :
    (s.execState = .idle ∧ t = s) ∨ (∃ w, s.execState = .busy w ∧ runWord w s = .next t) := by
  simp only [engineTurn] at h
  split at h
  · rename_i hs; cases h; exact .inl ⟨hs, rfl⟩
  · rename_i w hs; exact .inr ⟨w, hs, h⟩

/-- The step is the next event's, and the engine agent's turn where no event is left. -/
theorem step_nil {s : State} (h : s.bus = []) : step s = engineTurn s := by simp [step, nextEvent, h]

theorem step_cons {s : State} {e : BusEvent} {rest : List BusEvent} (h : s.bus = e :: rest) :
    step s = deliver e { s with bus := rest } := by
  simp [step, nextEvent, h]

end Sys2Proof.Machine
end

