-- ==== Sys2Proof/Laws/Bus.lean ====
section
/-! SUPPORT. What a host transaction, an event and a step can do, said once. -/

namespace Sys2Proof.Machine

/-! ### The address map -/

theorem aligned_iff (off : Offset) : aligned off = true ↔ off.toNat % 4 = 0 := by simp [aligned]

/-- A control register stands below 0x20, in the order of R46. -/
theorem locate_control {off : Offset} {r : CtlReg} (h : locate off = .control r) :
    off.toNat < 0x20 ∧ r = controlAt (off.toNat / 4) := by
  simp only [locate] at h
  split at h
  · cases h; exact ⟨by assumption, rfl⟩
  · split at h
    · cases h
    · split at h
      · cases h
      · split at h <;> cases h

/-- An aligned offset below 0x20 names a control register. -/
theorem locate_of_lt {off : Offset} (h : off.toNat < 0x20) : locate off = .control (controlAt (off.toNat / 4)) := by
  simp [locate, h]

/-- The reserved ranges of R79. -/
theorem locate_reserved {off : Offset}
    (h : (0x20 ≤ off.toNat ∧ off.toNat < 0x100) ∨ (0x300 ≤ off.toNat ∧ off.toNat < 0x1000) ∨ 0x4000 ≤ off.toNat) :
    locate off = .reserved := by
  have hb : ¬ inBuffer off.toNat = true ∨ off.toNat < 0x100 := by
    simp only [inBuffer, Bool.or_eq_true, Bool.and_eq_true, decide_eq_true_eq]
    simp only [Config.dstBase, Config.dstSize, Config.msgBase, Config.msgSize, Config.xoutBase, Config.xoutSize]
    omega
  have h1 : Config.feBase = 0x100 := rfl
  have h2 : Config.dstBase = 0x200 := rfl
  simp only [locate]
  rw [if_neg (by omega)]
  split
  · rfl
  · rw [if_neg (by omega), if_neg (by rcases hb with hb | hb; exact hb; omega)]

/-- The buffer ranges of R79. -/
theorem locate_buffer {off : Offset} (h : inBuffer off.toNat = true) : locate off = .bufferWord off.toNat := by
  have hb := h
  simp only [inBuffer, Bool.or_eq_true, Bool.and_eq_true, decide_eq_true_eq] at hb
  simp only [Config.dstBase, Config.dstSize, Config.msgBase, Config.msgSize, Config.xoutBase, Config.xoutSize] at hb
  have h1 : Config.feBase = 0x100 := rfl
  have h2 : Config.dstBase = 0x200 := rfl
  simp only [locate]
  rw [if_neg (by omega), if_neg (by omega), if_neg (by omega), if_pos h]

/-- The FE range of R79. -/
theorem locate_feWord {off : Offset} (h : 0x100 ≤ off.toNat ∧ off.toNat < 0x200) : ∃ k j, locate off = .feWord k j := by
  have h1 : Config.feBase = 0x100 := rfl
  have h2 : Config.dstBase = 0x200 := rfl
  refine ⟨Fin.ofNat 8 ((off.toNat - Config.feBase) / 32), Fin.ofNat 8 ((off.toNat - Config.feBase) % 32 / 4), ?_⟩
  simp only [locate]
  rw [if_neg (by omega), if_neg (by omega), if_pos (by omega)]

@[simp] theorem locate_id : locate 0x000#16 = .control .id := by decide
@[simp] theorem locate_version : locate 0x004#16 = .control .version := by decide
@[simp] theorem locate_ctrl : locate 0x008#16 = .control .ctrl := by decide
@[simp] theorem locate_status : locate 0x00C#16 = .control .status := by decide
@[simp] theorem locate_cmd : locate 0x010#16 = .control .cmd := by decide
@[simp] theorem locate_err : locate 0x014#16 = .control .err := by decide
@[simp] theorem locate_msgLen : locate 0x018#16 = .control .msgLen := by decide
@[simp] theorem locate_dstLen : locate 0x01C#16 = .control .dstLen := by decide

/-! ### The two transactions -/

theorem State.isBusy_iff (s : State) : s.isBusy = true ↔ ∃ w, s.execState = .busy w := by
  simp only [State.isBusy]
  split <;> simp_all

theorem State.isBusy_of_busy {s : State} {w : Word} (h : s.execState = .busy w) : s.isBusy = true :=
  s.isBusy_iff.mpr ⟨w, h⟩

theorem State.isBusy_of_idle {s : State} (h : s.execState = .idle) : s.isBusy = false := by simp [State.isBusy, h]

theorem State.isBusy_false_iff (s : State) : s.isBusy = false ↔ s.execState = .idle := by
  simp only [State.isBusy]
  split <;> simp_all

theorem State.hostWrite_misaligned (s : State) {off : Offset} (v : Word) (h : off.toNat % 4 ≠ 0) :
    s.hostWrite off v = s.respond .busError := by
  have : aligned off = false := by simp [aligned, h]
  simp [State.hostWrite, this]

theorem State.hostWrite_aligned (s : State) {off : Offset} (v : Word) (h : off.toNat % 4 = 0) :
    s.hostWrite off v = (s.poke off v).respond .written := by
  have : aligned off = true := by simp [aligned, h]
  simp [State.hostWrite, this]

/-- CTRL takes its write idle or busy (R39, R82). -/
theorem State.hostWrite_ctrl (s : State) (v : Word) :
    s.hostWrite 0x008#16 v = (s.writeCtrl v).respond .written := by rfl

/-- STATUS takes its write idle or busy (R40, R82). -/
theorem State.hostWrite_status (s : State) (v : Word) :
    s.hostWrite 0x00C#16 v = (s.writeStatus v).respond .written := by rfl

/-- CMD is accepted or dropped (R42). -/
theorem State.hostWrite_cmd (s : State) (w : Word) :
    s.hostWrite 0x010#16 w = (if s.isBusy then s.dropWrite else s.accept w).respond .written := by rfl

theorem State.writeCtrl_srst (s : State) {v : Word} (h : v.getLsbD 1 = true) : s.writeCtrl v = s.resetEngine := by
  rw [State.writeCtrl, if_pos h]

theorem State.writeCtrl_ie (s : State) {v : Word} (h : v.getLsbD 1 = false) :
    s.writeCtrl v = { s with ie := v.getLsbD 0 } := by
  rw [State.writeCtrl, if_neg (by rw [h]; decide)]

/-- Everything that a write can do to the engine, by the offsets and the execution states in which it does it. -/
theorem State.poke_cases (s : State) (off : Offset) (v : Word) (ha : off.toNat % 4 = 0) :
    s.poke off v = s ∨
    (s.poke off v = s.dropWrite ∧ s.isBusy = true) ∨
    (off = 0x008#16 ∧ s.poke off v = s.writeCtrl v) ∨
    (off = 0x00C#16 ∧ s.poke off v = s.writeStatus v) ∨
    (off = 0x010#16 ∧ s.isBusy = false ∧ s.poke off v = s.accept v) ∨
    (s.isBusy = false ∧ s.poke off v = { s with msgLen := v.setWidth 16 }) ∨
    (s.isBusy = false ∧ s.poke off v = { s with dstLen := v.setWidth 16 }) ∨
    (s.isBusy = false ∧ ∃ k j : Fin 8, s.poke off v = { s with fe := s.fe.set k.val (feSetWord s.fe[k] j v) }) ∨
    (s.isBusy = false ∧ inBuffer off.toNat = true ∧
      s.poke off v = { s with mem := s.mem.writeBytes off.toNat (wordBytes v) }) := by
  have hoff : ∀ n : Nat, n < 65536 → off.toNat = n → off = BitVec.ofNat 16 n := fun n hn h => by
    apply BitVec.eq_of_toNat_eq; simp [h]; omega
  cases hl : locate off with
  | control r =>
    obtain ⟨hlt, hr⟩ := locate_control hl
    have hcases : off.toNat = 0 ∨ off.toNat = 4 ∨ off.toNat = 8 ∨ off.toNat = 12 ∨ off.toNat = 16 ∨ off.toNat = 20 ∨
        off.toNat = 24 ∨ off.toNat = 28 := by omega
    rcases hcases with h | h | h | h | h | h | h | h <;> obtain rfl := hoff _ (by decide) h
    · exact .inl rfl
    · exact .inl rfl
    · exact .inr (.inr (.inl ⟨rfl, rfl⟩))
    · exact .inr (.inr (.inr (.inl ⟨rfl, rfl⟩)))
    · cases hb : s.isBusy with
      | true => exact .inr (.inl ⟨by simp [State.poke, State.writeControl, hb], rfl⟩)
      | false => exact .inr (.inr (.inr (.inr (.inl ⟨rfl, rfl, by simp [State.poke, State.writeControl, hb]⟩))))
    · exact .inl rfl
    · cases hb : s.isBusy with
      | true => exact .inr (.inl ⟨by simp [State.poke, State.writeControl, hb], rfl⟩)
      | false =>
        exact .inr (.inr (.inr (.inr (.inr (.inl ⟨rfl, by simp [State.poke, State.writeControl, hb]⟩)))))
    · cases hb : s.isBusy with
      | true => exact .inr (.inl ⟨by simp [State.poke, State.writeControl, hb], rfl⟩)
      | false =>
        exact .inr (.inr (.inr (.inr (.inr (.inr (.inl ⟨rfl, by simp [State.poke, State.writeControl, hb]⟩))))))
  | feWord k j =>
    cases hb : s.isBusy with
    | true => exact .inr (.inl ⟨by simp [State.poke, hl, hb], rfl⟩)
    | false =>
      exact .inr (.inr (.inr (.inr (.inr (.inr (.inr (.inl ⟨rfl, k, j, by simp [State.poke, hl, hb]⟩)))))))
  | bufferWord a =>
    obtain ⟨rfl, hin⟩ := locate_bufferWord hl
    cases hb : s.isBusy with
    | true => exact .inr (.inl ⟨by simp [State.poke, hl, hb], rfl⟩)
    | false =>
      exact .inr (.inr (.inr (.inr (.inr (.inr (.inr (.inr ⟨rfl, hin, by simp [State.poke, hl, hb]⟩)))))))
  | reserved => exact .inl (by simp [State.poke, hl])

/-! ### Coincident writes, events and steps -/

/-- A write in the cycle of a completion, away from CTRL, CMD and STATUS, goes after the completion (R284). -/
theorem State.writeAtCompletion_after (before after : State) {off : Offset} (v : Word)
    (h : off ≠ 0x008#16 ∧ off ≠ 0x00C#16 ∧ off ≠ 0x010#16) :
    before.writeAtCompletion after off v = after.hostWrite off v := by
  by_cases ha : off.toNat % 4 = 0
  · have hal : aligned off = true := by simp [aligned, ha]
    have hoff : ∀ n : Nat, n < 65536 → off.toNat = n → off = BitVec.ofNat 16 n := fun n hn h => by
      apply BitVec.eq_of_toNat_eq; simp [h]; omega
    simp only [State.writeAtCompletion, hal, if_true]
    cases hl : locate off with
    | control r =>
      obtain ⟨hlt, hr⟩ := locate_control hl
      have hcases : off.toNat = 0 ∨ off.toNat = 4 ∨ off.toNat = 8 ∨ off.toNat = 12 ∨ off.toNat = 16 ∨
          off.toNat = 20 ∨ off.toNat = 24 ∨ off.toNat = 28 := by omega
      rcases hcases with h' | h' | h' | h' | h' | h' | h' | h' <;> rw [h'] at hr <;> subst hr <;>
        first
        | rfl
        | exact absurd (hoff _ (by decide) h') h.1
        | exact absurd (hoff _ (by decide) h') h.2.1
        | exact absurd (hoff _ (by decide) h') h.2.2
    | _ => rfl
  · have hal : aligned off = false := by simp [aligned, ha]
    simp [State.writeAtCompletion, hal]

theorem State.writeAtCompletion_ctrl (before after : State) (v : Word) :
    before.writeAtCompletion after 0x008#16 v =
      if v.getLsbD 1 then before.hostWrite 0x008#16 v else after.hostWrite 0x008#16 v := by rfl

theorem State.writeAtCompletion_cmd (before after : State) (v : Word) :
    before.writeAtCompletion after 0x010#16 v = after.dropWrite.respond .written := by rfl

theorem State.writeAtCompletion_status (before after : State) (v : Word) :
    before.writeAtCompletion after 0x00C#16 v = { after.hostWrite 0x00C#16 v with done := true } := by rfl

/-- Everything that a write in the cycle of a completion can do (R284). -/
theorem State.writeAtCompletion_cases (before after : State) (off : Offset) (v : Word) :
    (off = 0x008#16 ∧ v.getLsbD 1 = true ∧ before.writeAtCompletion after off v = before.resetEngine.respond .written) ∨
    (off = 0x010#16 ∧ before.writeAtCompletion after off v = after.dropWrite.respond .written) ∨
    (off = 0x00C#16 ∧ before.writeAtCompletion after off v =
      ({ after with done := true, drop := after.drop && !v.getLsbD 4 } : State).respond .written) ∨
    (off ≠ 0x00C#16 ∧ off ≠ 0x010#16 ∧ (off = 0x008#16 → v.getLsbD 1 = false) ∧
      before.writeAtCompletion after off v = after.hostWrite off v) := by
  by_cases h1 : off = 0x008#16
  · subst h1
    cases hv : v.getLsbD 1 with
    | true =>
      refine .inl ⟨rfl, rfl, ?_⟩
      rw [State.writeAtCompletion_ctrl, if_pos hv, State.hostWrite_ctrl, State.writeCtrl_srst _ hv]
    | false =>
      refine .inr (.inr (.inr ⟨by decide, by decide, fun _ => rfl, ?_⟩))
      rw [State.writeAtCompletion_ctrl, if_neg (by rw [hv]; decide)]
  · by_cases h2 : off = 0x010#16
    · subst h2; exact .inr (.inl ⟨rfl, rfl⟩)
    · by_cases h3 : off = 0x00C#16
      · subst h3; exact .inr (.inr (.inl ⟨rfl, rfl⟩))
      · exact .inr (.inr (.inr ⟨h3, h2, fun h => absurd h h1, State.writeAtCompletion_after _ _ v ⟨h1, h3, h2⟩⟩))

/-- Every word completes, and every completion step answers a next state. -/
theorem runWord_next (w : Word) (s : State) : ∃ t, runWord w s = .next t := ⟨_, runWord_eq w s⟩

/-- Everything that an event can do. -/
theorem deliver_cases {e : BusEvent} {s t : State} (h : deliver e s = .next t) :
    (∃ off, e = .read off ∧ t = s.hostRead off) ∨
    (∃ off v, e = .write off v ∧ t = s.hostWrite off v) ∨
    (e = .rst ∧ t = s.resetEngine) ∨
    (e = .engineTurn ∧ s.execState = .idle ∧ t = s) ∨
    (∃ w, e = .engineTurn ∧ s.execState = .busy w ∧ runWord w s = .next t) ∨
    (∃ off v, e = .writeAtCompletion off v ∧ s.execState = .idle ∧ t = s.hostWrite off v) ∨
    (∃ off v w u, e = .writeAtCompletion off v ∧ s.execState = .busy w ∧ runWord w s = .next u ∧
      t = s.writeAtCompletion u off v) := by
  cases e with
  | read off => cases h; exact .inl ⟨off, rfl, rfl⟩
  | write off v => cases h; exact .inr (.inl ⟨off, v, rfl, rfl⟩)
  | rst => cases h; exact .inr (.inr (.inl ⟨rfl, rfl⟩))
  | engineTurn =>
    rcases engineTurn_cases h with ⟨hs, ht⟩ | ⟨w, hs, hr⟩
    · exact .inr (.inr (.inr (.inl ⟨rfl, hs, ht⟩)))
    · exact .inr (.inr (.inr (.inr (.inl ⟨w, rfl, hs, hr⟩))))
  | writeAtCompletion off v =>
    simp only [deliver, coincidentWrite] at h
    split at h
    · rename_i hs
      cases h
      exact .inr (.inr (.inr (.inr (.inr (.inl ⟨off, v, rfl, hs, rfl⟩)))))
    · rename_i w hs
      obtain ⟨u, hu⟩ := runWord_next w s
      rw [hu] at h
      cases h
      exact .inr (.inr (.inr (.inr (.inr (.inr ⟨off, v, w, u, rfl, hs, hu, rfl⟩)))))

/-- Every event answers a next state. -/
theorem deliver_next (e : BusEvent) (s : State) : ∃ t, deliver e s = .next t := by
  cases e with
  | engineTurn => simp only [deliver, engineTurn]; split <;> simp [runWord_eq]
  | writeAtCompletion off v => simp only [deliver, coincidentWrite]; split <;> simp [runWord_eq]
  | _ => exact ⟨_, rfl⟩

theorem State.hostWrite_bus (s : State) (off : Offset) (v : Word) : (s.hostWrite off v).bus = s.bus := by
  by_cases ha : off.toNat % 4 = 0
  · rw [State.hostWrite_aligned _ _ ha]
    rcases State.poke_cases s off v ha with e | ⟨e, -⟩ | ⟨-, e⟩ | ⟨-, e⟩ | ⟨-, -, e⟩ | ⟨-, e⟩ | ⟨-, e⟩ | ⟨-, k, j, e⟩ |
      ⟨-, -, e⟩ <;> rw [State.respond_bus, e] <;> try rfl
    simp only [State.writeCtrl]
    split <;> rfl
  · rw [State.hostWrite_misaligned _ _ ha]; rfl

theorem runWord_bus {w : Word} {s t : State} (h : runWord w s = .next t) : t.bus = s.bus := by
  rw [runWord_eq] at h
  cases h
  cases hr : wordResult w s with
  | error e => rfl
  | ok u => rw [State.finish_ok_bus, wordResult_frame hr]

/-- An event leaves the events after it. -/
theorem deliver_bus {e : BusEvent} {s t : State} (h : deliver e s = .next t) : t.bus = s.bus := by
  rcases deliver_cases h with ⟨off, -, rfl⟩ | ⟨off, v, -, rfl⟩ | ⟨-, rfl⟩ | ⟨-, -, rfl⟩ | ⟨w, -, -, hr⟩ |
    ⟨off, v, -, -, rfl⟩ | ⟨off, v, w, u, -, -, hr, rfl⟩
  · rfl
  · exact s.hostWrite_bus off v
  · rfl
  · rfl
  · exact runWord_bus hr
  · exact s.hostWrite_bus off v
  · rcases State.writeAtCompletion_cases s u off v with ⟨-, -, e⟩ | ⟨-, e⟩ | ⟨-, e⟩ | ⟨-, -, -, e⟩ <;> rw [e]
    · rfl
    · exact (runWord_bus hr : u.bus = s.bus)
    · exact (runWord_bus hr : u.bus = s.bus)
    · rw [State.hostWrite_bus]; exact runWord_bus hr

end Sys2Proof.Machine
end

