-- ==== Sys2Proof/Laws/Prime.lean ====
section
/-! SUPPORT. The field modulus is prime (spec/40_field.md R130), by Lucas's test along the factors of p − 1. -/

namespace Sys2Proof.Laws

-- One theorem after another: their kernel checks, side by side, hold too many threads at once.
set_option Elab.async false

/-- a^k mod n by squaring, for every k below 2^fuel. -/
def powMod (n : Nat) : (fuel : Nat) → (a k : Nat) → Nat
  | 0, _, _ => 1 % n
  | fuel + 1, a, k => (if k % 2 = 1 then a else 1) * powMod n fuel (a * a % n) (k / 2) % n

theorem powMod_eq (n fuel a k : Nat) (h : k < 2 ^ fuel) : powMod n fuel a k = a ^ k % n := by
  induction fuel generalizing a k with
  | zero => obtain rfl : k = 0 := by simpa using h
            rfl
  | succ fuel ih =>
    have hk : k / 2 < 2 ^ fuel := by rw [pow_succ] at h; omega
    rw [powMod, ih _ _ hk, Nat.mul_mod_mod]
    have hs := ((Nat.mod_modEq (a * a) n).pow (k / 2)).mul_left (if k % 2 = 1 then a else 1)
    rw [hs, ← sq, ← pow_mul]
    have h2 := Nat.div_add_mod k 2
    split
    · rename_i h1
      rw [← pow_succ', ← h1, h2]
    · rename_i h1
      rw [one_mul, show 2 * (k / 2) = k by omega]

/-- Lucas's test as one evaluation: a has order n − 1, where every prime factor of n − 1 stands in qs. -/
def lucasCheck (n a : Nat) (qs : List Nat) : Bool :=
  decide (1 < n) && decide (n < 2 ^ 256) && powMod n 256 a (n - 1) == 1 &&
  qs.all fun q => powMod n 256 a ((n - 1) / q) != 1

theorem prime_of_lucasCheck {n a : Nat} {qs : List Nat} (hc : lucasCheck n a qs = true)
    (hq : ∀ q, Nat.Prime q → q ∣ n - 1 → q ∈ qs) : n.Prime := by
  simp only [lucasCheck, Bool.and_eq_true, decide_eq_true_eq, beq_iff_eq, List.all_eq_true, bne_iff_ne, ne_eq] at hc
  obtain ⟨⟨⟨h1, hn⟩, hp⟩, hall⟩ := hc
  have cast_eq_one : ∀ k, k < 2 ^ 256 → ((a : ZMod n) ^ k = 1 ↔ powMod n 256 a k = 1) := by
    intro k hk
    rw [powMod_eq _ _ _ _ hk, ← Nat.cast_pow, ← Nat.cast_one, ZMod.natCast_eq_natCast_iff', Nat.mod_eq_of_lt h1]
  refine lucas_primality n (a : ZMod n) ((cast_eq_one _ (by omega)).mpr hp) fun q hqp hqd => ?_
  rw [ne_eq, cast_eq_one _ ((Nat.div_le_self _ _).trans_lt (by omega))]
  exact hall q (hq q hqp hqd)

/-- A prime divisor of a product of primes stands among them. -/
theorem mem_of_prime_dvd_prod {q : Nat} (hq : q.Prime) {l : List Nat} (hl : ∀ r ∈ l, r.Prime) (h : q ∣ l.prod) :
    q ∈ l := by
  obtain ⟨r, hr, hd⟩ := (Prime.dvd_prod_iff hq.prime).mp h
  rwa [(Nat.prime_dvd_prime_iff_eq hq (hl r hr)).mp hd]

/-- Lucas's test, with the factors of n − 1 as a list of primes. -/
theorem prime_of_factors {n : Nat} (a : Nat) (qs : List Nat) (hc : lucasCheck n a qs = true)
    (hprod : qs.prod = n - 1) (hqs : ∀ q ∈ qs, q.Prime) : n.Prime :=
  prime_of_lucasCheck hc fun _ hq hd => mem_of_prime_dvd_prod hq hqs (hprod ▸ hd)

theorem prime_66417393611 : Nat.Prime 66417393611 :=
  prime_of_factors 6 [2, 5, 53, 173, 197, 3677] (by decide +kernel) (by norm_num) (by norm_num)

theorem prime_34282281433 : Nat.Prime 34282281433 :=
  prime_of_factors 17 [2, 2, 2, 3, 7, 204061199] (by decide +kernel) (by norm_num) (by norm_num)

theorem prime_11290956913871 : Nat.Prime 11290956913871 :=
  prime_of_factors 13 [2, 5, 17, 66417393611] (by decide +kernel) (by norm_num)
    (by simpa [prime_66417393611] using ⟨by norm_num, by norm_num, by norm_num⟩)

theorem prime_46076956964474543 : Nat.Prime 46076956964474543 :=
  prime_of_factors 5 [2, 23, 18169, 78283, 704251] (by decide +kernel) (by norm_num) (by norm_num)

theorem prime_774023187263532362759620327192479577272145303 :
    Nat.Prime 774023187263532362759620327192479577272145303 :=
  prime_of_factors 3 [2, 3, 3, 2411, 34282281433, 11290956913871, 46076956964474543] (by decide +kernel)
    (by norm_num)
    (by simpa [prime_34282281433, prime_11290956913871, prime_46076956964474543] using
      ⟨by norm_num, by norm_num, by norm_num⟩)

theorem prime_835945042244614951780389953367877943453916927241 :
    Nat.Prime 835945042244614951780389953367877943453916927241 :=
  prime_of_factors 11 [2, 2, 2, 3, 3, 3, 5, 774023187263532362759620327192479577272145303] (by decide +kernel)
    (by norm_num)
    (by simpa [prime_774023187263532362759620327192479577272145303] using ⟨by norm_num, by norm_num, by norm_num⟩)

end Sys2Proof.Laws

namespace Sys2Proof.Machine

/-- The P-256 prime is prime (R130). -/
theorem p_prime : Nat.Prime Config.p :=
  Laws.prime_of_factors 6
    [2, 3, 5, 5, 17, 257, 641, 1531, 65537, 490463, 6700417, 835945042244614951780389953367877943453916927241]
    (by decide +kernel) (by norm_num [Config.p])
    (by
      simpa [Laws.prime_835945042244614951780389953367877943453916927241] using
        ⟨by norm_num, by norm_num, by norm_num, by norm_num, by norm_num, by norm_num, by norm_num, by norm_num,
          by norm_num, by norm_num⟩)

end Sys2Proof.Machine
end

