-- ==== Sys2Proof/Laws/Curve.lean ====
section
/-! SUPPORT. Facts of the curve over `ZMod p` that the rules on the map rest on: p is prime and 3 mod 4, A = −3 and
Z = −10 there, Euler's criterion for the constants (spec/40_field.md R133), and that x³ + A·x + B has no root, so that no
affine point has y = 0 (R134). -/

namespace Sys2Proof.Laws

-- One theorem after another: their kernel checks, side by side, hold too many threads at once.
set_option Elab.async false

open Sys2Proof.Machine

theorem fact_p_prime : Fact (Nat.Prime Config.p) := ⟨p_prime⟩

/-- p ≡ 3 (mod 4) (R130). -/
theorem p_mod_four : Config.p % 4 = 3 := by decide +kernel

/-- E_SQRT = (p − 3)/4 and E_INV = p − 2 (R135). -/
theorem eSqrt_eq : 4 * Config.eSqrt + 3 = Config.p := by decide +kernel
theorem eInv_eq : Config.eInv + 2 = Config.p := by decide +kernel

/-- A = −3 (R132). -/
theorem cast_curveA : ((Config.curveA : Nat) : ZMod Config.p) = -3 := by
  have h : Config.curveA + 3 = Config.p := by decide +kernel
  have := congrArg (Nat.cast : Nat → ZMod Config.p) h
  push_cast at this
  rw [ZMod.natCast_self Config.p] at this
  linear_combination this

/-- Z = −10 (R132). -/
theorem cast_curveZ : ((Config.curveZ : Nat) : ZMod Config.p) = -10 := by
  have h : Config.curveZ + 10 = Config.p := by decide +kernel
  have := congrArg (Nat.cast : Nat → ZMod Config.p) h
  push_cast at this
  rw [ZMod.natCast_self Config.p] at this
  linear_combination this

/-- A number's image is the power that `fpow` computes. -/
theorem cast_pow_eq {a k c : Nat} (h : fpow a k = c) : ((a : Nat) : ZMod Config.p) ^ k = c := by
  rw [← h, cast_fpow]

/-! ### The cubic x³ − 3x + B modulo itself: remainders c0 + c1·x + c2·x² as triples -/

/-- The product of two remainders, reduced by x³ = 3x − B. -/
def cubicMul (a b : Nat × Nat × Nat) : Nat × Nat × Nat :=
  let d0 := a.1 * b.1
  let d1 := a.1 * b.2.1 + a.2.1 * b.1
  let d2 := a.1 * b.2.2 + a.2.1 * b.2.1 + a.2.2 * b.1
  let d3 := a.2.1 * b.2.2 + a.2.2 * b.2.1
  let d4 := a.2.2 * b.2.2
  let nb := Config.p - Config.curveB
  ((d0 + nb * d3) % Config.p, (d1 + 3 * d3 + nb * d4) % Config.p, (d2 + 3 * d4) % Config.p)

/-- A power of a remainder, for every exponent below 2^fuel. -/
def cubicPow : (fuel : Nat) → Nat × Nat × Nat → Nat → Nat × Nat × Nat
  | 0, _, _ => (1, 0, 0)
  | fuel + 1, a, k => cubicMul (if k % 2 = 1 then a else (1, 0, 0)) (cubicPow fuel (cubicMul a a) (k / 2))

/-- The value of a remainder at r. -/
def cubicEval (r : ZMod Config.p) (a : Nat × Nat × Nat) : ZMod Config.p := a.1 + a.2.1 * r + a.2.2 * r ^ 2

theorem cubicEval_mul {r : ZMod Config.p} (hr : r ^ 3 - 3 * r + Config.curveB = 0) (a b : Nat × Nat × Nat) :
    cubicEval r (cubicMul a b) = cubicEval r a * cubicEval r b := by
  have hb : ((Config.p - Config.curveB : Nat) : ZMod Config.p) = -(Config.curveB : Nat) := by
    rw [Nat.cast_sub (by decide +kernel)]; simp
  simp only [cubicEval, cubicMul, ZMod.natCast_mod, Nat.cast_add, Nat.cast_mul, hb, Nat.cast_ofNat]
  linear_combination (-(a.2.1 * b.2.2 + a.2.2 * b.2.1 + a.2.2 * b.2.2 * r)) * hr

theorem cubicEval_pow {r : ZMod Config.p} (hr : r ^ 3 - 3 * r + Config.curveB = 0) (fuel : Nat)
    (a : Nat × Nat × Nat) (k : Nat) (h : k < 2 ^ fuel) : cubicEval r (cubicPow fuel a k) = cubicEval r a ^ k := by
  induction fuel generalizing a k with
  | zero => obtain rfl : k = 0 := by simpa using h
            simp [cubicPow, cubicEval]
  | succ fuel ih =>
    rw [cubicPow, cubicEval_mul hr, ih _ _ (by rw [pow_succ] at h; omega), cubicEval_mul hr, ← sq, ← pow_mul]
    have h2 := Nat.div_add_mod k 2
    split
    · rename_i h1
      rw [← pow_succ', ← h1, h2]
    · rename_i h1
      rw [show 2 * (k / 2) = k by omega]
      simp [cubicEval]

/-- The inverse, modulo the cubic, of x^p − x. -/
def cubicCofactor : Nat × Nat × Nat :=
  (0xa969487079f1744798bf0de6fded091b66e9d328eb0645fe5d979d1339b7f47f,
   0xa4a08891884100c13323460107a8d28eede4387fa3e6e9bfebec9f6d72d0b5cc,
   0x4cde11cf86cb876cd59cf0115813c55af0ecd3cda667d98bb9a347a56aa74a6d)

/-- x^p − x modulo the cubic. -/
def cubicFrobenius : Nat × Nat × Nat :=
  let h := cubicPow 256 (0, 1, 0) Config.p
  (h.1, h.2.1 + (Config.p - 1), h.2.2)

/-- x³ − 3x + B has no root in F_p: x^p − x is invertible modulo it, and vanishes at every element of F_p. -/
theorem cubic_no_root (r : ZMod Config.p) : r ^ 3 - 3 * r + (Config.curveB : Nat) ≠ 0 := by
  intro hr
  have := fact_p_prime
  have h1 : cubicMul cubicCofactor cubicFrobenius = (1, 0, 0) := by decide +kernel
  have h2 : cubicEval r cubicFrobenius = 0 := by
    have hp := cubicEval_pow hr 256 (0, 1, 0) Config.p (by decide +kernel)
    have hx : cubicEval r (0, 1, 0) = r := by simp [cubicEval]
    rw [hx, ZMod.pow_card] at hp
    have hm : ((Config.p - 1 : Nat) : ZMod Config.p) = -1 := by
      rw [Nat.cast_sub p_pos]; simp
    simp only [cubicEval, cubicFrobenius, Nat.cast_add, hm] at hp ⊢
    linear_combination hp
  have h3 := congrArg (cubicEval r) h1
  rw [cubicEval_mul hr, h2, mul_zero] at h3
  simp [cubicEval] at h3

end Sys2Proof.Laws
end

