-- ==== Sys2Proof/Laws/Encoding.lean ====
section
/-! SUPPORT. The fields of the two formats, read back from the words that are built of them (R101 to R104), and what the
opcode map fixes. -/

namespace Sys2Proof

/-- Bits of a format R word (R101), the lowest field first. -/
theorem formatR_getLsbD (opc : BitVec 8) (a b c d : BitVec 4) (i : Nat) :
    (formatR opc a b c d).getLsbD i =
      if i < 8 then false else if i < 12 then d.getLsbD (i - 8) else if i < 16 then c.getLsbD (i - 12)
      else if i < 20 then b.getLsbD (i - 16) else if i < 24 then a.getLsbD (i - 20) else opc.getLsbD (i - 24) := by
  simp only [formatR, BitVec.getLsbD_append, Nat.sub_sub]
  by_cases h1 : i < 8
  · simp [h1]
  · simp only [h1, if_false]
    refine if_congr (by omega) rfl (if_congr (by omega) rfl (if_congr (by omega) rfl (if_congr (by omega) rfl ?_)))
    simp

/-- Bits of a format I word (R102), the lowest field first. -/
theorem formatI_getLsbD (opc : BitVec 8) (a : BitVec 4) (imm : BitVec 16) (i : Nat) :
    (formatI opc a imm).getLsbD i =
      if i < 16 then imm.getLsbD i else if i < 20 then false else if i < 24 then a.getLsbD (i - 20)
      else opc.getLsbD (i - 24) := by
  simp only [formatI, BitVec.getLsbD_append, Nat.sub_sub]
  by_cases h1 : i < 16
  · simp [h1]
  · simp only [h1, if_false]
    refine if_congr (by omega) (by simp) (if_congr (by omega) (by simp) (by simp))

/-- OPC of a format R word (R101). -/
@[simp] theorem fieldOpc_formatR (opc : BitVec 8) (a b c d : BitVec 4) : fieldOpc (formatR opc a b c d) = opc := by
  apply BitVec.eq_of_getLsbD_eq
  intro i hi
  simp only [fieldOpc, BitVec.getLsbD_extractLsb', hi, decide_true, Bool.true_and, formatR_getLsbD]
  rw [if_neg (by omega), if_neg (by omega), if_neg (by omega), if_neg (by omega), if_neg (by omega),
    Nat.add_sub_cancel_left]

/-- OPC of a format I word (R102). -/
@[simp] theorem fieldOpc_formatI (opc : BitVec 8) (a : BitVec 4) (imm : BitVec 16) :
    fieldOpc (formatI opc a imm) = opc := by
  apply BitVec.eq_of_getLsbD_eq
  intro i hi
  simp only [fieldOpc, BitVec.getLsbD_extractLsb', hi, decide_true, Bool.true_and, formatI_getLsbD]
  rw [if_neg (by omega), if_neg (by omega), if_neg (by omega), Nat.add_sub_cancel_left]

/-- The three low bits of a field that names a register are its number (R103). -/
theorem regField_extract (r : FieldReg) : ((regField r).extractLsb' 0 3).toFin = r := by revert r; decide

/-- Bit 3 of a field that names a register is 0 (R103). -/
theorem regField_bit3 (r : FieldReg) : (regField r).getLsbD 3 = false := by revert r; decide

/-- Every row of the opcode map fixes the whole OPC byte, so a selected word has the row's (R105). -/
theorem selects_fieldOpc {r : OpcodeRow} (hr : r ∈ opcodeMap) {w : Word} (h : r.selects w = true) :
    fieldOpc w = fieldOpc r.pattern := by
  have hmask : ∀ r ∈ opcodeMap, fieldOpc r.mask = BitVec.allOnes 8 := by decide
  have h' : w &&& r.mask = r.pattern := by simpa [OpcodeRow.selects] using h
  rw [← h']
  have hd : ∀ x y : Word, fieldOpc (x &&& y) = fieldOpc x &&& fieldOpc y := fun x y => by
    apply BitVec.eq_of_getLsbD_eq
    intro i hi
    simp [fieldOpc, hi]
  rw [hd, hmask r hr, BitVec.and_allOnes]

/-- The six rows are disjoint: no word is selected by two of them (R105). -/
theorem selects_unique {r r' : OpcodeRow} (hr : r ∈ opcodeMap) (hr' : r' ∈ opcodeMap) {w : Word}
    (h : r.selects w = true) (h' : r'.selects w = true) : r = r' := by
  have heq := (selects_fieldOpc hr h).symm.trans (selects_fieldOpc hr' h')
  have hall : ∀ r ∈ opcodeMap, ∀ r' ∈ opcodeMap, fieldOpc r.pattern = fieldOpc r'.pattern → r = r' := by decide
  exact hall r hr r' hr' heq

/-- Where a row selects a word, the decoder answers with that row's command (R106). -/
theorem decode_of_selects {r : OpcodeRow} (hr : r ∈ opcodeMap) {w : Word} (h : r.selects w = true) :
    decode w = .ok (commandOf r.mnemonic w) := by
  have hsome : (opcodeMap.find? fun r => r.selects w).isSome := List.find?_isSome.mpr ⟨r, hr, h⟩
  obtain ⟨r', hr'⟩ := Option.isSome_iff_exists.mp hsome
  obtain rfl := selects_unique hr (List.mem_of_find?_eq_some hr') h (by simpa using List.find?_some hr')
  simp [decode, hr']

/-- The decoder reads a command only from a word that its row selects (R106). -/
theorem selects_of_decode {w : Word} {i : Instr} (h : decode w = .ok i) :
    ∃ r ∈ opcodeMap, r.selects w = true ∧ i = commandOf r.mnemonic w := by
  simp only [decode] at h
  split at h
  · rename_i r hr
    cases h
    exact ⟨r, List.mem_of_find?_eq_some hr, by simpa using List.find?_some hr, rfl⟩
  · cases h

end Sys2Proof
end

