-- ==== Sys2Proof/Laws/PerInstr.lean ====
section
/-! SUPPORT. Facts about every command as syntax, one lemma per constructor. -/

namespace Sys2Proof.Laws

/-- The OPC byte of a command (R105). -/
def OpcodeByte.opc : Instr → BitVec 8
  | .nop => 0x00
  | .xmd _ => 0x01
  | .h2f _ _ => 0x02
  | .reduce _ _ => 0x03
  | .sqrtr _ _ _ => 0x04
  | .map _ _ _ => 0x05

/-- The word of a command carries the command's OPC byte, whatever its operands (R101, R102, R105). -/
def OpcodeByte.Statement (i : Instr) : Prop := fieldOpc (encode i) = OpcodeByte.opc i

theorem OpcodeByte.nop : OpcodeByte.Statement .nop := by simp [Statement, encode, opc]
theorem OpcodeByte.xmd (n : Nat) : OpcodeByte.Statement (.xmd n) := by simp [Statement, encode, opc]
theorem OpcodeByte.h2f (rd : FieldReg) (count : Nat) : OpcodeByte.Statement (.h2f rd count) := by
  simp [Statement, encode, opc]
theorem OpcodeByte.reduce (rd : FieldReg) (off : Nat) : OpcodeByte.Statement (.reduce rd off) := by
  simp [Statement, encode, opc]
theorem OpcodeByte.sqrtr (rd ru rv : FieldReg) : OpcodeByte.Statement (.sqrtr rd ru rv) := by
  simp [Statement, encode, opc]
theorem OpcodeByte.map (rx ry ru : FieldReg) : OpcodeByte.Statement (.map rx ry ru) := by
  simp [Statement, encode, opc]

end Sys2Proof.Laws
end

