-- ==== Sys2Proof/Tests/Slice0.lean ====
section
/-! SUPPORT. Tests of the model: the expected results are those of spec/95_test_vectors.md, by the row named in each
comment, or a word written out from the encoding tables of spec/30_encoding.md. The last part holds, for each statement
that has hypotheses, a theorem that concrete data meets them. -/

namespace Sys2Proof.Tests

open Sys2Proof.Machine

-- One test after another: elaborated side by side, their kernel checks hold too many threads at once.
set_option Elab.async false

/-! ### Helpers -/

/-- The state a step or a command answers with. -/
def after (o : Host.Outcome State Fault Refusal) : State :=
  match o with
  | .next t => t
  | .fault _ => State.reset
  | .refused _ => State.reset

/-- s with FE[k] = v. -/
def feIs (s : State) (k : FieldReg) (v : Nat) : State := { s with fe := s.fe.set k.val (BitVec.ofNat 256 v) }

/-- s with the message and the tag in their buffers. -/
def hashing (msg dst : List Byte) : State :=
  { State.reset with
    mem := (Memory.writeBytes [] 0x1000 msg).writeBytes 0x200 dst
    msgLen := BitVec.ofNat 16 msg.length
    dstLen := BitVec.ofNat 16 dst.length }

/-- s with the two lengths. -/
def lengths (m d : Nat) : State := { State.reset with msgLen := BitVec.ofNat 16 m, dstLen := BitVec.ofNat 16 d }

/-- A busy engine, right after it accepted w. -/
def busy (w : Word) : State := State.reset.accept w

/-- The 44-byte tag DST_Q. -/
def dstQ : List Byte :=
  i2osp 0x515555582d5630312d435330322d776974682d503235365f584d443a5348412d3235365f535357555f524f5f 44

/-! ### WellFormed -/

theorem test_wellFormed_xmd : (Instr.xmd 65536).wellFormed = false ∧ (Instr.xmd 65535).wellFormed = true := by decide
theorem test_wellFormed_h2f : (Instr.h2f 0 16).wellFormed = false ∧ (Instr.h2f 0 15).wellFormed = true := by decide
theorem test_wellFormed_reduce : (Instr.reduce 0 65536).wellFormed = false ∧ (Instr.reduce 0 65535).wellFormed = true := by
  decide
theorem test_assemble_refuses : assemble (.xmd 65536) = none ∧ assemble (.h2f 0 16) = none ∧ assemble (.reduce 0 65536) = none := by
  decide

/-! ### Decode: words written out by their fields (R101, R102, R105) -/

theorem test_decode_nop : decode 0b00000000_0000_0000_0000_0000_00000000 = .ok .nop := rfl
theorem test_decode_xmd : decode 0b00000001_0000_0000_0000000001100000 = .ok (.xmd 96) := rfl
theorem test_decode_h2f : decode 0b00000010_0101_0000_0000000000000011 = .ok (.h2f 5 3) := rfl
theorem test_decode_reduce : decode 0b00000011_0110_0000_0000000000110000 = .ok (.reduce 6 48) := rfl
theorem test_decode_sqrtr : decode 0b00000100_0111_0000_0010_0001_00000000 = .ok (.sqrtr 7 2 1) := rfl
theorem test_decode_map : decode 0b00000101_0100_0101_0001_0000_00000000 = .ok (.map 4 5 1) := rfl

/-- The ILLEGAL rows of section 2 whose OPC has no command. -/
theorem test_decode_unassigned : ∀ w ∈ [0x80000000#32, 0x06000000#32, 0xFFFFFFFF#32],
    decode w = .error .unassignedOpcode := by
  intro w hw
  fin_cases hw <;> rfl

/-- The ILLEGAL rows of section 2 with a 1 in a bit that must be 0. -/
theorem test_decode_mustBeZero : ∀ w ∈ [0x00000001#32, 0x01100060#32, 0x01010060#32, 0x02000010#32, 0x02800001#32,
      0x02010001#32, 0x03800000#32, 0x03010000#32, 0x04780100#32, 0x04700101#32, 0x04708100#32, 0x04700900#32,
      0x05A30000#32, 0x05380000#32, 0x05128000#32, 0x05120100#32, 0x05120001#32],
    decode w = .error .mustBeZero := by
  intro w hw
  fin_cases hw <;> rfl

/-- Each row's pattern is the table's row of that name (spec/opcode_table.json), read by `decodeTableWord`. -/
theorem test_decodeTableWord : decodeTableWord 32 0x00000000 = some .nop ∧ decodeTableWord 32 0x01000000 = some (.xmd 0) ∧
    decodeTableWord 32 0x02000000 = some (.h2f 0 0) ∧ decodeTableWord 32 0x03000000 = some (.reduce 0 0) ∧
    decodeTableWord 32 0x04000000 = some (.sqrtr 0 0 0) ∧ decodeTableWord 32 0x05000000 = some (.map 0 0 0) ∧
    decodeTableWord 32 0x06000000 = none := ⟨rfl, rfl, rfl, rfl, rfl, rfl, rfl⟩

/-- The step after `withFetchWord` runs the word's command. -/
theorem test_withFetchWord : step (State.reset.withFetchWord 32 0x03600030) =
    exec (.reduce 6 48) (State.reset.accept 0x03600030) := rfl

/-! ### SHA-256, the expander, the square-root ratio and the map -/

/-- Section 3, row X6: the empty message under the empty tag. -/
theorem test_expand : os2ip (expand [] [] 32) = 0x17b7149d702fd8e4726e0c0962c1f238736a2c3359858c62aecf33bffcb3b908 := by
  decide +kernel

/-- Section 3: H(""). -/
theorem test_sha_empty :
    os2ip (sha256 []) = 0xe3b0c44298fc1c149afbf4c8996fb92427ae41e4649b934ca495991b7852b855 := by decide +kernel

/-- Section 3: 64 bytes of 'a', one block before padding and two after. -/
theorem test_sha_block : os2ip (sha256 (List.replicate 64 0x61)) =
    0xffe054fe7ae0cb6dc65c3af9b61d5209f439851db43d0ba5997337df154668eb := by decide +kernel

/-- Section 5, rows Q5, Q6, Q8 and Q3: the exact roots. -/
theorem test_sqrtRatio_rows : ∀ r ∈ [
      (Config.p - 10, 1, 0xda538e3be1d89b99c978fc675180aab27b8d1ff84c55d5b62ccd3427e433c47f, false),
      (2, 1, 0xaf8bbdfe8cdd5577acbf345b543d28cf402f4e94d3865b97ea0787f2d3aa5d22, true),
      (9, 4, 0x7fffffff800000008000000000000000000000007ffffffffffffffffffffffe, true), (1, 0, 0, false)],
    sqrtRatio r.1 r.2.1 = r.2.2 := by decide +kernel

/-- Section 6, rows M1, M2 and M10 (the source's vector S1): the square branch, exceptional inputs among them. -/
theorem test_sswu_square_rows : ∀ r ∈ [
      (0, 0xa528bd8696bdaf996c65b982d94959d3146fe6a020693090bdba13132375f224,
        0x0e5fb73d16791ce358fb5adb2d33668a3b24099fd8d401f6685e0e994fb4d756),
      (0x95d527d249c8dc5cadbf4c70bb59aaab72c14fffbad5622bd147b86a639ec6d9,
        0xa528bd8696bdaf996c65b982d94959d3146fe6a020693090bdba13132375f224,
        0xf1a048c1e986e31da704a524d2cc9975c4dbf661272bfe0997a1f166b04b28a9),
      (0xad5342c66a6dd0ff080df1da0ea1c04b96e0330dd89406465eeba11582515009,
        0xab640a12220d3ff283510ff3f4b1953d09fad35795140b1c5d64f313967934d5,
        0xdccb558863804a881d4fff3455716c836cef230e5209594ddd33d85c565b19b1)],
    sswu r.1 = ⟨r.2.1, r.2.2, true⟩ := by decide +kernel

/-- Section 6, row M13: the non-square branch of the source's vector S3. -/
theorem test_sswu_nonsquare : sswu 0xafe47f2ea2b10465cc26ac403194dfb68b7f5ee865cda61e9f3e07a537220af1 =
    ⟨0x5219ad0ddef3cc49b714145e91b2f7de6ce0a7a7dc7406c7726c7e373c58cb48,
      0x7950144e52d30acbec7b624c203b1996c99617d0b61c2442354301b191d93ecf, false⟩ := by decide +kernel

/-! ### Commands: at most two small theorems each -/

/-- R260's worked example, with QR = 1. -/
theorem test_nop : (after (exec .nop { State.reset with errCode := 1, qr := true })).errWord = 0 ∧
    (after (exec .nop { State.reset with errCode := 1, qr := true })).statusWord = 0x0000000A := by decide

/-- Row X3: the last of 33 bytes, in the second block; XOUT[33] keeps its value. -/
theorem test_xmd : (after (exec (.xmd 33) { hashing [] dstQ with mem := (hashing [] dstQ).mem ++ [(0x2021, 7)] })).mem.readBytes
      0x2020 2 = [0x37, 7] := by decide +kernel

/-- Rows E1, E3, E5 and E6, and `XMD 8161`. -/
theorem test_xmd_errors : (after (exec (.xmd 96) (lengths 4097 0))).errWord = 0x304 ∧
    (after (exec (.xmd 96) (lengths 0 256))).errWord = 0x002 ∧
    (after (exec (.xmd 65535) (lengths 5000 300))).errWord = 0x304 ∧
    (after (exec (.xmd 65535) (lengths 0 300))).errWord = 0x002 ∧
    (after (exec (.xmd 8161) State.reset)).errWord = 0x003 := by decide +kernel

/-- Row F1: the second element of the empty message under DST_Q. -/
theorem test_h2f : (after (exec (.h2f 0 2) (hashing [] dstQ))).feVal 1 =
    0x8c0f1d43204bd6f6ea70ae8013070a1518b43873bcd850aafa0a9e220e2eea5a := by decide +kernel

/-- Rows E7, E8 and E9, and `H2F FE1, 8`. -/
theorem test_h2f_errors : (after (exec (.h2f 0 0) (lengths 5000 0))).errWord = 0x204 ∧
    (after (exec (.h2f 0 2) (lengths 5000 300))).errWord = 0x304 ∧
    (after (exec (.h2f 0 2) (lengths 0 256))).errWord = 0x002 ∧
    (after (exec (.h2f 1 8) State.reset)).errWord = 0x204 := by decide +kernel

/-- Row R5: 48 bytes of 0xff, at an offset that is no multiple of 4. -/
theorem test_reduce : (after (exec (.reduce 3 1) { State.reset with
      mem := Memory.writeBytes [] 0x2001 (List.replicate 48 0xff) })).feVal 3 =
    0xfffffffe00000001000000000000000200000002fffffffffffffffefffffffd := by decide +kernel

/-- `REDUCE FE0, 8144` and `REDUCE FE0, 8145`. -/
theorem test_reduce_range : (after (exec (.reduce 0 8144) State.reset)).errWord = 0 ∧
    (after (exec (.reduce 0 8145) State.reset)).errWord = 0x304 := by decide +kernel

/-- Row Q1, and R214's aliasing: FE0 = 4 is a source and the destination. -/
theorem test_sqrtr : (after (exec (.sqrtr 0 0 1) (feIs (feIs State.reset 0 4) 1 1))).feVal 0 = 2 ∧
    (after (exec (.sqrtr 0 0 1) (feIs (feIs State.reset 0 4) 1 1))).qr = true := by decide +kernel

/-- Rows E11 and E12: the argument is the first failing operand's register. -/
theorem test_sqrtr_errors :
    (after (exec (.sqrtr 7 1 0) (feIs (feIs State.reset 0 Config.p) 1 Config.p))).errWord = 0x101 ∧
    (after (exec (.sqrtr 7 0 1) (feIs State.reset 1 Config.p))).errWord = 0x101 := by decide +kernel

/-- Row E17: u = p − 1 is read before both writes, and FE0 is also the destination of y (row M5). -/
theorem test_map : (after (exec (.map 1 0 0) (feIs State.reset 0 (Config.p - 1)))).feVal 1 =
      0xdb4698c8497def7b647653b93facc51d5cdd384d642795b77e596b889f6facc7 ∧
    (after (exec (.map 1 0 0) (feIs State.reset 0 (Config.p - 1)))).feVal 0 =
      0xd81790968356b1da49aaaf74c4013c91c18c5b8c36086eb6ce0f63916e2c05a4 := by decide +kernel

/-- Rows E15 and E16. -/
theorem test_map_errors : (after (exec (.map 1 1 0) (feIs State.reset 0 Config.p))).errWord = 0x204 ∧
    (after (exec (.map 1 2 7) (feIs State.reset 7 (2 ^ 256 - 1)))).errWord = 0x701 := by decide +kernel

/-! ### The bus (section 8) -/

/-- Row B4. -/
theorem test_bus_error : (State.reset.hostRead 0x002).responses = [.busError] ∧
    State.reset.hostWrite 0x101 1 = { State.reset with responses := [.busError] } := by decide +kernel

/-- Row B5. -/
theorem test_msgLen : (State.reset.hostWrite 0x018 0xFFFF1234).peek 0x018 = 0x00001234 := by decide

/-- Row B8. -/
theorem test_buffer_word : (State.reset.hostWrite 0x1000 0x61626300).mem = [(0x1000, 0x61), (0x1001, 0x62), (0x1002, 0x63)] := by
  decide

/-- Row B7: the first and the last word of FE0. -/
theorem test_field_words : ((State.reset.hostWrite 0x100 0xad5342c6).hostWrite 0x11C 0x82515009).feVal 0 =
    0xad5342c6 * 2 ^ 224 + 0x82515009 := by decide +kernel

/-- Row B11. -/
theorem test_soft_reset : (((State.reset.hostWrite 0x008 1).hostWrite 0x100 5).hostWrite 0x008 3).peek 0x100 = 0 ∧
    (((State.reset.hostWrite 0x008 1).hostWrite 0x100 5).hostWrite 0x008 3).peek 0x008 = 0 := by decide +kernel

/-- Row B13. -/
theorem test_status_clear : (State.hostWrite { State.reset with done := true, errCode := 1, qr := true } 0x00C 0xFFFFFFFF).peek
    0x00C = 0x0000000C := by decide

/-- P6: a busy engine drops the MSG write, and reads XOUT as 0. -/
theorem test_busy_window : ((busy 0x01000060).hostWrite 0x1000 0x78787878).mem = [] ∧
    ((busy 0x01000060).hostWrite 0x1000 0x78787878).drop = true ∧
    State.peek { busy 0x01000060 with mem := [(0x2000, 5)] } 0x2000 = 0 := by decide +kernel

/-- P1: `HTC FE0` is its three commands. -/
theorem test_htc : hostHTC 0 0 0 0 = hostISSUE 0x02000002 0 ++ hostISSUE 0x05230000 0 ++ hostISSUE 0x05451000 0 := rfl

/-- R109: `ISSUE NOP` with one poll before the completion. -/
theorem test_issue : hostISSUE 0 1 = [.write 0x010 0, .read 0x00C, .engineTurn, .read 0x00C] := rfl

/-! ### Witnesses: the hypotheses of the statements are met -/

theorem witness_DecodeInvertsEncode : (Instr.xmd 65535).wellFormed = true ∧ (Instr.h2f 7 15).wellFormed = true ∧
    (Instr.reduce 7 65535).wellFormed = true ∧ (Instr.sqrtr 7 0 7).wellFormed = true := by decide

theorem witness_EncodeInvertsDecode : decode 0x0370FFFF = .ok (.reduce 7 65535) := rfl

/-- The boundaries of R107's two ranges: OPC 0x06 and 0xFF, and a must-be-zero bit of NOP. -/
theorem witness_IllegalEncodings : (∃ e, decode 0x06000000 = .error e) ∧ (∃ e, decode 0xFF000000 = .error e) ∧
    (∃ e, decode 0x00000001 = .error e) ∧ (∃ e, decode 0x05120001 = .error e) := ⟨⟨_, rfl⟩, ⟨_, rfl⟩, ⟨_, rfl⟩, ⟨_, rfl⟩⟩

theorem witness_StepRunsTheDecodedCommand : (busy 0x05230000).execState = .busy 0x05230000 ∧
    decode 0x05230000 = .ok (.map 2 3 0) ∧ (busy 0x05230000).bus = [] ∧
    (State.reset.withCommand 0x05230000).bus = .engineTurn :: [] := ⟨rfl, rfl, rfl, rfl⟩

theorem witness_StepDeliversTheNextEvent : ∃ a b c d e f : State,
    a.bus = .read 0x00C :: [] ∧ b.bus = .write 0x010 0 :: [.rst] ∧ c.bus = .rst :: [] ∧
    (d.execState = .idle ∧ d.bus = .engineTurn :: []) ∧ (e.execState = .idle ∧ e.bus = []) ∧
    (f.execState = .idle ∧ f.bus = .writeAtCompletion 0x100 1 :: []) :=
  ⟨{ State.reset with bus := [.read 0x00C] }, { State.reset with bus := [.write 0x010 0, .rst] },
    { busy 0 with bus := [.rst] }, { State.reset with bus := [.engineTurn] }, State.reset,
    { State.reset with bus := [.writeAtCompletion 0x100 1] }, rfl, rfl, rfl, ⟨rfl, rfl⟩, ⟨rfl, rfl⟩, rfl, rfl⟩

theorem witness_StepKeepsLegalStates : (busy 0x05220000).legal = true ∧
    ∃ t, step (busy 0x05220000) = .next t ∧ t.errCode = 4 := ⟨by decide, _, rfl, by decide⟩

theorem witness_AcceptedCommandCompletes : (State.reset.withCommand 0x01001FE0).execState = .busy 0x01001FE0 := rfl

theorem witness_CmdWriteAccepts : State.reset.execState = .idle ∧ (busy 0).execState = .busy 0 := ⟨rfl, rfl⟩

/-- A completion with an error, and one without. -/
theorem witness_CompletionIsPrecise : (∃ t, runWord 0x06000000 (busy 0x06000000) = .next t ∧ t.errCode ≠ 0) ∧
    (∃ t, runWord 0 (busy 0) = .next t ∧ t.errCode = 0) := ⟨⟨_, rfl, by decide⟩, ⟨_, rfl, by decide⟩⟩

/-- An ILLEGAL word, and each check's last failing and first passing value. -/
theorem witness_ChecksInPriorityOrder : (∃ e, decode 0x05A30000 = .error e) ∧
    (4096 < (lengths 4097 0).msgLen.toNat ∧ ¬ 4096 < (lengths 4096 0).msgLen.toNat) ∧
    (255 < (lengths 0 256).dstLen.toNat ∧ ¬ 255 < (lengths 0 255).dstLen.toNat) ∧
    (8 < (1 : FieldReg).val + 8 ∧ ¬ (8 = 0 ∨ 8 < (0 : FieldReg).val + 8)) ∧
    (Config.p ≤ (feIs State.reset 7 Config.p).feVal 7 ∧ ¬ Config.p ≤ (feIs State.reset 7 (Config.p - 1)).feVal 7) :=
  ⟨⟨_, rfl⟩, by decide, by decide, by decide, by decide +kernel⟩

/-- A code 1, and a code 4 with subcode 2. -/
theorem witness_ErrorCodesAndCauses :
    (∃ t, runWord 0x05127000 (feIs State.reset 7 Config.p) = .next t ∧ t.errCode = 1 ∧ t.errArg = 7) ∧
    (∃ t, runWord 0x05227000 (busy 0x05227000) = .next t ∧ t.errCode = 4 ∧ t.errArg = 2) :=
  ⟨⟨_, rfl, by decide +kernel, by decide +kernel⟩, ⟨_, rfl, by decide +kernel, by decide +kernel⟩⟩

theorem witness_FailedCommandFailsAgain :
    ∃ t, runWord 0x01001FE1 (busy 0x01001FE1) = .next t ∧ t.errCode ≠ 0 := ⟨_, rfl, by decide +kernel⟩

theorem witness_NopCompletes : (∃ t, exec .nop State.reset = .next t) ∧ State.reset.drop = false ∧
    (0x00FFFFFF : Word).extractLsb' 24 8 = 0 ∧ (0x00FFFFFF : Word) ≠ 0 := ⟨⟨_, rfl⟩, rfl, by decide, by decide⟩

/-- The longest message, tag and output. -/
theorem witness_XmdWritesTheExpansion : (lengths 4096 255).msgLen.toNat ≤ 4096 ∧ (lengths 4096 255).dstLen.toNat ≤ 255 ∧
    8160 ≤ 8160 := by decide

/-- Both ends of the register range. -/
theorem witness_HashToFieldWritesElements : 1 ≤ 8 ∧ (0 : FieldReg).val + 8 ≤ 8 ∧ 1 ≤ 1 ∧ (7 : FieldReg).val + 1 ≤ 8 ∧
    (lengths 4096 255).msgLen.toNat ≤ 4096 ∧ (lengths 4096 255).dstLen.toNat ≤ 255 := by decide

theorem witness_ReduceWritesOneRegister : ∃ off, off ≤ 8144 ∧ off = 8144 := ⟨8144, by decide, rfl⟩

/-- The largest canonical operand, beside 0. -/
theorem witness_SqrtrWritesRootAndFlag : (feIs State.reset 0 (Config.p - 1)).feVal 0 < Config.p ∧
    (feIs State.reset 0 (Config.p - 1)).feVal 1 < Config.p := by decide +kernel

theorem witness_MapWritesPointAndFlag : (1 : FieldReg) ≠ 2 ∧ (feIs State.reset 0 (Config.p - 1)).feVal 0 < Config.p := by
  decide +kernel

theorem witness_HashToFieldIsXmdThenReduce : 1 ≤ 8 ∧ (0 : FieldReg).val + 8 ≤ 8 ∧
    (lengths 4096 255).msgLen.toNat ≤ 4096 ∧ (lengths 4096 255).dstLen.toNat ≤ 255 ∧
    (∃ h, exec (.h2f 0 8) (lengths 4096 255) = .next h) ∧ (∃ x, exec (.xmd (48 * 8)) (lengths 4096 255) = .next x) :=
  ⟨by decide, by decide, by decide, by decide, ⟨_, rfl⟩, ⟨_, rfl⟩⟩

/-- Two states that agree on a command's inputs and differ beside them: in the bytes after the message and the tag, and in
a register that is no source. -/
theorem witness_CommandsReadOnlyTheirInputs : ∃ s t : State, s ≠ t ∧ s.msgLen = t.msgLen ∧ s.dstLen = t.dstLen ∧
    (∀ i < s.msgLen.toNat, s.mem.read (0x1000 + i) = t.mem.read (0x1000 + i)) ∧
    (∀ i < s.dstLen.toNat, s.mem.read (0x200 + i) = t.mem.read (0x200 + i)) ∧
    (∀ i < 48, s.mem.read (0x2000 + 8144 + i) = t.mem.read (0x2000 + 8144 + i)) ∧
    s.feVal 0 = t.feVal 0 ∧ s.feVal 1 = t.feVal 1 ∧
    (∃ s' t', exec (.xmd 0) s = .next s' ∧ exec (.xmd 0) t = .next t' ∧ s'.errCode = 0) ∧
    (∃ s' t', exec (.h2f 0 1) s = .next s' ∧ exec (.h2f 0 1) t = .next t') ∧
    (∃ s' t', exec (.reduce 3 8144) s = .next s' ∧ exec (.reduce 3 8144) t = .next t' ∧ s'.errCode = 0) ∧
    (∃ s' t', exec (.sqrtr 3 0 1) s = .next s' ∧ exec (.sqrtr 3 0 1) t = .next t') ∧
    (∃ s' t', exec (.map 2 3 0) s = .next s' ∧ exec (.map 2 3 0) t = .next t') :=
  ⟨{ State.reset with msgLen := 2, dstLen := 1, mem := [(0x200, 9), (0x1001, 5)] },
    { feIs State.reset 7 1 with msgLen := 2, dstLen := 1, mem := [(0x200, 9), (0x201, 1), (0x1001, 5), (0x1002, 6)] },
    by decide +kernel, rfl, rfl, by decide, by decide, by decide +kernel, rfl, rfl, ⟨_, _, rfl, rfl, by decide +kernel⟩,
    ⟨_, _, rfl, rfl⟩, ⟨_, _, rfl, rfl, by decide +kernel⟩, ⟨_, _, rfl, rfl⟩, ⟨_, _, rfl, rfl⟩⟩

theorem witness_CommandsWriteCanonicalValues : (0 < Config.p ∧ Config.p - 1 < Config.p) ∧
    ∃ t, exec (.map 2 3 0) State.reset = .next t := ⟨by decide, _, rfl⟩

theorem witness_FieldArithmeticIsExact : (0 < Config.p) ∧ Config.p - 1 < Config.p := by decide

theorem witness_InversionIsExact : 0 < Config.p - 1 ∧ Config.p - 1 < Config.p ∧ 0 < 1 ∧ 1 < Config.p := by decide

theorem witness_ExpanderEdgeCases : (1 ≤ 1 ∧ 1 ≤ 32) ∧ (1 ≤ 32 ∧ 32 ≤ 32) ∧ State.reset.msgLen = 0 ∧
    State.reset.dstLen = 0 ∧ 8160 ≤ 8160 := by decide

/-- One block, and the rounds' first and last indices. -/
theorem witness_HashPaddingAndSchedule : (List.replicate 64 (0 : Byte)).length = 64 ∧ 0 < 16 ∧ 15 < 16 ∧ 16 ≤ 16 ∧
    16 ≤ 63 ∧ 63 < 64 := by decide

theorem witness_HashRoundsAndDigest : (List.replicate 64 (0xFF : Byte)).length = 64 ∧ 63 < 64 ∧
    0 < (shaPad []).length / 64 := by decide +kernel

/-- The longest tag and the longest expansion, and its last block. -/
theorem witness_ExpanderLengthAndWork : (List.replicate 255 (0 : Byte)).length ≤ 255 ∧ 8160 ≤ 8160 ∧ 2 ≤ 255 ∧
    255 ≤ (8160 + 31) / 32 ∧ 8159 < 8160 := by decide +kernel

/-- A square ratio, a non-square ratio, and u = 0. -/
theorem witness_SqrtRatioMeaning : (4 < Config.p ∧ (4 : Nat) ≠ 0 ∧ (sqrtRatio 4 1).2 = true) ∧
    (Config.curveZ < Config.p ∧ Config.curveZ ≠ 0 ∧ (sqrtRatio Config.curveZ 1).2 = false) ∧ 0 < Config.p := by
  decide +kernel

theorem witness_SqrtRatioOfZeroDenominator : (feIs State.reset 0 (Config.p - 1)).feVal 0 < Config.p ∧
    (feIs State.reset 0 (Config.p - 1)).feVal 1 = 0 := by decide +kernel

theorem witness_SqrtrOfEqualOperands : (feIs State.reset 0 5).feVal 0 < Config.p ∧ (feIs State.reset 0 5).feVal 0 ≠ 0 ∧
    State.reset.feVal 0 = 0 := by decide +kernel

theorem witness_MapIsTotalAndOnTheCurve : 0 < Config.p ∧ Config.p - 1 < Config.p ∧ Config.p - 1 ≠ 0 := by decide

/-- An operand with a square candidate, one with none, and an exceptional one. -/
theorem witness_MapTakesTheFirstSquareCandidate : (1 : FieldReg) ≠ 2 ∧
    ((feIs State.reset 0 1).feVal 0 < Config.p ∧ (sswu 1).isSquare = true) ∧
    ((feIs State.reset 0 (Config.p - 4)).feVal 0 < Config.p ∧ (sswu (Config.p - 4)).isSquare = false) ∧
    (State.reset.feVal 0 < Config.p ∧ sswuT1 (State.reset.feVal 0) = 0) := by decide +kernel

/-- 0 and r are exceptional; 1 is not. -/
theorem witness_ExceptionalInputsOfTheMap : sswuT1 0 = 0 ∧
    sswuT1 0x95d527d249c8dc5cadbf4c70bb59aaab72c14fffbad5622bd147b86a639ec6d9 = 0 ∧
    0x95d527d249c8dc5cadbf4c70bb59aaab72c14fffbad5622bd147b86a639ec6d9 < Config.p ∧ sswuT1 1 ≠ 0 := by decide +kernel

theorem witness_MisalignedIsABusError : (0x002#16).toNat % 4 ≠ 0 ∧ (0xFFFF#16).toNat % 4 ≠ 0 ∧
    (0x000#16).toNat % 4 = 0 ∧ (0xFFFC#16).toNat % 4 = 0 := by decide

/-- The last word of each buffer. -/
theorem witness_BufferWordsAreBigEndian : State.reset.execState = .idle ∧ 4 * 63 < 256 ∧ 4 * 1023 < 4096 ∧ 4 * 2047 < 8192 ∧
    ((0x200, 256) ∈ [(0x200, 256), (0x1000, 4096), (0x2000, 8192)]) := by decide

theorem witness_FieldRegisterWords : State.reset.execState = .idle ∧ (7 : Fin 8) ≠ 0 ∧
    (0 < 224 - 32 * (0 : Fin 8).val ∧ 256 - 32 * (7 : Fin 8).val ≤ 255) := by decide

/-- The first and the last word of each reserved range. -/
theorem witness_ReservedAndReadOnlyOffsets : ∀ off ∈ [0x020#16, 0x0FC#16, 0x300#16, 0xFFC#16, 0x4000#16, 0xFFFC#16],
    off.toNat % 4 = 0 ∧
    ((0x20 ≤ off.toNat ∧ off.toNat < 0x100) ∨ (0x300 ≤ off.toNat ∧ off.toNat < 0x1000) ∨ 0x4000 ≤ off.toNat) := by
  intro off h
  fin_cases h <;> decide

/-- The first and the last word of each data range, on a busy engine. -/
theorem witness_AccessesWhileBusy : (busy 7).execState = .busy 7 ∧
    (∀ off ∈ [0x100#16, 0x2FC#16, 0x1000#16, 0x3FFC#16], off.toNat % 4 = 0 ∧
      ((0x100 ≤ off.toNat ∧ off.toNat < 0x300) ∨ (0x1000 ≤ off.toNat ∧ off.toNat < 0x4000))) ∧
    (2#32).getLsbD 1 = true ∧ (1#32).getLsbD 1 = false := by
  refine ⟨rfl, fun off h => ?_, by decide, by decide⟩
  fin_cases h <;> decide

theorem witness_InputsAreFixedWhileBusy : (busy 7).execState = .busy 7 ∧
    ∃ t, deliver (.write 0x100 1) (busy 7) = .next t ∧ t.execState = .busy 7 ∧ t.drop = true :=
  ⟨rfl, _, rfl, by decide, by decide⟩

theorem witness_BusyEngineRevealsNoData : (busy 7).execState = .busy 7 ∧ (busy 7).sameButData (feIs (busy 7) 0 5) ∧
    busy 7 ≠ feIs (busy 7) 0 5 := ⟨rfl, rfl, by decide +kernel⟩

theorem witness_ControlRegister : (3#32).getLsbD 1 = true ∧ (1#32).getLsbD 1 = false := by decide

/-- Completions with codes 1, 4 and 0, and the two ways in which a write is no soft reset. -/
theorem witness_ErrorRegister : (∃ t, runWord 0x05127000 (feIs State.reset 7 Config.p) = .next t ∧ t.errCode = 1) ∧
    (∃ t, runWord 0x06000000 (busy 0x06000000) = .next t ∧ t.errCode = 4) ∧
    (∃ t, runWord 0 (busy 0) = .next t ∧ t.errCode ≠ 1 ∧ t.errCode ≠ 4) ∧
    0x014#16 ≠ 0x008#16 ∧ (1#32).getLsbD 1 = false :=
  ⟨⟨_, rfl, by decide +kernel⟩, ⟨_, rfl, by decide⟩, ⟨_, rfl, by decide, by decide⟩, by decide, by decide⟩

/-- Lengths at and past the limits. -/
theorem witness_LengthRegisters : State.reset.execState = .idle ∧ (busy 0).execState = .busy 0 ∧
    (1 ≤ 8 ∧ (0 : FieldReg).val + 8 ≤ 8) ∧ 4096 < (lengths 4097 0).msgLen.toNat ∧
    ((lengths 4096 256).msgLen.toNat ≤ 4096 ∧ 255 < (lengths 4096 256).dstLen.toNat) ∧
    ((lengths 4096 0).msgLen.toNat ≤ 4096 ∧ (lengths 4096 0).dstLen = 0 ∧ 8160 ≤ 8160) := by decide

theorem witness_BothResets : (2#32).getLsbD 1 = true := by decide

/-- The line rises by a completion, and by a CTRL write; the words of the other clauses. -/
theorem witness_InterruptLine : (∃ a b ta tb : State,
    (step a = .next ta ∧ a.irq = false ∧ ta.irq = true) ∧ (step b = .next tb ∧ b.irq = false ∧ tb.irq = true)) ∧
    (2#32).getLsbD 1 = true ∧ State.reset.execState = .idle ∧ ((0#32).getLsbD 0 = false ∧ (0#32).getLsbD 1 = false) :=
  ⟨⟨{ busy 0 with ie := true }, { State.reset with done := true, bus := [.write 0x008 1] }, _, _,
    ⟨rfl, by decide, by decide⟩, ⟨rfl, by decide, by decide⟩⟩, by decide, rfl, by decide⟩

/-- QR changes by a SQRTR of 0 over 0, and by a reset. -/
theorem witness_QrIsWrittenBySqrtrAndMap : ∃ a b ta tb : State,
    (step a = .next ta ∧ ta.qr ≠ a.qr) ∧ (step b = .next tb ∧ tb.qr ≠ b.qr) :=
  ⟨busy 0x04000000, { State.reset with qr := true, bus := [.rst] }, _, _, ⟨rfl, by decide +kernel⟩, ⟨rfl, by decide⟩⟩

theorem witness_CoincidentWrite : (busy 0).execState = .busy 0 ∧ (∃ t, runWord 0 (busy 0) = .next t) ∧
    (0x100#16 ≠ 0x008#16 ∧ 0x100#16 ≠ 0x00C#16 ∧ 0x100#16 ≠ 0x010#16) ∧ (2#32).getLsbD 1 = true ∧
    (1#32).getLsbD 1 = false := ⟨rfl, ⟨_, rfl⟩, by decide, by decide, by decide⟩

/-- Two states with the same public values and different operands, and an unchecked register of another canonicity. -/
theorem witness_LatencyDependsOnPublicValues :
    (feIs State.reset 0 5).samePublic (feIs (feIs State.reset 0 6) 7 Config.p) 0x04700100 ∧
    feIs State.reset 0 5 ≠ feIs (feIs State.reset 0 6) 7 Config.p := by
  refine ⟨⟨rfl, rfl, fun i h => ?_⟩, by decide +kernel⟩
  obtain rfl : Instr.sqrtr 7 0 1 = i := by injection h
  decide +kernel

end Sys2Proof.Tests
end

/-! Settling spec/10_state.md: the control registers, the lengths, ERR and the interrupt line. First the rules about
the state's operations, then the obligations O13, O50, O51, O54, O53 and O56. -/

namespace Sys2Proof.Machine

/-! ### Transactions on a control register -/

/-- The bus answers an aligned read of a control register with its word, and nothing else changes (R72, R81). -/
theorem State.hostRead_control (s : State) {off : Offset} {r : CtlReg} (ha : aligned off = true)
    (hl : locate off = .control r) : s.hostRead off = s.respond (.data (s.controlWord r)) := by
  simp [State.hostRead, State.peek, ha, hl]

/-- An aligned write to a control register is what `writeControl` does with it, and is acknowledged. -/
theorem State.hostWrite_control (s : State) {off : Offset} {r : CtlReg} (v : Word) (ha : aligned off = true)
    (hl : locate off = .control r) : s.hostWrite off v = (s.writeControl r v).respond .written := by
  simp [State.hostWrite, State.poke, ha, hl]

/-- An idle engine accepts a CMD write (R42, R280). -/
theorem State.hostWrite_cmd_idle {s : State} (h : s.execState = .idle) (w : Word) :
    s.hostWrite 0x010#16 w = (s.accept w).respond .written := by
  simp [State.hostWrite_cmd, State.isBusy_of_idle h]

/-- A busy engine drops a CMD write (R42, R82). -/
theorem State.hostWrite_cmd_busy {s : State} {w' : Word} (h : s.execState = .busy w') (w : Word) :
    s.hostWrite 0x010#16 w = s.dropWrite.respond .written := by
  simp [State.hostWrite_cmd, State.isBusy_of_busy h]

/-- An idle engine stores the low half of a MSG_LEN write (R37). -/
theorem State.hostWrite_msgLen_idle {s : State} (h : s.execState = .idle) (v : Word) :
    s.hostWrite 0x018#16 v = ({ s with msgLen := v.setWidth 16 } : State).respond .written := by
  rw [s.hostWrite_control v rfl locate_msgLen]
  simp [State.writeControl, State.isBusy_of_idle h]

/-- An idle engine stores the low half of a DST_LEN write (R38). -/
theorem State.hostWrite_dstLen_idle {s : State} (h : s.execState = .idle) (v : Word) :
    s.hostWrite 0x01C#16 v = ({ s with dstLen := v.setWidth 16 } : State).respond .written := by
  rw [s.hostWrite_control v rfl locate_dstLen]
  simp [State.writeControl, State.isBusy_of_idle h]

/-- A busy engine drops a write to either length register (R37, R38, R82). -/
theorem State.hostWrite_length_busy {s : State} {w : Word} {off : Offset} (h : s.execState = .busy w) (v : Word)
    (hoff : off = 0x018#16 ∨ off = 0x01C#16) : s.hostWrite off v = s.dropWrite.respond .written := by
  rcases hoff with rfl | rfl
  · rw [s.hostWrite_control v rfl locate_msgLen]
    simp [State.writeControl, State.isBusy_of_busy h]
  · rw [s.hostWrite_control v rfl locate_dstLen]
    simp [State.writeControl, State.isBusy_of_busy h]

/-- CTRL reads as IE alone (R39). -/
theorem State.ctrlWord_eq (s : State) : s.ctrlWord = if s.ie then 1 else 0 := by
  cases h : s.ie <;> simp [State.ctrlWord, flagBit, h]

/-! ### The word of ERR -/

/-- Bit by bit, ERR is CODE, then ARG, then zeros (R43). -/
theorem State.errWord_getLsbD (s : State) (i : Nat) : s.errWord.getLsbD i =
    if i < 8 then s.errCode.getLsbD i else s.errArg.getLsbD (i - 8) := by
  simp only [State.errWord, BitVec.getLsbD_append]
  split
  · rfl
  · split
    · rfl
    · rw [BitVec.getLsbD_of_ge s.errArg _ (by omega)]; simp

theorem State.errWord_code (s : State) : s.errWord.extractLsb' 0 8 = s.errCode := by
  ext i hi
  simp [s.errWord_getLsbD, ← BitVec.getLsbD_eq_getElem, hi]

theorem State.errWord_arg (s : State) : s.errWord.extractLsb' 8 4 = s.errArg := by
  ext i hi
  simp [s.errWord_getLsbD, ← BitVec.getLsbD_eq_getElem, hi]

theorem State.errWord_high (s : State) {b : Nat} (h : 12 ≤ b) : s.errWord.getLsbD b = false := by
  rw [s.errWord_getLsbD, if_neg (by omega), BitVec.getLsbD_of_ge _ _ (by omega)]

theorem State.errWord_toNat (s : State) : s.errWord.toNat = 256 * s.errArg.toNat + s.errCode.toNat := by
  have hcode : s.errCode.toNat < 2 ^ 8 := s.errCode.isLt
  rw [State.errWord, BitVec.toNat_append, BitVec.toNat_append, ← Nat.shiftLeft_add_eq_or_of_lt hcode, Nat.shiftLeft_eq]
  simp [Nat.mul_comm]

theorem State.errWord_congr {s t : State} (hc : t.errCode = s.errCode) (ha : t.errArg = s.errArg) :
    t.errWord = s.errWord := by
  rw [State.errWord, State.errWord, hc, ha]

/-! ### The interrupt line, update by update -/

@[simp] theorem State.respond_irq (s : State) (r : BusResponse) : (s.respond r).irq = s.irq := rfl
@[simp] theorem State.resetEngine_irq (s : State) : s.resetEngine.irq = false := rfl
@[simp] theorem State.dropWrite_irq (s : State) : s.dropWrite.irq = s.irq := rfl
@[simp] theorem State.accept_irq (s : State) (w : Word) : (s.accept w).irq = false := by simp [State.irq]
@[simp] theorem State.writeStatus_irq (s : State) (v : Word) : (s.writeStatus v).irq = (s.irq && !v.getLsbD 1) :=
  (Bool.and_assoc s.ie s.done _).symm

/-! ### What a host write leaves -/

/-- A host write that is no soft reset leaves ERR, an accept among them (R43, R280). -/
theorem State.hostWrite_errWord (s : State) {off : Offset} {v : Word} (h : off ≠ 0x008#16 ∨ v.getLsbD 1 = false) :
    (s.hostWrite off v).errWord = s.errWord := by
  by_cases ha : off.toNat % 4 = 0
  · rw [s.hostWrite_aligned v ha]
    rcases s.poke_cases off v ha with e | ⟨e, -⟩ | ⟨hoff, e⟩ | ⟨-, e⟩ | ⟨-, -, e⟩ | ⟨-, e⟩ | ⟨-, e⟩ | ⟨-, k, j, e⟩ |
      ⟨-, -, e⟩
    case inr.inr.inl =>
      rw [e, s.writeCtrl_ie (h.resolve_left (not_not_intro hoff))]; rfl
    all_goals rw [e]; rfl
  · rw [s.hostWrite_misaligned v ha]; rfl

/-- Only an accept makes an idle engine busy (R48). -/
theorem State.hostWrite_execState_idle {s : State} (hs : s.execState = .idle) {off : Offset} (v : Word)
    (hoff : off ≠ 0x010#16) : (s.hostWrite off v).execState = .idle := by
  by_cases ha : off.toNat % 4 = 0
  · rw [s.hostWrite_aligned v ha, State.respond_execState]
    rcases s.poke_cases off v ha with e | ⟨e, -⟩ | ⟨-, e⟩ | ⟨-, e⟩ | ⟨hcmd, -⟩ | ⟨-, e⟩ | ⟨-, e⟩ | ⟨-, k, j, e⟩ |
      ⟨-, -, e⟩
    case inr.inr.inl =>
      rw [e, State.writeCtrl]
      split
      · rfl
      · exact hs
    case inr.inr.inr.inr.inl => exact absurd hcmd hoff
    all_goals rw [e]; exact hs
  · rw [s.hostWrite_misaligned v ha]; exact hs

/-- The interrupt line rises by a host write only where CTRL.IE is set while DONE is 1 (R283). -/
theorem State.hostWrite_irq_rises {s : State} {off : Offset} {v : Word} (hs : s.irq = false)
    (ht : (s.hostWrite off v).irq = true) :
    off = 0x008#16 ∧ v.getLsbD 0 = true ∧ s.done = true ∧ s.ie = false ∧ (s.hostWrite off v).ie = true := by
  have hlow : ¬ s.irq = true := by simp [hs]
  by_cases ha : off.toNat % 4 = 0
  · rw [s.hostWrite_aligned v ha] at ht ⊢
    rcases s.poke_cases off v ha with e | ⟨e, -⟩ | ⟨hoff, e⟩ | ⟨-, e⟩ | ⟨-, -, e⟩ | ⟨-, e⟩ | ⟨-, e⟩ | ⟨-, k, j, e⟩ |
      ⟨-, -, e⟩ <;> rw [e] at ht ⊢
    case inr.inr.inl =>
      cases hv : v.getLsbD 1 with
      | true => rw [s.writeCtrl_srst hv] at ht; exact absurd ht Bool.false_ne_true
      | false =>
        rw [s.writeCtrl_ie hv] at ht ⊢
        obtain ⟨hie, hdone⟩ : v.getLsbD 0 = true ∧ s.done = true := by simpa [State.irq] using ht
        exact ⟨hoff, hie, hdone, by simpa [State.irq, hdone] using hs, hie⟩
    case inr.inr.inr.inl => simp [hs] at ht
    case inr.inr.inr.inr.inl => simp at ht
    all_goals exact absurd ht hlow
  · rw [s.hostWrite_misaligned v ha] at ht
    exact absurd ht hlow

/-! ### Completions -/

/-- Everything that a completion step can leave: the state before it but for ERR, DONE and the execution state, or the
command's writes with ERR cleared (R272, R273, R281). -/
theorem runWord_cases {w : Word} {s t : State} (h : runWord w s = .next t) :
    (∃ e, wordResult w s = .error e ∧
      t = { s with errCode := errorCode e, errArg := errorArg e, done := true, execState := .idle }) ∨
    (∃ u, wordResult w s = .ok u ∧
      t = { s with fe := u.fe, mem := u.mem, qr := u.qr, errCode := 0, errArg := 0, done := true,
                   execState := .idle }) := by
  rw [runWord_eq] at h
  cases h
  cases hr : wordResult w s with
  | error e => exact .inl ⟨e, rfl, rfl⟩
  | ok u =>
    refine .inr ⟨u, rfl, ?_⟩
    rw [wordResult_frame hr]; rfl

theorem runWord_ie {w : Word} {s t : State} (h : runWord w s = .next t) : t.ie = s.ie := by
  rcases runWord_cases h with ⟨e, -, rfl⟩ | ⟨u, -, rfl⟩ <;> rfl

theorem runWord_done {w : Word} {s t : State} (h : runWord w s = .next t) : t.done = true := by
  rcases runWord_cases h with ⟨e, -, rfl⟩ | ⟨u, -, rfl⟩ <;> rfl

theorem runWord_execState {w : Word} {s t : State} (h : runWord w s = .next t) : t.execState = .idle := by
  rcases runWord_cases h with ⟨e, -, rfl⟩ | ⟨u, -, rfl⟩ <;> rfl

/-- A completion, with or without an error, leaves the line at IE (R283). -/
theorem runWord_irq {w : Word} {s t : State} (h : runWord w s = .next t) : t.irq = s.ie := by
  rw [State.irq, runWord_ie h, runWord_done h, Bool.and_true]

/-- The errors that a command can raise (R274 to R278): a checked operand that is not canonical, or one of the errors
that no operand's value decides. IllegalCommand(1) is none of them: it is left to words that do not decode. -/
theorem commandResult_error {i : Instr} {s : State} {e : CmdError} (h : commandResult i s = .error e) :
    (∃ r ∈ checkedOperands i s, Config.p ≤ s.feVal r ∧ e = .invalidFieldEncoding r) ∨
    e = .domainTagTooLong ∨ e = .outputTooLarge ∨ e = .illegalCommand .registers ∨ e = .illegalCommand .range := by
  have hlen : ∀ {e'}, s.hashLengthError = some e' → e' = .domainTagTooLong ∨ e' = .illegalCommand .range := by
    intro e' h'
    rcases State.hashLengthError_some.mp h' with ⟨-, rfl⟩ | ⟨-, -, rfl⟩ <;> simp
  cases i with
  | nop => cases h
  | xmd n =>
    simp only [commandResult, xmdResult] at h
    split at h
    · rename_i he
      cases h
      rcases hlen he with rfl | rfl <;> simp
    · split at h <;> cases h
      simp
  | h2f rd count =>
    simp only [commandResult, h2fResult] at h
    split at h
    · cases h; simp
    · split at h
      · rename_i he
        cases h
        rcases hlen he with rfl | rfl <;> simp
      · cases h
  | reduce rd off =>
    simp only [commandResult, reduceResult] at h
    split at h <;> cases h
    simp
  | sqrtr rd ru rv =>
    simp only [commandResult, sqrtrResult] at h
    split at h
    · rename_i he
      cases h
      obtain ⟨hp, rfl⟩ := State.fieldOperand_error.mp he
      exact .inl ⟨ru, by simp only [checkedOperands]; split <;> simp, hp, rfl⟩
    · rename_i hu
      obtain ⟨-, hru⟩ := State.fieldOperand_ok.mp hu
      split at h
      · rename_i he
        cases h
        obtain ⟨hp, rfl⟩ := State.fieldOperand_error.mp he
        exact .inl ⟨rv, by simp [checkedOperands, canon, hru], hp, rfl⟩
      · cases h
  | map rx ry ru =>
    simp only [commandResult, mapResult] at h
    split at h
    · cases h; simp
    · rename_i hne
      split at h
      · rename_i he
        cases h
        obtain ⟨hp, rfl⟩ := State.fieldOperand_error.mp he
        exact .inl ⟨ru, by simp [checkedOperands, hne], hp, rfl⟩
      · cases h

/-- The errors of a word: IllegalCommand(1) where it does not decode (R106), and its command's otherwise. -/
theorem wordResult_error {w : Word} {s : State} {e : CmdError} (h : wordResult w s = .error e) :
    ((∃ x, decode w = .error x) ∧ e = .illegalCommand .undecodable) ∨
    (∃ i, decode w = .ok i ∧ commandResult i s = .error e) := by
  simp only [wordResult] at h
  split at h
  · exact .inr ⟨_, by assumption, h⟩
  · cases h; exact .inl ⟨⟨_, by assumption⟩, rfl⟩

/-- The argument that each code of ERR comes with (R43, R271, R275, R278). -/
theorem runWord_errArg {w : Word} {s t : State} (h : runWord w s = .next t) :
    (t.errCode = 1 → ∃ i, decode w = .ok i ∧ ∃ r ∈ checkedOperands i s,
      Config.p ≤ s.feVal r ∧ t.errArg.toNat = r.val) ∧
    (t.errCode = 4 → 1 ≤ t.errArg.toNat ∧ t.errArg.toNat ≤ 3 ∧ (t.errArg = 1 ↔ ∃ e, decode w = .error e)) ∧
    (t.errCode ≠ 1 → t.errCode ≠ 4 → t.errArg = 0) := by
  rcases runWord_cases h with ⟨e, hr, rfl⟩ | ⟨u, -, rfl⟩
  · rcases wordResult_error hr with ⟨hill, rfl⟩ | ⟨i, hi, hc⟩
    · simp [errorCode, errorArg, subcodeArg, hill]
    · rcases commandResult_error hc with ⟨r, hmem, hp, rfl⟩ | rfl | rfl | rfl | rfl
      · have harg : (BitVec.ofNat 4 r.val).toNat = r.val := by
          rw [BitVec.toNat_ofNat, Nat.mod_eq_of_lt (by omega)]
        refine ⟨fun _ => ⟨i, hi, r, hmem, hp, harg⟩, fun h4 => ?_, fun h1 => absurd rfl h1⟩
        simp [errorCode] at h4
      all_goals simp [errorCode, errorArg, subcodeArg, hi]
  · simp

/-! ### The lengths at their use -/

/-- XMD and H2F, the latter with registers that fit, raise the error of the lengths (R160, R191, R274). -/
theorem commandResult_of_lengthError {s : State} {e : CmdError} {i : Instr} {n count : Nat} {rd : FieldReg}
    (hc : 1 ≤ count) (h8 : rd.val + count ≤ 8) (hi : i = .xmd n ∨ i = .h2f rd count)
    (he : s.hashLengthError = some e) : commandResult i s = .error e := by
  rcases hi with rfl | rfl
  · simp [commandResult, xmdResult, he]
  · have hregs : ¬ (count = 0 ∨ 8 < rd.val + count) := by omega
    simp [commandResult, h2fResult, he, hregs]

/-- XMD and H2F raise no error over lengths that pass and operands that fit (R160, R191, R274). -/
theorem commandResult_of_lengths {s : State} {i : Instr} {n count : Nat} {rd : FieldReg}
    (hc : 1 ≤ count) (h8 : rd.val + count ≤ 8) (hn : n ≤ 8160) (hi : i = .xmd n ∨ i = .h2f rd count)
    (he : s.hashLengthError = none) : ∃ t, commandResult i s = .ok t := by
  rcases hi with rfl | rfl
  · have hmax : ¬ Config.maxXmd < n := Nat.not_lt.mpr hn
    simp [commandResult, xmdResult, he, hmax]
  · have hregs : ¬ (count = 0 ∨ 8 < rd.val + count) := by omega
    simp [commandResult, h2fResult, he, hregs]

/-! ### What raises the interrupt line -/

/-- An event that raises the line is a completion, or a CTRL write that sets IE while DONE is 1 (R283). -/
theorem deliver_irq_rises {e : BusEvent} {s t : State} (h : deliver e s = .next t) (hs : s.irq = false)
    (ht : t.irq = true) :
    ((∃ w, s.execState = .busy w) ∧ t.execState = .idle) ∨
    (s.done = true ∧ s.ie = false ∧ t.ie = true ∧ ∃ v, v.getLsbD 0 = true ∧
      (e = .write 0x008#16 v ∨ e = .writeAtCompletion 0x008#16 v)) := by
  have hlow : ¬ s.irq = true := by simp [hs]
  rcases deliver_cases h with ⟨off, -, rfl⟩ | ⟨off, v, rfl, rfl⟩ | ⟨-, rfl⟩ | ⟨-, -, rfl⟩ | ⟨w, -, hw, hr⟩ |
    ⟨off, v, rfl, -, rfl⟩ | ⟨off, v, w, u, rfl, hw, hr, rfl⟩
  · exact absurd ht hlow
  · obtain ⟨rfl, hv, hdone, hie, hie'⟩ := State.hostWrite_irq_rises hs ht
    exact .inr ⟨hdone, hie, hie', v, hv, .inl rfl⟩
  · exact absurd ht Bool.false_ne_true
  · exact absurd ht hlow
  · exact .inl ⟨⟨w, hw⟩, runWord_execState hr⟩
  · obtain ⟨rfl, hv, hdone, hie, hie'⟩ := State.hostWrite_irq_rises hs ht
    exact .inr ⟨hdone, hie, hie', v, hv, .inr rfl⟩
  · have hu : u.execState = .idle := runWord_execState hr
    refine .inl ⟨⟨w, hw⟩, ?_⟩
    rcases s.writeAtCompletion_cases u off v with ⟨-, -, e⟩ | ⟨-, e⟩ | ⟨-, e⟩ | ⟨-, hcmd, -, e⟩ <;> rw [e]
    · rfl
    · exact hu
    · exact hu
    · exact State.hostWrite_execState_idle hu v hcmd

/-- A step that raises the line is a completion, or a CTRL write that sets IE while DONE is 1 (R283). -/
theorem step_irq_rises {s t : State} (h : step s = .next t) (hs : s.irq = false) (ht : t.irq = true) :
    ((∃ w, s.execState = .busy w) ∧ t.execState = .idle) ∨
    (s.done = true ∧ s.ie = false ∧ t.ie = true ∧ ∃ v rest, v.getLsbD 0 = true ∧
      (s.bus = .write 0x008#16 v :: rest ∨ s.bus = .writeAtCompletion 0x008#16 v :: rest)) := by
  cases hb : s.bus with
  | nil =>
    rw [step_nil hb] at h
    rcases engineTurn_cases h with ⟨-, rfl⟩ | ⟨w, hw, hr⟩
    · exact absurd ht (by simp [hs])
    · exact .inl ⟨⟨w, hw⟩, runWord_execState hr⟩
  | cons e rest =>
    rw [step_cons hb] at h
    rcases deliver_irq_rises h hs ht with hcompletes | ⟨hdone, hie, hie', v, hv, he⟩
    · exact .inl hcompletes
    · exact .inr ⟨hdone, hie, hie', v, rest, hv, he.imp (congrArg (· :: rest)) (congrArg (· :: rest))⟩

/-! ### The obligations -/

/-- Settles O13: the two execution states of a CMD write, and the read of CMD. -/
theorem cmdWriteAccepts : Obligations.CmdWriteAccepts :=
  ⟨fun s w => ⟨fun h => State.hostWrite_cmd_idle h w, fun _ h => State.hostWrite_cmd_busy h w,
    s.hostRead_control rfl locate_cmd⟩, rfl⟩

/-- Settles O50: ID and VERSION are control registers whose word is a constant and whose write does nothing. -/
theorem identityRegisters : Obligations.IdentityRegisters := fun s v =>
  ⟨s.hostRead_control rfl locate_id, s.hostWrite_control v rfl locate_id,
    s.hostRead_control rfl locate_version, s.hostWrite_control v rfl locate_version⟩

/-- Settles O51, by the bit SRST of the written word. -/
theorem controlRegister : Obligations.ControlRegister := by
  refine ⟨fun s v => ⟨fun hsrst => ?_, fun hsrst => ?_, ?_⟩, rfl⟩
  · rw [s.hostWrite_ctrl v, s.writeCtrl_srst hsrst]; rfl
  · rw [s.hostWrite_ctrl v, s.writeCtrl_ie hsrst]; rfl
  · rw [s.hostRead_control rfl locate_ctrl, ← s.ctrlWord_eq]; rfl

/-- Settles O54: stored while idle, dropped while busy, read back, and checked by XMD and H2F. -/
theorem lengthRegisters : Obligations.LengthRegisters := by
  refine ⟨fun s v hs => ?_, fun s w v hs => ?_, fun s => ?_, fun s n rd count hc h8 => ?_, rfl, rfl⟩
  · rw [State.hostWrite_msgLen_idle hs, State.hostWrite_dstLen_idle hs,
      BitVec.setWidth_eq_extractLsb' (by decide)]
    exact ⟨rfl, rfl⟩
  · exact ⟨State.hostWrite_length_busy hs v (.inl rfl), State.hostWrite_length_busy hs v (.inr rfl)⟩
  · rw [s.hostRead_control rfl locate_msgLen, s.hostRead_control rfl locate_dstLen,
      BitVec.ofNat_toNat, BitVec.ofNat_toNat]
    exact ⟨rfl, rfl⟩
  · refine ⟨fun hm i hi => ?_, fun hm hd i hi => ?_, fun hm hd hn i hi => ?_⟩
    · have he : s.hashLengthError = some (.illegalCommand .range) := State.hashLengthError_some.mpr (.inl ⟨hm, rfl⟩)
      rw [exec_eq, commandResult_of_lengthError hc h8 hi he]; rfl
    · have he : s.hashLengthError = some .domainTagTooLong := State.hashLengthError_some.mpr (.inr ⟨hm, hd, rfl⟩)
      rw [exec_eq, commandResult_of_lengthError hc h8 hi he]; rfl
    · have he : s.hashLengthError = none := State.hashLengthError_none.mpr ⟨hm, by simp [hd]⟩
      obtain ⟨u, hu⟩ := commandResult_of_lengths hc h8 hn hi he
      exact ⟨_, exec_eq i s, by rw [hu, State.finish_ok_errCode]⟩

/-- Settles O53: the word of ERR field by field, the argument of each code at a completion, and the frame of the host's
transactions. -/
theorem errorRegister : Obligations.ErrorRegister := by
  refine ⟨fun s v => ⟨⟨s.errWord, s.hostRead_control rfl locate_err, s.errWord_code, s.errWord_arg,
    fun _ hb => s.errWord_high hb, s.errWord_toNat, rfl⟩, s.hostWrite_control v rfl locate_err⟩,
    fun _ _ _ h => runWord_errArg h, fun s off v => ⟨rfl, fun h => s.hostWrite_errWord h⟩, ?_⟩
  rw [State.reset.hostRead_control rfl locate_err]; rfl

/-- Settles O56: the clauses of R283 one by one, and `step_irq_rises` for the last. -/
theorem interruptLine : Obligations.InterruptLine := by
  refine ⟨fun _ => rfl, fun _ _ _ h => runWord_irq h, fun s v hv => ?_, fun s w hs => ?_, fun _ => rfl,
    fun s v hie hsrst => ?_, fun _ => rfl, fun _ _ h hs ht => step_irq_rises h hs ht⟩
  · rw [s.hostWrite_status v, State.respond_irq, State.writeStatus_irq, hv]; simp
  · rw [State.hostWrite_cmd_idle hs, State.respond_irq, State.accept_irq]
  · rw [s.hostWrite_ctrl v, s.writeCtrl_ie hsrst, hie]; exact ⟨rfl, rfl⟩

end Sys2Proof.Machine

/-! Settling spec/20_memory.md: the transactions of the host on the window. First what each kind of location answers
and stores, idle and busy, then the obligations O44, O45, O46, O47 and O42. -/

namespace Sys2Proof.Machine

/-! ### The address map and the bytes of a word -/

/-- The buffer ranges of R79: DST alone, and MSG and XOUT side by side. -/
theorem inBuffer_iff (a : Nat) :
    inBuffer a = true ↔ (0x200 ≤ a ∧ a < 0x300) ∨ (0x1000 ≤ a ∧ a < 0x4000) := by
  simp only [inBuffer, Bool.or_eq_true, Bool.and_eq_true, decide_eq_true_eq]
  simp only [Config.dstBase, Config.dstSize, Config.msgBase, Config.msgSize, Config.xoutBase, Config.xoutSize]
  omega

/-- The data ranges of R79 hold the field registers and the buffers. -/
theorem locate_data {off : Offset}
    (h : (0x100 ≤ off.toNat ∧ off.toNat < 0x300) ∨ (0x1000 ≤ off.toNat ∧ off.toNat < 0x4000)) :
    (∃ k j, locate off = .feWord k j) ∨ ∃ a, locate off = .bufferWord a := by
  by_cases hfe : off.toNat < 0x200
  · exact .inl (locate_feWord (by omega))
  · exact .inr ⟨_, locate_buffer ((inBuffer_iff _).mpr (by omega))⟩

/-- The read-only control registers of R80. -/
theorem locate_readOnly {off : Offset} (h : off = 0x000#16 ∨ off = 0x004#16 ∨ off = 0x014#16) :
    locate off = .control .id ∨ locate off = .control .version ∨ locate off = .control .err := by
  rcases h with rfl | rfl | rfl
  · exact .inl locate_id
  · exact .inr (.inl locate_version)
  · exact .inr (.inr locate_err)

/-- Word k of a buffer stands 4k bytes after its base, which is a multiple of 4 (R75, R79). -/
theorem locate_bufferTable {base size k : Nat} (hb : (base, size) ∈ [(0x200, 256), (0x1000, 4096), (0x2000, 8192)])
    (hk : 4 * k < size) :
    (BitVec.ofNat 16 (base + 4 * k)).toNat % 4 = 0 ∧
      locate (BitVec.ofNat 16 (base + 4 * k)) = .bufferWord (base + 4 * k) := by
  have hrange : base % 4 = 0 ∧ ((0x200 ≤ base ∧ base + size ≤ 0x300) ∨ (0x1000 ≤ base ∧ base + size ≤ 0x4000)) := by
    simp only [List.mem_cons, Prod.mk.injEq, List.not_mem_nil, or_false] at hb
    omega
  have hoff : (BitVec.ofNat 16 (base + 4 * k)).toNat = base + 4 * k :=
    Nat.mod_eq_of_lt (show base + 4 * k < 2 ^ 16 by omega)
  have hloc := locate_buffer (off := BitVec.ofNat 16 (base + 4 * k)) ((inBuffer_iff _).mpr (by omega))
  rw [hoff] at hloc ⊢
  exact ⟨by omega, hloc⟩

/-- The offsets of the field registers' words are multiples of 4 (R76). -/
theorem feWord_offset_aligned (k j : Fin 8) :
    (BitVec.ofNat 16 (0x100 + 32 * k.val + 4 * j.val)).toNat % 4 = 0 := by
  simp only [BitVec.toNat_ofNat]
  omega

/-- The big-endian value of the four bytes of a word (R75). -/
theorem bytesWord_toNat (a b c d : Byte) :
    (bytesWord [a, b, c, d]).toNat = 16777216 * a.toNat + 65536 * b.toNat + 256 * c.toNat + d.toNat := by
  have hlt : os2ip [a, b, c, d] < 2 ^ 32 := by simpa using os2ip_lt [a, b, c, d]
  rw [bytesWord, BitVec.toNat_ofNat, Nat.mod_eq_of_lt hlt]
  simp only [os2ip, List.foldl_cons, List.foldl_nil]
  omega

/-- The four bytes of a stored word, each read back (R75). -/
theorem Memory.read_writeBytes_word (m : Memory) (a : Nat) (v : Word) {i : Nat} (hi : i < 4) :
    (m.writeBytes a (wordBytes v)).read (a + i) = (wordBytes v).getD i 0 := by
  rw [Memory.read_writeBytes, if_pos (by rw [wordBytes_length]; omega), Nat.add_sub_cancel_left]

/-! ### Reads, by location -/

theorem State.hostRead_misaligned (s : State) {off : Offset} (h : off.toNat % 4 ≠ 0) :
    s.hostRead off = s.respond .busError := by
  have : aligned off = false := by simp [aligned, h]
  simp [State.hostRead, this]

theorem State.hostRead_aligned (s : State) {off : Offset} (h : off.toNat % 4 = 0) :
    s.hostRead off = s.respond (.data (s.peek off)) := by
  rw [State.hostRead, if_pos ((aligned_iff off).mpr h)]

theorem State.peek_control (s : State) {off : Offset} {r : CtlReg} (h : locate off = .control r) :
    s.peek off = s.controlWord r := by
  rw [State.peek, h]

theorem State.peek_reserved (s : State) {off : Offset} (h : locate off = .reserved) : s.peek off = 0 := by
  rw [State.peek, h]

/-- An idle engine shows its field registers (R76). -/
theorem State.peek_feWord_idle {s : State} (hs : s.execState = .idle) {off : Offset} {k j : Fin 8}
    (h : locate off = .feWord k j) : s.peek off = feWord s.fe[k] j := by
  simp [State.peek, h, State.isBusy_of_idle hs]

/-- An idle engine shows its buffers (R75). -/
theorem State.peek_bufferWord_idle {s : State} (hs : s.execState = .idle) {off : Offset} {a : Nat}
    (h : locate off = .bufferWord a) : s.peek off = bytesWord (s.mem.readBytes a 4) := by
  simp [State.peek, h, State.isBusy_of_idle hs]

/-- A busy engine hides its data (R82). -/
theorem State.peek_data_busy {s : State} {w : Word} (hs : s.execState = .busy w) {off : Offset}
    (h : (∃ k j, locate off = .feWord k j) ∨ ∃ a, locate off = .bufferWord a) : s.peek off = 0 := by
  rcases h with ⟨k, j, hl⟩ | ⟨a, hl⟩ <;> simp [State.peek, hl, State.isBusy_of_busy hs]

/-! ### Writes, by location -/

/-- The engine never touches the bus's own list of answers, a soft reset included (log entry 13). -/
theorem State.poke_responses (s : State) {off : Offset} (v : Word) (ha : off.toNat % 4 = 0) :
    (s.poke off v).responses = s.responses := by
  rcases s.poke_cases off v ha with e | ⟨e, -⟩ | ⟨-, e⟩ | ⟨-, e⟩ | ⟨-, -, e⟩ | ⟨-, e⟩ | ⟨-, e⟩ | ⟨-, k, j, e⟩ |
    ⟨-, -, e⟩ <;> rw [e]
  case inr.inr.inl =>
    rw [State.writeCtrl]
    split <;> rfl
  all_goals rfl

theorem State.poke_reserved (s : State) {off : Offset} (v : Word) (h : locate off = .reserved) :
    s.poke off v = s := by
  rw [State.poke, h]

/-- ID, VERSION and ERR ignore writes (R80). -/
theorem State.poke_readOnly (s : State) {off : Offset} (v : Word)
    (h : locate off = .control .id ∨ locate off = .control .version ∨ locate off = .control .err) :
    s.poke off v = s := by
  rcases h with h | h | h <;> rw [State.poke, h] <;> rfl

/-- An idle engine stores the word in its field register (R76). -/
theorem State.poke_feWord_idle {s : State} (hs : s.execState = .idle) {off : Offset} {k j : Fin 8}
    (h : locate off = .feWord k j) (v : Word) :
    s.poke off v = { s with fe := s.fe.set k.val (feSetWord s.fe[k] j v) } := by
  simp [State.poke, h, State.isBusy_of_idle hs]

/-- An idle engine stores the word's bytes in the buffer (R75). -/
theorem State.poke_bufferWord_idle {s : State} (hs : s.execState = .idle) {off : Offset} {a : Nat}
    (h : locate off = .bufferWord a) (v : Word) :
    s.poke off v = { s with mem := s.mem.writeBytes a (wordBytes v) } := by
  simp [State.poke, h, State.isBusy_of_idle hs]

/-- A busy engine drops writes to its data (R82). -/
theorem State.poke_data_busy {s : State} {w : Word} (hs : s.execState = .busy w) {off : Offset} (v : Word)
    (h : (∃ k j, locate off = .feWord k j) ∨ ∃ a, locate off = .bufferWord a) : s.poke off v = s.dropWrite := by
  rcases h with ⟨k, j, hl⟩ | ⟨a, hl⟩ <;> simp [State.poke, hl, State.isBusy_of_busy hs]

/-! ### The obligations -/

/-- Settles O44: the address map puts the word at its buffer offset, `bytesWord_toNat` weighs the four bytes read, and
`Memory.read_writeBytes` gives the bytes stored and the bytes kept. -/
theorem bufferWordsAreBigEndian : Obligations.BufferWordsAreBigEndian := by
  intro s base size k v hs hb hk
  obtain ⟨ha, hl⟩ := locate_bufferTable hb hk
  rw [s.hostRead_aligned ha, State.peek_bufferWord_idle hs hl, s.hostWrite_aligned v ha,
    State.poke_bufferWord_idle hs hl]
  refine ⟨⟨_, rfl, bytesWord_toNat _ _ _ _⟩, _, rfl, rfl, ?_, ?_, ?_, ?_, fun a hout => ?_⟩
  · exact s.mem.read_writeBytes_word _ v (i := 0) (by decide)
  · exact s.mem.read_writeBytes_word _ v (i := 1) (by decide)
  · exact s.mem.read_writeBytes_word _ v (i := 2) (by decide)
  · exact s.mem.read_writeBytes_word _ v (i := 3) (by decide)
  · exact s.mem.read_writeBytes_outside _ _ a hout

/-- Settles O45: the address map names word j of register k, and `feSetWord` replaces its 32 bits alone. -/
theorem fieldRegisterWords : Obligations.FieldRegisterWords := by
  intro s k j v hs
  have ha := feWord_offset_aligned k j
  rw [s.hostRead_aligned ha, State.peek_feWord_idle hs (locate_fe k j), s.hostWrite_aligned v ha,
    State.poke_feWord_idle hs (locate_fe k j)]
  refine ⟨rfl, _, rfl, rfl, ?_, fun b hb => ?_, fun k' hk => ?_⟩
  · simp only [State.respond_fe, Fin.getElem_fin, Vector.getElem_set_self]
    exact feWord_feSetWord _ j v
  · have hkeep : ¬ (feWordShift j ≤ b ∧ b < feWordShift j + 32) := by rw [feWordShift]; omega
    simpa [hkeep] using feSetWord_getLsbD s.fe[k] j v b
  · have hne : k.val ≠ k'.val := fun h => hk (Fin.ext h.symm)
    simp [hne]

/-- Settles O46, by the location that the offset names. -/
theorem reservedAndReadOnlyOffsets : Obligations.ReservedAndReadOnlyOffsets := by
  intro s off v ha
  refine ⟨fun hres => ?_, fun hro => ?_⟩
  · have hl := locate_reserved hres
    rw [s.hostRead_aligned ha, s.peek_reserved hl, s.hostWrite_aligned v ha, s.poke_reserved v hl]
    exact ⟨rfl, rfl⟩
  · rw [s.hostWrite_aligned v ha, s.poke_readOnly v (locate_readOnly hro)]; rfl

/-- Settles O47: data are hidden and dropped, CMD and the lengths are dropped, the control registers read and CTRL and
STATUS are written as in any state, and the ignored offsets are those of `reservedAndReadOnlyOffsets`. -/
theorem accessesWhileBusy : Obligations.AccessesWhileBusy := by
  intro s w off v hs ha
  obtain ⟨hreserved, hreadOnly⟩ := reservedAndReadOnlyOffsets s off v ha
  refine ⟨fun hdata => ?_, fun hoff => ?_, s.peek_control locate_id, s.peek_control locate_version,
    s.peek_control locate_ctrl, s.peek_control locate_status, s.peek_control locate_cmd, s.peek_control locate_err,
    s.peek_control locate_msgLen, s.peek_control locate_dstLen, s.hostWrite_status v, fun hsrst => ?_,
    fun hsrst => ?_, fun hoff => ?_⟩
  · have hl := locate_data hdata
    rw [s.hostRead_aligned ha, State.peek_data_busy hs hl, s.hostWrite_aligned v ha, State.poke_data_busy hs v hl]
    exact ⟨rfl, rfl⟩
  · rcases hoff with rfl | hlen
    · exact State.hostWrite_cmd_busy hs v
    · exact State.hostWrite_length_busy hs v hlen
  · rw [s.hostWrite_ctrl v, s.writeCtrl_srst hsrst]; rfl
  · rw [s.hostWrite_ctrl v, s.writeCtrl_ie hsrst]; rfl
  · rcases hoff with h | h | h | h
    · exact (hreserved (.inl h)).2
    · exact (hreserved (.inr (.inl h))).2
    · exact (hreserved (.inr (.inr h))).2
    · exact hreadOnly h

/-- Settles O42: the bus error's answer is all that a misaligned transaction adds, and an aligned one is answered after
the engine has read or stored. -/
theorem misalignedIsABusError : Obligations.MisalignedIsABusError := by
  intro s off v
  refine ⟨fun hmis => ⟨s.hostRead_misaligned hmis, s.hostWrite_misaligned v hmis⟩, fun ha => ⟨?_, ?_⟩⟩
  · rw [s.hostRead_aligned ha, State.respond_responses]
  · rw [s.hostWrite_aligned v ha, State.respond_responses, s.poke_responses v ha]

end Sys2Proof.Machine

/-! Settling spec/30_encoding.md R106 and R107: what a row of the opcode map fixes, bit by bit, which words no row
selects, and how such a word completes. Then the obligations O3 and O4. -/

namespace Sys2Proof.Machine

/-! ### The rows of the opcode map -/

theorem selects_iff {r : OpcodeRow} {w : Word} : r.selects w = true ↔ w &&& r.mask = r.pattern := by
  simp [OpcodeRow.selects]

/-- Bit j of OPC is bit 24 + j of the word (R101, R102). -/
theorem fieldOpc_getLsbD (w : Word) {j : Nat} (hj : j < 8) : (fieldOpc w).getLsbD j = w.getLsbD (24 + j) := by
  simp [fieldOpc, hj]

/-- The rows' OPC bytes are 0x00 to 0x05 (R105). -/
theorem exists_row_iff (opc : BitVec 8) : (∃ r ∈ opcodeMap, fieldOpc r.pattern = opc) ↔ opc.toNat < 6 := by
  have hopcs : opcodeMap.map (fun r => fieldOpc r.pattern) = [0, 1, 2, 3, 4, 5] := by decide
  have hmem : (∃ r ∈ opcodeMap, fieldOpc r.pattern = opc) ↔ opc ∈ [0, 1, 2, 3, 4, 5] := by
    rw [← hopcs, List.mem_map]
  rw [hmem]
  simp only [List.mem_cons, List.not_mem_nil, or_false]
  bv_omega

/-- No two rows have one OPC byte (R105). -/
theorem row_eq_of_fieldOpc {r r' : OpcodeRow} (hr : r ∈ opcodeMap) (hr' : r' ∈ opcodeMap)
    (h : fieldOpc r.pattern = fieldOpc r'.pattern) : r = r' := by
  have hall : ∀ r ∈ opcodeMap, ∀ r' ∈ opcodeMap, fieldOpc r.pattern = fieldOpc r'.pattern → r = r' := by decide
  exact hall r hr r' hr' h

/-- Below OPC every row's pattern is 0, so its mask fixes bits to 0 alone (R105). -/
theorem pattern_getLsbD_low {r : OpcodeRow} (hr : r ∈ opcodeMap) {b : Nat} (hb : b < 24) :
    r.pattern.getLsbD b = false := by
  have hall : ∀ r ∈ opcodeMap, ∀ b < 24, r.pattern.getLsbD b = false := by decide
  exact hall r hr b hb

/-- Every row's mask fixes the eight bits of OPC (R105). -/
theorem mask_getLsbD_opc {r : OpcodeRow} (hr : r ∈ opcodeMap) {j : Nat} (hj : j < 8) :
    r.mask.getLsbD (24 + j) = true := by
  have hall : ∀ r ∈ opcodeMap, ∀ j < 8, r.mask.getLsbD (24 + j) = true := by decide
  exact hall r hr j hj

/-- A row selects the words that have its OPC byte and a 0 in every lower bit of its mask (R105). -/
theorem selects_iff_bits {r : OpcodeRow} (hr : r ∈ opcodeMap) {w : Word} :
    r.selects w = true ↔
      fieldOpc w = fieldOpc r.pattern ∧ ∀ b < 24, r.mask.getLsbD b = true → w.getLsbD b = false := by
  refine ⟨fun h => ⟨selects_fieldOpc hr h, fun b hb hmask => ?_⟩, fun ⟨hopc, hlow⟩ => selects_iff.mpr ?_⟩
  · have hbit : (w &&& r.mask).getLsbD b = false := by rw [selects_iff.mp h, pattern_getLsbD_low hr hb]
    simpa [hmask] using hbit
  · refine BitVec.eq_of_getLsbD_eq fun i hi => ?_
    rw [BitVec.getLsbD_and]
    by_cases hlt : i < 24
    · rw [pattern_getLsbD_low hr hlt]
      cases hmask : r.mask.getLsbD i with
      | false => exact Bool.and_false _
      | true => rw [hlow i hlt hmask, Bool.false_and]
    · obtain ⟨j, rfl⟩ := Nat.exists_eq_add_of_le (Nat.le_of_not_lt hlt)
      have hj : j < 8 := by omega
      rw [mask_getLsbD_opc hr hj, Bool.and_true, ← fieldOpc_getLsbD w hj, hopc, fieldOpc_getLsbD _ hj]

/-! ### ILLEGAL words -/

/-- A word is ILLEGAL exactly where no row selects it (R106). -/
theorem decode_error_iff {w : Word} :
    (∃ e, decode w = .error e) ↔ ∀ r ∈ opcodeMap, r.selects w = false := by
  refine ⟨fun ⟨e, he⟩ r hr => Bool.eq_false_iff.mpr fun hsel => ?_, fun hnone => ?_⟩
  · rw [decode_of_selects hr hsel] at he
    cases he
  · cases hd : decode w with
    | error e => exact ⟨e, rfl⟩
    | ok i =>
      obtain ⟨r, hr, hsel, -⟩ := selects_of_decode hd
      exact absurd hsel (by simp [hnone r hr])

/-- The two kinds of ILLEGAL word (R107): no row has its OPC byte, or the row that has it fixes to 0 a bit that
is 1. -/
theorem decode_error_iff_bits {w : Word} :
    (∃ e, decode w = .error e) ↔
      6 ≤ (fieldOpc w).toNat ∨ ∃ r ∈ opcodeMap, fieldOpc w = fieldOpc r.pattern ∧
        ∃ b < 24, r.mask.getLsbD b = true ∧ w.getLsbD b = true := by
  rw [decode_error_iff]
  constructor
  · intro hnone
    by_cases hopc : (fieldOpc w).toNat < 6
    · obtain ⟨r, hr, hrow⟩ := (exists_row_iff _).mpr hopc
      have hbits := (selects_iff_bits hr).not.mp (Bool.eq_false_iff.mp (hnone r hr))
      refine .inr ⟨r, hr, hrow.symm, ?_⟩
      simpa [hrow] using hbits
    · exact .inl (Nat.le_of_not_lt hopc)
  · intro hill r hr
    refine Bool.eq_false_iff.mpr fun hsel => ?_
    obtain ⟨hopc, hlow⟩ := (selects_iff_bits hr).mp hsel
    rcases hill with hhigh | ⟨r', hr', hopc', b, hb, hmask, hbit⟩
    · exact absurd ((exists_row_iff _).mp ⟨r, hr, hopc.symm⟩) (Nat.not_lt.mpr hhigh)
    · obtain rfl := row_eq_of_fieldOpc hr hr' (hopc.symm.trans hopc')
      exact absurd hbit (by simp [hlow b hb hmask])

/-- An ILLEGAL word completes with IllegalCommand(1) and changes nothing else (R107, R278). -/
theorem runWord_of_illegal {w : Word} (h : ∃ e, decode w = .error e) (s : State) :
    runWord w s = .next { s with errCode := 4, errArg := 1, done := true, execState := .idle } := by
  obtain ⟨e, he⟩ := h
  have hres : wordResult w s = .error (.illegalCommand .undecodable) := by simp [wordResult, he]
  rw [runWord_eq, hres]; rfl

/-! ### The obligations -/

/-- Settles O3, by whether some row selects the word: `selects_unique` makes that row the only one. -/
theorem decodingIsTotal : Obligations.DecodingIsTotal := by
  intro w s
  by_cases hsel : ∃ r ∈ opcodeMap, r.selects w = true
  · obtain ⟨r, hr, hw⟩ := hsel
    exact .inl ⟨r, hr, selects_iff.mp hw, fun r' hr' hw' => selects_unique hr' hr (selects_iff.mpr hw') hw,
      decode_of_selects hr hw⟩
  · have hnone : ∀ r ∈ opcodeMap, ¬ r.selects w = true := fun r hr hw => hsel ⟨r, hr, hw⟩
    have hill := decode_error_iff.mpr fun r hr => Bool.eq_false_iff.mpr (hnone r hr)
    exact .inr ⟨fun r hr hw => hnone r hr (selects_iff.mpr hw), hill, runWord_of_illegal hill s⟩

/-- Settles O4: the bits of the two kinds of ILLEGAL word, and the completion that both share. -/
theorem illegalEncodings : Obligations.IllegalEncodings := fun _ =>
  ⟨decode_error_iff_bits, fun hill s => runWord_of_illegal hill s⟩

end Sys2Proof.Machine

/-! Settling spec/40_field.md R136: the values of the field primitives over the integers, where R136 subtracts. The
model computes with `Nat`, and b ≤ p keeps its p − b from being cut off at 0. Then the obligation O27. -/

namespace Sys2Proof.Machine

theorem intCast_fadd (a b : Nat) : (fadd a b : Int) = ((a : Int) + b) % Config.p := by
  simp [fadd]

theorem intCast_fmul (a b : Nat) : (fmul a b : Int) = ((a : Int) * b) % Config.p := by
  simp [fmul]

theorem intCast_fsqr (a : Nat) : (fsqr a : Int) = ((a : Int) * a) % Config.p := intCast_fmul a a

/-- The model's a + (p − b) differs from a − b by one p. -/
theorem intCast_fsub (a : Nat) {b : Nat} (hb : b ≤ Config.p) :
    (fsub a b : Int) = ((a : Int) - b) % Config.p := by
  have hshift : (a : Int) + (Config.p - b) = a - b + Config.p := by ring
  rw [fsub, Int.natCast_emod, Nat.cast_add, Nat.cast_sub hb, hshift, Int.add_emod_right]

theorem intCast_fneg {a : Nat} (ha : a ≤ Config.p) : (fneg a : Int) = ((Config.p : Int) - a) % Config.p := by
  rw [fneg, Int.natCast_emod, Nat.cast_sub ha]

@[simp] theorem fneg_zero : fneg 0 = 0 := Nat.mod_self _

/-- The empty product, for a = 0 too. -/
@[simp] theorem fpow_zero (a : Nat) : fpow a 0 = 1 := by
  rw [fpow_eq, pow_zero, Nat.mod_eq_of_lt (by decide)]

/-! ### The obligation -/

/-- Settles O27: each primitive's value over the integers, and the bounds of Laws/Field.lean. -/
theorem fieldArithmeticIsExact : Obligations.FieldArithmeticIsExact := fun a b k ha hb =>
  ⟨intCast_fadd a b, intCast_fsub a hb.le, intCast_fneg ha.le, fneg_zero, intCast_fmul a b, intCast_fsqr a,
    fpow_eq a k, fpow_zero a, fadd_lt a b, fsub_lt a b, fneg_lt a, fmul_lt a b, fsqr_lt a, fpow_lt a k⟩

end Sys2Proof.Machine

/-! Settling spec/45_control.md R260: the registers that software reads after a completion without error, and which
words with OPC 0x00 decode. Then the obligation O18. -/

namespace Sys2Proof.Machine

/-! ### ERR and STATUS after a completion without error -/

/-- A completion without error clears ERR (R281). -/
theorem State.finish_ok_errWord (s t : State) : (s.finish (.ok t)).errWord = 0 := by
  rw [State.errWord, State.finish_ok_errCode, State.finish_ok_errArg]; rfl

/-- After a completion without error STATUS shows DONE beside QR and DROP; BUSY and ERR are 0 (R40, R281). -/
theorem State.finish_ok_statusWord (s t : State) :
    (s.finish (.ok t)).statusWord = flagBit true 1 ||| flagBit t.qr 3 ||| flagBit t.drop 4 := by
  have hbusy : (s.finish (.ok t)).isBusy = false := State.isBusy_of_idle (State.finish_ok_execState s t)
  have herr : (s.finish (.ok t)).errFlag = false := by simp [State.errFlag]
  rw [State.statusWord, hbusy, herr, State.finish_ok_done, State.finish_ok_qr, State.finish_ok_drop]
  simp [flagBit]

/-! ### The words with OPC 0x00 -/

/-- NOP's row of the opcode map (R105): its mask fixes all 32 bits. -/
def nopRow : OpcodeRow := ⟨.nop, 0, BitVec.allOnes 32⟩

theorem nopRow_mem : nopRow ∈ opcodeMap := by decide

theorem nopRow_selects_iff {w : Word} : nopRow.selects w = true ↔ w = 0 := by
  rw [selects_iff, nopRow, BitVec.and_allOnes]

theorem commandOf_eq_nop_iff {m : Mnemonic} {w : Word} : commandOf m w = .nop ↔ m = .nop := by
  cases m <;> simp [commandOf]

/-- No other row has NOP's mnemonic. -/
theorem eq_nopRow_of_mnemonic {r : OpcodeRow} (hr : r ∈ opcodeMap) (h : r.mnemonic = .nop) : r = nopRow := by
  have hall : ∀ r ∈ opcodeMap, r.mnemonic = .nop → r = nopRow := by decide
  exact hall r hr h

/-- NOP's only word is 0 (R260). -/
theorem decode_eq_nop_iff {w : Word} : decode w = .ok .nop ↔ w = 0 := by
  refine ⟨fun h => ?_, fun h => decode_of_selects nopRow_mem (nopRow_selects_iff.mpr h)⟩
  obtain ⟨r, hr, hsel, hnop⟩ := selects_of_decode h
  obtain rfl := eq_nopRow_of_mnemonic hr (commandOf_eq_nop_iff.mp hnop.symm)
  exact nopRow_selects_iff.mp hsel

/-- Every other word with OPC 0x00 is ILLEGAL: the row that has this OPC is NOP's alone (R260). -/
theorem decode_error_of_opc_zero {w : Word} (hopc : fieldOpc w = 0) (hw : w ≠ 0) : ∃ e, decode w = .error e := by
  refine decode_error_iff.mpr fun r hr => Bool.eq_false_iff.mpr fun hsel => hw ?_
  have hrow : fieldOpc r.pattern = fieldOpc nopRow.pattern := (selects_fieldOpc hr hsel).symm.trans hopc
  obtain rfl := row_eq_of_fieldOpc hr nopRow_mem hrow
  exact nopRow_selects_iff.mp hsel

/-! ### The obligation -/

/-- Settles O18: NOP is the completion step over the state itself, and the words with OPC 0x00 are 0 and ILLEGAL
ones. -/
theorem nopCompletes : Obligations.NopCompletes := by
  refine ⟨fun s => exec_eq .nop s, fun s t h hdrop => ?_, fun w => decode_eq_nop_iff,
    fun w s hopc hw => runWord_of_illegal (decode_error_of_opc_zero hopc hw) s, rfl⟩
  obtain rfl : s.finish (.ok s) = t := by simpa [exec_eq, commandResult, nopResult] using h
  refine ⟨s.finish_ok_errWord s, ?_⟩
  rw [s.finish_ok_statusWord s, hdrop]
  cases s.qr <;> rfl

end Sys2Proof.Machine

/-! Settling spec/60_exceptions.md: the checks of each command in the order of R274, the error that a completion
leaves, the cause of each error, and the host write that coincides with a completion. Then the obligations O14, O15,
O16 and O58. -/

namespace Sys2Proof.Machine

/-! ### The frame of a completion -/

/-- A flag is one bit of its register word (R9). -/
theorem flagBit_getLsbD (b : Bool) (n : Nat) {i : Nat} (hi : i < 32) :
    (flagBit b n).getLsbD i = (b && decide (i = n)) := by
  cases b with
  | false => simp [flagBit]
  | true =>
    rw [flagBit, if_pos rfl, BitVec.getLsbD_shiftLeft, BitVec.getLsbD_one, Bool.eq_iff_iff]
    simp; omega

/-- STATUS bit 0 is BUSY (R40). -/
theorem State.statusWord_busy (s : State) : s.statusWord.getLsbD 0 = s.isBusy := by
  simp [State.statusWord, flagBit_getLsbD, -BitVec.getLsbD_eq_getElem]

/-- STATUS bit 1 is DONE (R40). -/
theorem State.statusWord_done (s : State) : s.statusWord.getLsbD 1 = s.done := by
  simp [State.statusWord, flagBit_getLsbD, -BitVec.getLsbD_eq_getElem]

/-- No command writes a byte outside XOUT (R36, R83). -/
theorem commandResult_read_outside {i : Instr} {s t : State} (h : commandResult i s = .ok t) {a : Nat}
    (ha : a < 0x2000 ∨ 0x4000 ≤ a) : t.mem.read a = s.mem.read a := by
  rcases commandResult_mem h with hmem | ⟨b, hb, hmem⟩
  · rw [hmem]
  · have hbase : Config.xoutBase = 0x2000 := rfl
    rw [hmem]
    exact s.mem.read_writeBytes_outside _ b a (by omega)

/-- The code 0 is that of no error (R271). -/
theorem errorCode_ne_zero (e : CmdError) : errorCode e ≠ 0 := by
  cases e <;> simp [errorCode]

/-! ### The checks of a command in the order of R274 -/

/-- Reading a field operand is the check of R275, and then its value. -/
theorem State.fieldOperand_eq (s : State) (r : FieldReg) : s.fieldOperand r =
    if Config.p ≤ s.feVal r then .error (.invalidFieldEncoding r) else .ok (s.feVal r) := by
  split
  next h => exact State.fieldOperand_error.mpr ⟨h, rfl⟩
  next h => exact State.fieldOperand_ok.mpr ⟨rfl, Nat.lt_of_not_le h⟩

/-- The error of the first check of a command that fails over the state s, with the checks as R274 orders them;
`resultError_commandResult` says that this is the error of the command's result. -/
def firstFailure (i : Instr) (s : State) : Option CmdError :=
  match i with
  | .nop => none
  | .xmd n =>
    if 4096 < s.msgLen.toNat then some (.illegalCommand .range)
    else if 255 < s.dstLen.toNat then some .domainTagTooLong
    else if 8160 < n then some .outputTooLarge
    else none
  | .h2f rd count =>
    if count = 0 ∨ 8 < rd.val + count then some (.illegalCommand .registers)
    else if 4096 < s.msgLen.toNat then some (.illegalCommand .range)
    else if 255 < s.dstLen.toNat then some .domainTagTooLong
    else none
  | .reduce _ off => if 8144 < off then some (.illegalCommand .range) else none
  | .sqrtr _ ru rv =>
    if Config.p ≤ s.feVal ru then some (.invalidFieldEncoding ru)
    else if Config.p ≤ s.feVal rv then some (.invalidFieldEncoding rv)
    else none
  | .map rx ry ru =>
    if rx = ry then some (.illegalCommand .registers)
    else if Config.p ≤ s.feVal ru then some (.invalidFieldEncoding ru)
    else none

/-- The error that a result carries, if it is one. -/
def resultError : Except CmdError State → Option CmdError
  | .error e => some e
  | .ok _ => none

theorem resultError_eq_some {r : Except CmdError State} {e : CmdError} : resultError r = some e ↔ r = .error e := by
  cases r <;> simp [resultError]

/-- A command's error is that of its first check that fails (R274). -/
theorem resultError_commandResult (i : Instr) (s : State) : resultError (commandResult i s) = firstFailure i s := by
  have hm : Config.msgSize = 4096 := rfl
  have hd : Config.maxDst = 255 := rfl
  cases i with
  | nop => rfl
  | xmd n =>
    have hn : Config.maxXmd = 8160 := rfl
    simp only [commandResult, xmdResult, State.hashLengthError, firstFailure, hm, hd, hn]
    split_ifs <;> rfl
  | h2f rd count =>
    simp only [commandResult, h2fResult, State.hashLengthError, firstFailure, hm, hd]
    split_ifs <;> rfl
  | reduce rd off =>
    have hoff : Config.xoutSize < off + Config.chunkLen ↔ 8144 < off := by
      rw [Config.xoutSize, Config.chunkLen]; omega
    simp only [commandResult, reduceResult, firstFailure, hoff]
    split_ifs <;> rfl
  | sqrtr rd ru rv =>
    simp only [commandResult, sqrtrResult, State.fieldOperand_eq, firstFailure]
    split_ifs <;> rfl
  | map rx ry ru =>
    simp only [commandResult, mapResult, State.fieldOperand_eq, firstFailure]
    split_ifs <;> rfl

/-! ### The error that a completion leaves -/

/-- ERR shows this error, or the code 0 of none (R43, R271). -/
def State.showsError (t : State) : Option CmdError → Prop
  | some e => t.errCode = errorCode e ∧ t.errArg = errorArg e
  | none => t.errCode = 0

theorem State.finish_showsError (s : State) (r : Except CmdError State) : (s.finish r).showsError (resultError r) := by
  cases r with
  | error e => exact ⟨s.finish_error_errCode e, s.finish_error_errArg e⟩
  | ok t => exact s.finish_ok_errCode t

/-- A command completes and leaves the error of its first check that fails (R272, R274). -/
theorem exec_showsError (i : Instr) (s : State) : ∃ t, exec i s = .next t ∧ t.showsError (firstFailure i s) :=
  ⟨_, exec_eq i s, by rw [← resultError_commandResult]; exact s.finish_showsError _⟩

theorem State.showsError_ite (t : State) (c : Prop) [Decidable c] (a b : Option CmdError) :
    t.showsError (if c then a else b) ↔ if c then t.showsError a else t.showsError b := by
  split <;> rfl

theorem State.showsError_none {t : State} : t.showsError none ↔ t.errCode = 0 := Iff.rfl

theorem State.showsError_registers {t : State} :
    t.showsError (some (.illegalCommand .registers)) ↔ t.errCode = 4 ∧ t.errArg = 2 := Iff.rfl

theorem State.showsError_range {t : State} :
    t.showsError (some (.illegalCommand .range)) ↔ t.errCode = 4 ∧ t.errArg = 3 := Iff.rfl

theorem State.showsError_domainTagTooLong {t : State} :
    t.showsError (some .domainTagTooLong) ↔ t.errCode = 2 ∧ t.errArg = 0 := Iff.rfl

theorem State.showsError_outputTooLarge {t : State} :
    t.showsError (some .outputTooLarge) ↔ t.errCode = 3 ∧ t.errArg = 0 := Iff.rfl

/-- The four bits of ERR.ARG hold every register's index (R43, R275). -/
theorem errorArg_invalidFieldEncoding (r : FieldReg) : (errorArg (.invalidFieldEncoding r)).toNat = r.val := by
  rw [errorArg, BitVec.toNat_ofNat, Nat.mod_eq_of_lt (by omega)]

theorem State.showsError_invalidFieldEncoding {t : State} {r : FieldReg} :
    t.showsError (some (.invalidFieldEncoding r)) ↔ t.errCode = 1 ∧ t.errArg.toNat = r.val := by
  rw [← errorArg_invalidFieldEncoding r, ← BitVec.toNat_eq]
  exact Iff.rfl

/-! ### The cause of an error -/

/-- XMD and H2F, the commands that hash. -/
def hashesMessage (i : Instr) : Prop := (∃ n, i = .xmd n) ∨ ∃ rd count, i = .h2f rd count

/-- The commands that raise an error, and its cause (R271, R275 to R278). The subcode 1 is no command's. -/
def CmdError.hasCause (e : CmdError) (i : Instr) (s : State) : Prop :=
  match e with
  | .invalidFieldEncoding r =>
    Config.p ≤ s.feVal r ∧ ((∃ rd ru rv, i = .sqrtr rd ru rv ∧ (r = ru ∨ r = rv)) ∨ ∃ rx ry, i = .map rx ry r)
  | .domainTagTooLong => 255 < s.dstLen.toNat ∧ hashesMessage i
  | .outputTooLarge => ∃ n, i = .xmd n ∧ 8160 < n
  | .illegalCommand .undecodable => False
  | .illegalCommand .registers =>
    (∃ rd count, i = .h2f rd count ∧ (count = 0 ∨ 8 < rd.val + count)) ∨ ∃ r ru, i = .map r r ru
  | .illegalCommand .range =>
    (4096 < s.msgLen.toNat ∧ hashesMessage i) ∨ ∃ rd off, i = .reduce rd off ∧ 8144 < off

/-- A check that fails has the cause of its error. -/
theorem firstFailure_hasCause {i : Instr} {s : State} {e : CmdError} (h : firstFailure i s = some e) :
    e.hasCause i s := by
  cases i with
  | nop => cases h
  | xmd n =>
    simp only [firstFailure] at h
    split_ifs at h with hm hd hn <;> cases h
    · exact .inl ⟨hm, .inl ⟨n, rfl⟩⟩
    · exact ⟨hd, .inl ⟨n, rfl⟩⟩
    · exact ⟨n, rfl, hn⟩
  | h2f rd count =>
    simp only [firstFailure] at h
    split_ifs at h with hregs hm hd <;> cases h
    · exact .inl ⟨rd, count, rfl, hregs⟩
    · exact .inl ⟨hm, .inr ⟨rd, count, rfl⟩⟩
    · exact ⟨hd, .inr ⟨rd, count, rfl⟩⟩
  | reduce rd off =>
    simp only [firstFailure] at h
    split_ifs at h with hoff
    cases h
    exact .inr ⟨rd, off, rfl, hoff⟩
  | sqrtr rd ru rv =>
    simp only [firstFailure] at h
    split_ifs at h with hu hv <;> cases h
    · exact ⟨hu, .inl ⟨rd, ru, rv, rfl, .inl rfl⟩⟩
    · exact ⟨hv, .inl ⟨rd, ru, rv, rfl, .inr rfl⟩⟩
  | map rx ry ru =>
    simp only [firstFailure] at h
    split_ifs at h with hxy hu <;> cases h
    · exact .inr ⟨rx, ru, by rw [hxy]⟩
    · exact ⟨hu, .inr ⟨rx, ry, rfl⟩⟩

/-- Everything that ERR can hold after a completion: nothing, IllegalCommand(1) of a word that does not decode, or an
error of the word's command, whose cause holds over the state before (R271, R272, R278). -/
theorem runWord_error_cases {w : Word} {s t : State} (h : runWord w s = .next t) :
    (t.errCode = 0 ∧ t.errArg = 0) ∨
    (t.errCode = 4 ∧ t.errArg = 1 ∧ ∃ x, decode w = .error x) ∨
    (∃ i e, decode w = .ok i ∧ e.hasCause i s ∧ t.showsError (some e)) := by
  rcases runWord_cases h with ⟨e, he, rfl⟩ | ⟨u, -, rfl⟩
  · rcases wordResult_error he with ⟨hill, rfl⟩ | ⟨i, hi, hc⟩
    · exact .inr (.inl ⟨rfl, rfl, hill⟩)
    · have hfail : firstFailure i s = some e := by
        rw [← resultError_commandResult]; exact resultError_eq_some.mpr hc
      exact .inr (.inr ⟨i, e, hi, firstFailure_hasCause hfail, rfl, rfl⟩)
  · exact .inl ⟨rfl, rfl⟩

/-! ### A host write in the cycle of a completion -/

theorem deliver_writeAtCompletion_busy {s t : State} {w : Word} (hs : s.execState = .busy w)
    (hr : runWord w s = .next t) (off : Offset) (v : Word) :
    deliver (.writeAtCompletion off v) s = .next (s.writeAtCompletion t off v) := by
  simp only [deliver, coincidentWrite, hs, hr]

/-! ### The obligations -/

/-- Settles O14, by whether the word's result is an error: `runWord_cases` gives the state left by either. -/
theorem completionIsPrecise : Obligations.CompletionIsPrecise := by
  intro w s
  obtain ⟨t, ht⟩ := runWord_next w s
  refine ⟨t, ht, ?_⟩
  rw [t.statusWord_busy, t.statusWord_done, State.isBusy_of_idle (runWord_execState ht), runWord_done ht]
  rcases runWord_cases ht with ⟨e, -, rfl⟩ | ⟨u, hu, rfl⟩
  · exact ⟨rfl, fun _ => ⟨rfl, rfl, rfl⟩, fun h0 => absurd h0 (errorCode_ne_zero e), fun _ _ => rfl, rfl, rfl⟩
  · obtain ⟨i, -, hi⟩ := wordResult_ok hu
    exact ⟨rfl, fun hne => absurd rfl hne, fun _ => rfl, fun a ha => commandResult_read_outside hi ha, rfl, rfl⟩

/-- Settles O15: each command's chain of checks is `firstFailure`'s, read off ERR check by check. -/
theorem checksInPriorityOrder : Obligations.ChecksInPriorityOrder := by
  refine fun s => ⟨fun w hill => ⟨_, runWord_of_illegal hill s, rfl, rfl⟩, exec_showsError .nop s, fun n => ?_,
    fun rd count => ?_, fun rd off => ?_, fun rd ru rv => ?_, fun rx ry ru => ?_⟩
  · simpa only [firstFailure, State.showsError_ite, State.showsError_range, State.showsError_domainTagTooLong,
      State.showsError_outputTooLarge, State.showsError_none] using exec_showsError (.xmd n) s
  · simpa only [firstFailure, State.showsError_ite, State.showsError_registers, State.showsError_range,
      State.showsError_domainTagTooLong, State.showsError_none] using exec_showsError (.h2f rd count) s
  · simpa only [firstFailure, State.showsError_ite, State.showsError_range, State.showsError_none]
      using exec_showsError (.reduce rd off) s
  · simpa only [firstFailure, State.showsError_ite, State.showsError_invalidFieldEncoding, State.showsError_none]
      using exec_showsError (.sqrtr rd ru rv) s
  · simpa only [firstFailure, State.showsError_ite, State.showsError_registers,
      State.showsError_invalidFieldEncoding, State.showsError_none] using exec_showsError (.map rx ry ru) s

/-- Settles O16, by the error that `runWord_error_cases` gives. -/
theorem errorCodesAndCauses : Obligations.ErrorCodesAndCauses := by
  intro w s t h
  rcases runWord_error_cases h with hnone | hill | ⟨i, e, hi, hcause, herr⟩
  · exact .inl hnone
  · exact .inr (.inr (.inr (.inr (.inl hill))))
  · simp only [hi, Except.ok.injEq]
    match e, hcause, herr with
    | .invalidFieldEncoding r, ⟨hp, hcmd⟩, herr =>
      obtain ⟨hcode, harg⟩ := State.showsError_invalidFieldEncoding.mp herr
      exact .inr (.inl ⟨hcode, r, harg, hp, hcmd⟩)
    | .domainTagTooLong, hcause, ⟨hcode, harg⟩ => exact .inr (.inr (.inl ⟨hcode, harg, hcause⟩))
    | .outputTooLarge, hcause, ⟨hcode, harg⟩ => exact .inr (.inr (.inr (.inl ⟨hcode, harg, hcause⟩)))
    | .illegalCommand .registers, hcause, ⟨hcode, harg⟩ =>
      exact .inr (.inr (.inr (.inr (.inr (.inl ⟨hcode, harg, hcause⟩)))))
    | .illegalCommand .range, hcause, ⟨hcode, harg⟩ =>
      exact .inr (.inr (.inr (.inr (.inr (.inr ⟨hcode, harg, hcause⟩)))))

/-- Settles O58: the four cases of R284, by the offset written and, for CTRL, by SRST. The model's own event has the
name `coincidentWrite`. -/
theorem coincidentWrite_order : Obligations.CoincidentWrite := by
  intro s t w off v hs hr
  simp only [deliver_writeAtCompletion_busy hs hr]
  refine ⟨fun hctrl hstatus hcmd => ?_, ?_, ?_, fun hsrst => ?_, fun hsrst => ?_⟩
  · rw [s.writeAtCompletion_after t v ⟨hctrl, hstatus, hcmd⟩]
  · rw [s.writeAtCompletion_status t v, t.hostWrite_status v]; rfl
  · rw [s.writeAtCompletion_cmd t v]; rfl
  · rw [s.writeAtCompletion_ctrl t v, if_pos hsrst, s.hostWrite_ctrl v, s.writeCtrl_srst hsrst]; rfl
  · rw [s.writeAtCompletion_ctrl t v, if_neg (by rw [hsrst]; decide)]

end Sys2Proof.Machine

/-! Settling spec/70_reset_and_hazards.md: the two resets. First what the reset state reads as, register by register and
byte by byte, then the obligation O55. -/

namespace Sys2Proof.Machine

/-! ### The reset state -/

/-- A memory without cells reads as the reset byte at every offset (R34, R35, R36, R311). -/
theorem Memory.read_nil (a : Nat) : Memory.read [] a = Memory.unlisted := rfl

/-- Every field register is zero at reset (R32, R311). -/
theorem reset_feVal (r : FieldReg) : State.reset.feVal r = 0 :=
  congrArg BitVec.toNat (Vector.getElem_replicate r.isLt : State.reset.fe[r] = 0)

/-! ### The two resets -/

/-- The soft reset, idle or busy: a CTRL write with SRST, which the bus acknowledges (R39, R310). -/
theorem State.hostWrite_srst (s : State) {v : Word} (h : v.getLsbD 1 = true) :
    s.hostWrite 0x008#16 v = s.resetEngine.respond .written := by
  rw [s.hostWrite_ctrl v, s.writeCtrl_srst h]

/-! ### The obligation -/

/-- Settles O55: `resetEngine` is what either reset leaves of any state, and the reset state is read off piece by
piece. -/
theorem bothResets : Obligations.BothResets := by
  refine ⟨fun _ => rfl, fun s v hsrst => ?_, reset_feVal, Memory.read_nil, rfl, rfl, rfl, rfl, rfl, rfl, rfl, rfl,
    State.reset.peek_control locate_id, State.reset.peek_control locate_version⟩
  rw [deliver, s.hostWrite_srst hsrst]; rfl

end Sys2Proof.Machine

/-! Settling spec/30_encoding.md R105, R108 and R110: the words that a row of the opcode map selects are the words of
its commands. Then the obligations O1, O2, O5 and O6. -/

namespace Sys2Proof.Machine

/-! ### The fields of an encoded word -/

theorem fieldA_formatR (opc : BitVec 8) (r : FieldReg) (b c d : BitVec 4) :
    fieldA (formatR opc (regField r) b c d) = r := by
  simp only [fieldA, formatR, BitVec.extractLsb'_append_eq_ite]
  exact regField_extract r

theorem fieldB_formatR (opc : BitVec 8) (a : BitVec 4) (r : FieldReg) (c d : BitVec 4) :
    fieldB (formatR opc a (regField r) c d) = r := by
  simp only [fieldB, formatR, BitVec.extractLsb'_append_eq_ite]
  exact regField_extract r

theorem fieldC_formatR (opc : BitVec 8) (a b : BitVec 4) (r : FieldReg) (d : BitVec 4) :
    fieldC (formatR opc a b (regField r) d) = r := by
  simp only [fieldC, formatR, BitVec.extractLsb'_append_eq_ite]
  exact regField_extract r

theorem fieldD_formatR (opc : BitVec 8) (a b c : BitVec 4) (r : FieldReg) :
    fieldD (formatR opc a b c (regField r)) = r := by
  simp only [fieldD, formatR, BitVec.extractLsb'_append_eq_ite]
  exact regField_extract r

theorem fieldA_formatI (opc : BitVec 8) (r : FieldReg) (imm : BitVec 16) :
    fieldA (formatI opc (regField r) imm) = r := by
  simp only [fieldA, formatI, BitVec.extractLsb'_append_eq_ite]
  exact regField_extract r

theorem fieldImm16_formatI (opc : BitVec 8) (a : BitVec 4) {n : Nat} (hn : n < 65536) :
    fieldImm16 (formatI opc a (BitVec.ofNat 16 n)) = n := by
  rw [fieldImm16, formatI, BitVec.extractLsb'_append_eq_right, BitVec.toNat_ofNat, Nat.mod_eq_of_lt hn]

theorem fieldCount_formatI (opc : BitVec 8) (a : BitVec 4) {n : Nat} (hn : n < 16) :
    fieldCount (formatI opc a (BitVec.ofNat 16 n)) = n := by
  rw [fieldCount, formatI, BitVec.extractLsb'_append_eq_of_add_le (by decide), BitVec.extractLsb'_toNat,
    BitVec.toNat_ofNat, Nat.shiftRight_zero]
  omega

/-! ### The row of a command -/

/-- The row of the opcode map that a command's word is encoded by (R105, R108). -/
def rowOf : Instr → OpcodeRow
  | .nop => ⟨.nop, 0x00000000, 0xFFFFFFFF⟩
  | .xmd _ => ⟨.xmd, 0x01000000, 0xFFFF0000⟩
  | .h2f _ _ => ⟨.h2f, 0x02000000, 0xFF8FFFF0⟩
  | .reduce _ _ => ⟨.reduce, 0x03000000, 0xFF8F0000⟩
  | .sqrtr _ _ _ => ⟨.sqrtr, 0x04000000, 0xFF8F88FF⟩
  | .map _ _ _ => ⟨.map, 0x05000000, 0xFF888FFF⟩

theorem rowOf_mem (i : Instr) : rowOf i ∈ opcodeMap := by
  cases i <;> simp [rowOf, opcodeMap]

/-- A format R word under a mask that fixes OPC and the low byte (R101). -/
theorem formatR_and (opc : BitVec 8) (a b c d am bm cm dm : BitVec 4) :
    formatR opc a b c d &&& (0xFF#8 ++ am ++ bm ++ cm ++ dm ++ 0xFF#8) =
      formatR opc (a &&& am) (b &&& bm) (c &&& cm) (d &&& dm) := by
  unfold formatR
  rw [BitVec.and_append, BitVec.and_append, BitVec.and_append, BitVec.and_append, BitVec.and_append, BitVec.zero_and]
  congr
  exact BitVec.and_allOnes

/-- A format I word under a mask that fixes OPC and the four bits below field A (R102). -/
theorem formatI_and (opc : BitVec 8) (a am : BitVec 4) (imm immm : BitVec 16) :
    formatI opc a imm &&& (0xFF#8 ++ am ++ 0xF#4 ++ immm) = formatI opc (a &&& am) (imm &&& immm) := by
  unfold formatI
  rw [BitVec.and_append, BitVec.and_append, BitVec.and_append, BitVec.zero_and]
  congr
  exact BitVec.and_allOnes

/-- Bit 3 of a register's field is the 0 that the masks ask for (R103). -/
theorem regField_and_eight (r : FieldReg) : regField r &&& 8#4 = 0#4 := by revert r; decide

/-- A count below 16 stays below the bits that H2F's mask fixes (R104). -/
theorem ofNat_and_of_lt_sixteen {n : Nat} (hn : n < 16) : BitVec.ofNat 16 n &&& 0xFFF0#16 = 0#16 := by
  have hall : ∀ n < 16, BitVec.ofNat 16 n &&& 0xFFF0#16 = 0#16 := by decide
  exact hall n hn

/-- The word of a well-formed command is selected by the command's row (R105, R108). -/
theorem rowOf_selects_encode {i : Instr} (h : i.wellFormed = true) : (rowOf i).selects (encode i) = true := by
  rw [selects_iff]
  cases i with
  | nop => rfl
  | xmd n => exact (formatI_and 1 0#4 0xF#4 _ 0#16).trans (by rw [BitVec.and_zero]; rfl)
  | h2f rd count =>
    have hc : count < 16 := by simpa [Instr.wellFormed] using h
    exact (formatI_and 2 _ 8#4 _ 0xFFF0#16).trans (by rw [regField_and_eight, ofNat_and_of_lt_sixteen hc]; rfl)
  | reduce rd off => exact (formatI_and 3 _ 8#4 _ 0#16).trans (by rw [regField_and_eight, BitVec.and_zero]; rfl)
  | sqrtr rd ru rv =>
    exact (formatR_and 4 _ 0#4 _ _ 8#4 0xF#4 8#4 8#4).trans (by simp only [regField_and_eight]; rfl)
  | map rx ry ru =>
    exact (formatR_and 5 _ _ _ 0#4 8#4 8#4 8#4 0xF#4).trans (by simp only [regField_and_eight]; rfl)

/-- The fields of a well-formed command's word are its operands (R103, R104, R108). -/
theorem commandOf_encode {i : Instr} (h : i.wellFormed = true) : commandOf (rowOf i).mnemonic (encode i) = i := by
  cases i with
  | nop => rfl
  | xmd n =>
    have hn : n < 65536 := by simpa [Instr.wellFormed] using h
    simp only [rowOf, commandOf, encode, fieldImm16_formatI _ _ hn]
  | h2f rd count =>
    have hc : count < 16 := by simpa [Instr.wellFormed] using h
    simp only [rowOf, commandOf, encode, fieldA_formatI, fieldCount_formatI _ _ hc]
  | reduce rd off =>
    have ho : off < 65536 := by simpa [Instr.wellFormed] using h
    simp only [rowOf, commandOf, encode, fieldA_formatI, fieldImm16_formatI _ _ ho]
  | sqrtr rd ru rv => simp only [rowOf, commandOf, encode, fieldA_formatR, fieldC_formatR, fieldD_formatR]
  | map rx ry ru => simp only [rowOf, commandOf, encode, fieldA_formatR, fieldB_formatR, fieldC_formatR]

theorem decode_encode {i : Instr} (h : i.wellFormed = true) : decode (encode i) = .ok i := by
  rw [decode_of_selects (rowOf_mem i) (rowOf_selects_encode h), commandOf_encode h]

theorem decode_of_encode_eq {i : Instr} {w : Word} (hw : encode i = w) (h : i.wellFormed = true) :
    decode w = .ok i := hw ▸ decode_encode h

/-! ### The words that a row selects -/

/-- A word is built of its six fields of format R (R101). -/
theorem formatR_of_fields {w : Word} {opc : BitVec 8} {a b c d : BitVec 4} (hopc : fieldOpc w = opc)
    (ha : w.extractLsb' 20 4 = a) (hb : w.extractLsb' 16 4 = b) (hc : w.extractLsb' 12 4 = c)
    (hd : w.extractLsb' 8 4 = d) (h0 : w.extractLsb' 0 8 = 0#8) : formatR opc a b c d = w := by
  rw [formatR, ← hopc, ← ha, ← hb, ← hc, ← hd, ← h0]
  simp only [fieldOpc, BitVec.extractLsb'_append_extractLsb'_eq_extractLsb']
  exact BitVec.extractLsb'_eq_self

/-- A word is built of its four fields of format I (R102). -/
theorem formatI_of_fields {w : Word} {opc : BitVec 8} {a : BitVec 4} {imm : BitVec 16} (hopc : fieldOpc w = opc)
    (ha : w.extractLsb' 20 4 = a) (h0 : w.extractLsb' 16 4 = 0#4) (himm : w.extractLsb' 0 16 = imm) :
    formatI opc a imm = w := by
  rw [formatI, ← hopc, ← ha, ← h0, ← himm]
  simp only [fieldOpc, BitVec.extractLsb'_append_extractLsb'_eq_extractLsb']
  exact BitVec.extractLsb'_eq_self

/-- A selected word has, in any range of bits, the row's pattern under the row's mask. -/
theorem selects_extract {r : OpcodeRow} {w : Word} (h : r.selects w = true) (start len : Nat) :
    w.extractLsb' start len &&& r.mask.extractLsb' start len = r.pattern.extractLsb' start len := by
  rw [← BitVec.extractLsb'_and, selects_iff.mp h]

/-- A range of bits that the row's mask fixes to 0 is 0 in a selected word. -/
theorem selects_extract_zero {r : OpcodeRow} {w : Word} (h : r.selects w = true) {start len : Nat}
    (hm : r.mask.extractLsb' start len = BitVec.allOnes len) (hp : r.pattern.extractLsb' start len = 0#len) :
    w.extractLsb' start len = 0#len := by
  have := selects_extract h start len
  rwa [hm, hp, BitVec.and_allOnes] at this

/-- Four bits whose highest the row fixes to 0 name a register (R103). -/
theorem selects_extract_reg {r : OpcodeRow} {w : Word} (h : r.selects w = true) {start : Nat}
    (hm : r.mask.extractLsb' start 4 = 8#4) (hp : r.pattern.extractLsb' start 4 = 0#4) :
    ∃ k, w.extractLsb' start 4 = regField k := by
  have hall : ∀ a : BitVec 4, a &&& 8#4 = 0#4 → ∃ k, a = regField k := by decide
  have := selects_extract h start 4
  rw [hm, hp] at this
  exact hall _ this

/-- Sixteen bits whose upper twelve are 0 are a number below 16 (R104). -/
theorem extract_lt_sixteen {w : Word} (h : w.extractLsb' 4 12 = 0#12) : (w.extractLsb' 0 16).toNat < 16 := by
  have h0 : (w.extractLsb' 4 12).toNat = 0 := congrArg BitVec.toNat h
  rw [BitVec.extractLsb'_toNat, Nat.shiftRight_eq_div_pow] at h0
  rw [BitVec.extractLsb'_toNat, Nat.shiftRight_zero]
  omega

/-- A word that a row selects is the word of a well-formed command (R105). -/
theorem exists_encode_of_selects {r : OpcodeRow} (hr : r ∈ opcodeMap) {w : Word} (h : r.selects w = true) :
    ∃ i : Instr, i.wellFormed = true ∧ encode i = w := by
  have hopc := selects_fieldOpc hr h
  have himm : w.extractLsb' 0 16 = BitVec.ofNat 16 (w.extractLsb' 0 16).toNat := by
    rw [BitVec.ofNat_toNat, BitVec.setWidth_eq]
  have hlt : (w.extractLsb' 0 16).toNat < 65536 := (w.extractLsb' 0 16).isLt
  simp only [opcodeMap, List.mem_cons, List.not_mem_nil, or_false] at hr
  rcases hr with rfl | rfl | rfl | rfl | rfl | rfl
  · exact ⟨.nop, rfl, (nopRow_selects_iff.mp h).symm⟩
  · have ha := selects_extract_zero h (start := 20) (len := 4) rfl rfl
    have h0 := selects_extract_zero h (start := 16) (len := 4) rfl rfl
    exact ⟨.xmd _, decide_eq_true hlt, formatI_of_fields hopc ha h0 himm⟩
  · obtain ⟨rd, ha⟩ := selects_extract_reg h (start := 20) rfl rfl
    have h0 := selects_extract_zero h (start := 16) (len := 4) rfl rfl
    have hcount := extract_lt_sixteen (selects_extract_zero h (start := 4) (len := 12) rfl rfl)
    exact ⟨.h2f rd _, decide_eq_true hcount, formatI_of_fields hopc ha h0 himm⟩
  · obtain ⟨rd, ha⟩ := selects_extract_reg h (start := 20) rfl rfl
    have h0 := selects_extract_zero h (start := 16) (len := 4) rfl rfl
    exact ⟨.reduce rd _, decide_eq_true hlt, formatI_of_fields hopc ha h0 himm⟩
  · obtain ⟨rd, ha⟩ := selects_extract_reg h (start := 20) rfl rfl
    have hb := selects_extract_zero h (start := 16) (len := 4) rfl rfl
    obtain ⟨ru, hc⟩ := selects_extract_reg h (start := 12) rfl rfl
    obtain ⟨rv, hd⟩ := selects_extract_reg h (start := 8) rfl rfl
    have h0 := selects_extract_zero h (start := 0) (len := 8) rfl rfl
    exact ⟨.sqrtr rd ru rv, rfl, formatR_of_fields hopc ha hb hc hd h0⟩
  · obtain ⟨rx, ha⟩ := selects_extract_reg h (start := 20) rfl rfl
    obtain ⟨ry, hb⟩ := selects_extract_reg h (start := 16) rfl rfl
    obtain ⟨ru, hc⟩ := selects_extract_reg h (start := 12) rfl rfl
    have hd := selects_extract_zero h (start := 8) (len := 4) rfl rfl
    have h0 := selects_extract_zero h (start := 0) (len := 8) rfl rfl
    exact ⟨.map rx ry ru, rfl, formatR_of_fields hopc ha hb hc hd h0⟩

/-! ### The assembler's words -/

/-- A format R word as its fields at their weights (R101). -/
theorem formatR_eq_or (opc : BitVec 8) (a b c d : BitVec 4) :
    formatR opc a b c d = opc.setWidth 32 <<< 24 ||| a.setWidth 32 <<< 20 ||| b.setWidth 32 <<< 16 |||
      c.setWidth 32 <<< 12 ||| d.setWidth 32 <<< 8 := by
  rw [← BitVec.setWidth_eq (formatR opc a b c d), formatR]
  simp only [BitVec.setWidth_append_eq_shiftLeft_setWidth_or, BitVec.shiftLeft_or_distrib, ← BitVec.shiftLeft_add,
    BitVec.setWidth_zero, BitVec.or_zero]

/-- A format I word as its fields at their weights (R102). -/
theorem formatI_eq_or (opc : BitVec 8) (a : BitVec 4) (imm : BitVec 16) :
    formatI opc a imm = opc.setWidth 32 <<< 24 ||| a.setWidth 32 <<< 20 ||| imm.setWidth 32 := by
  rw [← BitVec.setWidth_eq (formatI opc a imm), formatI]
  simp only [BitVec.setWidth_append_eq_shiftLeft_setWidth_or, BitVec.shiftLeft_or_distrib, ← BitVec.shiftLeft_add,
    BitVec.setWidth_zero, BitVec.or_zero]

theorem regField_setWidth (r : FieldReg) : (regField r).setWidth 32 = BitVec.ofNat 32 r.val := by revert r; decide

/-- The command word of format I with a register and a number that fits IMM16 (R102, R104). -/
theorem formatI_regField (opc : BitVec 8) (r : FieldReg) {n : Nat} (hn : n ≤ 65535) :
    formatI opc (regField r) (BitVec.ofNat 16 n) =
      opc.setWidth 32 <<< 24 ||| BitVec.ofNat 32 r.val <<< 20 ||| BitVec.ofNat 32 n := by
  have : (BitVec.ofNat 16 n).setWidth 32 = BitVec.ofNat 32 n := by
    apply BitVec.eq_of_toNat_eq
    simp; omega
  rw [formatI_eq_or, regField_setWidth, this]

/-- The assembler's answer, where its ranges are the condition c (R108). -/
theorem assemble_eq_ite {i : Instr} {c : Prop} [Decidable c] {w : Word} (hwf : i.wellFormed = true ↔ c)
    (hw : c → encode i = w) : assemble i = if c then some w else none := by
  rw [assemble, if_congr hwf rfl rfl]
  exact ite_congr rfl (fun hc => congrArg some (hw hc)) fun _ => rfl

/-! ### The obligations -/

/-- Settles O1: the command's own row selects its word, and the fields of the word are its operands. -/
theorem decodeInvertsEncode : Obligations.DecodeInvertsEncode := fun _ h => decode_encode h

/-- Settles O2: the row that selects the word gives a command of this word, which is the decoded one by
`decode_encode`. -/
theorem encodeInvertsDecode : Obligations.EncodeInvertsDecode := by
  intro w i h
  obtain ⟨r, hr, hsel, -⟩ := selects_of_decode h
  obtain ⟨j, hj, rfl⟩ := exists_encode_of_selects hr hsel
  obtain rfl : j = i := Except.ok.inj ((decode_encode hj).symm.trans h)
  exact ⟨hj, rfl⟩

/-- Settles O5: the words of the two formats as their fields' weights. -/
theorem assemblerEncodings : Obligations.AssemblerEncodings := by
  refine ⟨rfl, fun n => ?_, fun d count => ?_, fun d off => ?_, fun d u v => congrArg some ?_,
    fun x y u => congrArg some ?_⟩
  · exact assemble_eq_ite (decide_eq_true_iff.trans Nat.lt_succ_iff) fun hn => formatI_regField 1 0 hn
  · exact assemble_eq_ite (decide_eq_true_iff.trans Nat.lt_succ_iff) fun hc =>
      formatI_regField 2 d (hc.trans (by decide))
  · exact assemble_eq_ite (decide_eq_true_iff.trans Nat.lt_succ_iff) fun ho => formatI_regField 3 d ho
  · rw [encode, formatR_eq_or, regField_setWidth, regField_setWidth, regField_setWidth]
    simp
  · rw [encode, formatR_eq_or, regField_setWidth, regField_setWidth, regField_setWidth]
    simp

/-- Settles O6: each example is a well-formed command's word, and the two failing words complete by MAP's check of its
registers and as an ILLEGAL word. -/
theorem exampleWordsDecode : Obligations.ExampleWordsDecode := by
  have hmap : decode 0x05220000 = .ok (.map 2 2 0) := decode_of_encode_eq rfl rfl
  refine ⟨⟨rfl, decode_of_encode_eq rfl rfl⟩, ⟨rfl, decode_of_encode_eq rfl rfl⟩, ⟨rfl, decode_of_encode_eq rfl rfl⟩,
    ⟨rfl, decode_of_encode_eq rfl rfl⟩, ⟨rfl, decode_of_encode_eq rfl rfl⟩, ⟨rfl, decode_of_encode_eq rfl rfl⟩,
    ⟨hmap, fun s => ?_⟩, ⟨_, rfl⟩, fun s => runWord_of_illegal ⟨_, rfl⟩ s⟩
  rw [runWord_eq, wordResult_of_decode hmap]; rfl

end Sys2Proof.Machine

/-! Settling the rules on steps: what an event leaves of an engine, busy or idle, what a command without error writes,
and what a completion makes of a state that differs in what no command reads. Then the obligations O10, O11, O9, O7,
O8, O43, O48, O17, O12, O57 and O59. -/

namespace Sys2Proof.Machine

/-! ### Steps as events -/

/-- A step is an event over the state without that event in its list; with no event left it is the engine's turn. -/
theorem exists_step_eq_deliver (s : State) : ∃ e rest, step s = deliver e { s with bus := rest } := by
  cases hb : s.bus with
  | nil => exact ⟨.engineTurn, s.bus, step_nil hb⟩
  | cons e rest => exact ⟨e, rest, step_cons hb⟩

theorem engineTurn_idle {s : State} (h : s.execState = .idle) : engineTurn s = .next s := by
  simp only [engineTurn, h]

theorem engineTurn_busy {s : State} {w : Word} (h : s.execState = .busy w) : engineTurn s = runWord w s := by
  simp only [engineTurn, h]

theorem runWord_of_decode {w : Word} {i : Instr} (h : decode w = .ok i) (s : State) : runWord w s = exec i s := by
  rw [runWord_eq, wordResult_of_decode h, exec_eq]

theorem deliver_writeAtCompletion_idle {s : State} (h : s.execState = .idle) (off : Offset) (v : Word) :
    deliver (.writeAtCompletion off v) s = .next (s.hostWrite off v) := by
  simp only [deliver, coincidentWrite, h]

theorem run_succ {s t : State} (h : step s = .next t) (k : Nat) :
    Host.Core.run core (k + 1) s = Host.Core.run core k t := by
  have hstep : core.step s = .next t := h
  simp only [Host.Core.run, hstep]

/-! ### What a host write leaves -/

/-- A busy engine drops a write, ignores it, or takes it in CTRL or STATUS (R82). -/
theorem State.poke_busy_cases {s : State} (hs : s.isBusy = true) {off : Offset} (v : Word) (ha : off.toNat % 4 = 0) :
    s.poke off v = s ∨ s.poke off v = s.dropWrite ∨ (off = 0x008#16 ∧ s.poke off v = s.writeCtrl v) ∨
      s.poke off v = s.writeStatus v := by
  have hno : s.isBusy ≠ false := by simp [hs]
  rcases s.poke_cases off v ha with e | ⟨e, -⟩ | e | ⟨-, e⟩ | ⟨-, h, -⟩ | ⟨h, -⟩ | ⟨h, -⟩ | ⟨h, -⟩ | ⟨h, -⟩
  · exact .inl e
  · exact .inr (.inl e)
  · exact .inr (.inr (.inl e))
  · exact .inr (.inr (.inr e))
  all_goals exact absurd h hno

/-- A host write is the soft reset, or leaves QR and ERR (R41, R43). -/
theorem State.hostWrite_reset_or (s : State) (off : Offset) (v : Word) :
    (off = 0x008#16 ∧ v.getLsbD 1 = true ∧ s.hostWrite off v = s.resetEngine.respond .written) ∨
    ((s.hostWrite off v).qr = s.qr ∧ (s.hostWrite off v).errCode = s.errCode ∧
      (s.hostWrite off v).errArg = s.errArg) := by
  by_cases ha : off.toNat % 4 = 0
  · rw [s.hostWrite_aligned v ha]
    rcases s.poke_cases off v ha with e | ⟨e, -⟩ | ⟨hoff, e⟩ | ⟨-, e⟩ | ⟨-, -, e⟩ | ⟨-, e⟩ | ⟨-, e⟩ | ⟨-, k, j, e⟩ |
      ⟨-, -, e⟩ <;> rw [e]
    case inr.inr.inl =>
      cases hv : v.getLsbD 1 with
      | true => exact .inl ⟨hoff, rfl, by rw [s.writeCtrl_srst hv]⟩
      | false => rw [s.writeCtrl_ie hv]; exact .inr ⟨rfl, rfl, rfl⟩
    all_goals exact .inr ⟨rfl, rfl, rfl⟩
  · rw [s.hostWrite_misaligned v ha]
    exact .inr ⟨rfl, rfl, rfl⟩

/-- DONE changes by a reset, a STATUS write or an accept alone (R39, R40, R280). -/
theorem State.hostWrite_done (s : State) {off : Offset} {v : Word} (hctrl : off = 0x008#16 → v.getLsbD 1 = false)
    (hstatus : off ≠ 0x00C#16) (hcmd : off ≠ 0x010#16) : (s.hostWrite off v).done = s.done := by
  by_cases ha : off.toNat % 4 = 0
  · rw [s.hostWrite_aligned v ha]
    rcases s.poke_cases off v ha with e | ⟨e, -⟩ | ⟨hoff, e⟩ | ⟨h, -⟩ | ⟨h, -⟩ | ⟨-, e⟩ | ⟨-, e⟩ | ⟨-, k, j, e⟩ |
      ⟨-, -, e⟩
    case inr.inr.inl => rw [e, s.writeCtrl_ie (hctrl hoff)]; rfl
    case inr.inr.inr.inl => exact absurd h hstatus
    case inr.inr.inr.inr.inl => exact absurd h hcmd
    all_goals rw [e]; rfl
  · rw [s.hostWrite_misaligned v ha]; rfl

/-- A write to a busy engine is the soft reset, or leaves the command in flight and its inputs (R49). -/
theorem State.hostWrite_busy_reset_or {s : State} {w : Word} (hs : s.execState = .busy w) (off : Offset) (v : Word) :
    s.hostWrite off v = s.resetEngine.respond .written ∨
    ((s.hostWrite off v).execState = .busy w ∧ (s.hostWrite off v).fe = s.fe ∧ (s.hostWrite off v).mem = s.mem ∧
      (s.hostWrite off v).msgLen = s.msgLen ∧ (s.hostWrite off v).dstLen = s.dstLen ∧
      (s.hostWrite off v).cmd = s.cmd) := by
  by_cases ha : off.toNat % 4 = 0
  · rw [s.hostWrite_aligned v ha]
    rcases State.poke_busy_cases (State.isBusy_of_busy hs) v ha with e | e | ⟨-, e⟩ | e <;> rw [e]
    case inr.inr.inl =>
      cases hv : v.getLsbD 1 with
      | true => exact .inl (by rw [s.writeCtrl_srst hv])
      | false => rw [s.writeCtrl_ie hv]; exact .inr ⟨hs, rfl, rfl, rfl, rfl, rfl⟩
    all_goals exact .inr ⟨hs, rfl, rfl, rfl, rfl, rfl⟩
  · rw [s.hostWrite_misaligned v ha]
    exact .inr ⟨hs, rfl, rfl, rfl, rfl, rfl⟩

/-! ### What a coincident write leaves -/

/-- A write in the cycle of a completion is the soft reset, or leaves the engine idle with the completion's QR and ERR
and with DONE set (R284). -/
theorem State.writeAtCompletion_reset_or {w : Word} {before after : State} (h : runWord w before = .next after)
    (off : Offset) (v : Word) :
    before.writeAtCompletion after off v = before.resetEngine.respond .written ∨
    ((before.writeAtCompletion after off v).execState = .idle ∧ (before.writeAtCompletion after off v).done = true ∧
      (before.writeAtCompletion after off v).qr = after.qr ∧
      (before.writeAtCompletion after off v).errCode = after.errCode) := by
  have hidle := runWord_execState h
  have hdone := runWord_done h
  rcases before.writeAtCompletion_cases after off v with ⟨-, -, e⟩ | ⟨-, e⟩ | ⟨-, e⟩ | ⟨hstatus, hcmd, hctrl, e⟩ <;>
    rw [e]
  · exact .inl rfl
  · exact .inr ⟨hidle, hdone, rfl, rfl⟩
  · exact .inr ⟨hidle, rfl, rfl, rfl⟩
  · rcases after.hostWrite_reset_or off v with ⟨h8, hsrst, -⟩ | ⟨hqr, hcode, -⟩
    · exact absurd (hctrl h8) (by simp [hsrst])
    · exact .inr ⟨State.hostWrite_execState_idle hidle v hcmd, (after.hostWrite_done hctrl hstatus hcmd).trans hdone,
        hqr, hcode⟩

/-! ### A command without error -/

/-- A command that passes its checks leaves its writes, ERR cleared, DONE set and the engine idle (R281). -/
theorem exec_of_result {i : Instr} {s u : State} (h : commandResult i s = .ok u) :
    exec i s = .next { u with errCode := 0, errArg := 0, done := true, execState := .idle } := by
  rw [exec_eq, h]; rfl

theorem xmdResult_ok {n : Nat} {s : State} (hm : s.msgLen.toNat ≤ 4096) (hd : s.dstLen.toNat ≤ 255) (hn : n ≤ 8160) :
    commandResult (.xmd n) s = .ok (s.writeXout (expand s.message s.tag n)) := by
  have hmax : ¬ Config.maxXmd < n := Nat.not_lt.mpr hn
  simp only [commandResult, xmdResult, State.hashLengthError_none.mpr ⟨hm, hd⟩, if_neg hmax]

theorem h2fResult_ok {rd : FieldReg} {count : Nat} {s : State} (hc : 1 ≤ count) (h8 : rd.val + count ≤ 8)
    (hm : s.msgLen.toNat ≤ 4096) (hd : s.dstLen.toNat ≤ 255) :
    commandResult (.h2f rd count) s = .ok (s.setFeFrom rd (hashToField s.message s.tag count)) := by
  have hregs : ¬ (count = 0 ∨ 8 < rd.val + count) := by omega
  simp only [commandResult, h2fResult, State.hashLengthError_none.mpr ⟨hm, hd⟩, if_neg hregs]

theorem reduceResult_ok (rd : FieldReg) {off : Nat} (s : State) (ho : off ≤ 8144) :
    commandResult (.reduce rd off) s = .ok (s.setFe rd (reduce48 (s.xoutBytes off Config.chunkLen))) := by
  have hoff : ¬ Config.xoutSize < off + Config.chunkLen := by rw [Config.xoutSize, Config.chunkLen]; omega
  simp only [commandResult, reduceResult, if_neg hoff]

theorem sqrtrResult_ok (rd : FieldReg) {ru rv : FieldReg} {s : State} (hu : s.feVal ru < Config.p)
    (hv : s.feVal rv < Config.p) :
    commandResult (.sqrtr rd ru rv) s =
      .ok ((s.setFe rd (sqrtRatio (s.feVal ru) (s.feVal rv)).1).setQr (sqrtRatio (s.feVal ru) (s.feVal rv)).2) := by
  simp only [commandResult, sqrtrResult, State.fieldOperand_ok.mpr ⟨rfl, hu⟩, State.fieldOperand_ok.mpr ⟨rfl, hv⟩]

theorem mapResult_ok {rx ry ru : FieldReg} {s : State} (hxy : rx ≠ ry) (hu : s.feVal ru < Config.p) :
    commandResult (.map rx ry ru) s =
      .ok (((s.setFe rx (sswu (s.feVal ru)).x).setFe ry (sswu (s.feVal ru)).y).setQr (sswu (s.feVal ru)).isSquare) := by
  simp only [commandResult, mapResult, if_neg hxy, State.fieldOperand_ok.mpr ⟨rfl, hu⟩]

/-- A command without error passed all its checks (R274). -/
theorem firstFailure_eq_none_of_ok {i : Instr} {s u : State} (h : commandResult i s = .ok u) :
    firstFailure i s = none := by
  rw [← resultError_commandResult, h]; rfl

/-- The values of the checks of XMD that all pass (R160, R274). -/
theorem firstFailure_xmd_eq_none {n : Nat} {s : State} (h : firstFailure (.xmd n) s = none) :
    s.msgLen.toNat ≤ 4096 ∧ s.dstLen.toNat ≤ 255 ∧ n ≤ 8160 := by
  simp only [firstFailure] at h
  split_ifs at h
  omega

/-- The values of the checks of H2F that all pass (R191, R274). -/
theorem firstFailure_h2f_eq_none {rd : FieldReg} {count : Nat} {s : State} (h : firstFailure (.h2f rd count) s = none) :
    1 ≤ count ∧ rd.val + count ≤ 8 ∧ s.msgLen.toNat ≤ 4096 ∧ s.dstLen.toNat ≤ 255 := by
  simp only [firstFailure] at h
  split_ifs at h
  omega

/-- The offset of a REDUCE that passes its check (R192). -/
theorem firstFailure_reduce_eq_none {rd : FieldReg} {off : Nat} {s : State}
    (h : firstFailure (.reduce rd off) s = none) : off ≤ 8144 := by
  simp only [firstFailure] at h
  split_ifs at h
  omega

/-- The operands of a SQRTR that passes its checks (R214, R274). -/
theorem firstFailure_sqrtr_eq_none {rd ru rv : FieldReg} {s : State} (h : firstFailure (.sqrtr rd ru rv) s = none) :
    s.feVal ru < Config.p ∧ s.feVal rv < Config.p := by
  simp only [firstFailure] at h
  split_ifs at h
  omega

/-- The registers and the operand of a MAP that passes its checks (R240, R274). -/
theorem firstFailure_map_eq_none {rx ry ru : FieldReg} {s : State} (h : firstFailure (.map rx ry ru) s = none) :
    rx ≠ ry ∧ s.feVal ru < Config.p := by
  simp only [firstFailure] at h
  split_ifs at h
  exact ⟨by assumption, by omega⟩

/-! ### Completions -/

theorem runWord_frame {w : Word} {s t : State} (h : runWord w s = .next t) :
    t = { s with fe := t.fe, mem := t.mem, qr := t.qr, errCode := t.errCode, errArg := t.errArg, done := true,
                 execState := .idle } := by
  rcases runWord_cases h with ⟨e, -, rfl⟩ | ⟨u, -, rfl⟩ <;> rfl

/-- A completion is a function of what R49 names and QR: over a state that agrees there it makes the same changes. -/
theorem runWord_congr {w : Word} {s u : State} (h : runWord w s = .next u) (t : State) (hfe : t.fe = s.fe)
    (hmem : t.mem = s.mem) (hm : t.msgLen = s.msgLen) (hd : t.dstLen = s.dstLen) (hq : t.qr = s.qr) :
    runWord w t = .next { t with fe := u.fe, mem := u.mem, qr := u.qr, errCode := u.errCode, errArg := u.errArg,
                                 done := true, execState := .idle } := by
  rw [runWord_eq, wordResult_congr w hfe hmem hm hd hq]
  rcases runWord_cases h with ⟨e, he, rfl⟩ | ⟨r, hr, rfl⟩
  · rw [he, ← hfe, ← hmem, ← hq]; rfl
  · rw [hr]; rfl

/-- QR is written by SQRTR and MAP alone, which write their isSquare (R41, R214, R240). -/
theorem commandResult_qr {i : Instr} {s u : State} (h : commandResult i s = .ok u) :
    u.qr = s.qr ∨ (∃ rd ru rv, i = .sqrtr rd ru rv ∧ u.qr = (sqrtRatio (s.feVal ru) (s.feVal rv)).2) ∨
      ∃ rx ry ru, i = .map rx ry ru ∧ u.qr = (sswu (s.feVal ru)).isSquare := by
  have hpass := firstFailure_eq_none_of_ok h
  cases i with
  | nop => cases h; exact .inl rfl
  | xmd n =>
    obtain ⟨hm, hd, hn⟩ := firstFailure_xmd_eq_none hpass
    cases (xmdResult_ok hm hd hn).symm.trans h
    exact .inl rfl
  | h2f rd count =>
    obtain ⟨hc, h8, hm, hd⟩ := firstFailure_h2f_eq_none hpass
    cases (h2fResult_ok hc h8 hm hd).symm.trans h
    exact .inl rfl
  | reduce rd off =>
    cases (reduceResult_ok rd s (firstFailure_reduce_eq_none hpass)).symm.trans h
    exact .inl rfl
  | sqrtr rd ru rv =>
    obtain ⟨hu, hv⟩ := firstFailure_sqrtr_eq_none hpass
    cases (sqrtrResult_ok rd hu hv).symm.trans h
    exact .inr (.inl ⟨rd, ru, rv, rfl, rfl⟩)
  | map rx ry ru =>
    obtain ⟨hxy, hu⟩ := firstFailure_map_eq_none hpass
    cases (mapResult_ok hxy hu).symm.trans h
    exact .inr (.inr ⟨rx, ry, ru, rfl, rfl⟩)

/-! ### Events over a busy engine -/

/-- An event after which a command is still in flight leaves that command, its inputs, QR and ERR (R49). -/
theorem deliver_still_busy {s t : State} {e : BusEvent} {w w' : Word} (hs : s.execState = .busy w)
    (h : deliver e s = .next t) (ht : t.execState = .busy w') :
    w' = w ∧ t.fe = s.fe ∧ t.mem = s.mem ∧ t.msgLen = s.msgLen ∧ t.dstLen = s.dstLen ∧ t.cmd = s.cmd ∧ t.qr = s.qr ∧
      t.errCode = s.errCode ∧ t.errArg = s.errArg := by
  have hbusy : ∀ {u : State}, u.execState = .idle → u.execState ≠ .busy w' := fun h h' => by rw [h] at h'; cases h'
  rcases deliver_cases h with ⟨off, -, rfl⟩ | ⟨off, v, -, rfl⟩ | ⟨-, rfl⟩ | ⟨-, hidle, -⟩ | ⟨w₁, -, -, hr⟩ |
    ⟨off, v, -, hidle, -⟩ | ⟨off, v, w₁, u, -, -, hr, rfl⟩
  · obtain rfl : w' = w := ExecState.busy.inj (ht.symm.trans hs)
    exact ⟨rfl, rfl, rfl, rfl, rfl, rfl, rfl, rfl, rfl⟩
  · rcases State.hostWrite_busy_reset_or hs off v with e | ⟨hw, hfe, hmem, hm, hd, hcmd⟩
    · rw [e] at ht; exact absurd ht (hbusy rfl)
    · obtain rfl : w' = w := ExecState.busy.inj (ht.symm.trans hw)
      rcases s.hostWrite_reset_or off v with ⟨-, -, e⟩ | hkeep
      · rw [e] at ht; exact absurd ht (hbusy rfl)
      · exact ⟨rfl, hfe, hmem, hm, hd, hcmd, hkeep⟩
  · exact absurd ht (hbusy rfl)
  · rw [hs] at hidle; cases hidle
  · exact absurd ht (hbusy (runWord_execState hr))
  · rw [hs] at hidle; cases hidle
  · rcases State.writeAtCompletion_reset_or hr off v with e | ⟨hi, -⟩
    · rw [e] at ht; exact absurd ht (hbusy rfl)
    · exact absurd ht (hbusy hi)

/-- An event that ends a command is a reset, or its completion, alone or with a write in the same cycle (R281, R284). -/
theorem deliver_ends_command {s t : State} {e : BusEvent} {w : Word} (hs : s.execState = .busy w)
    (h : deliver e s = .next t) (ht : t.execState = .idle) :
    t = s.resetEngine.respond .written ∨ t = s.resetEngine ∨
    ∃ u, runWord w s = .next u ∧ t.done = true ∧
      (t = u ∨ ∃ off v, e = .writeAtCompletion off v ∧ t = s.writeAtCompletion u off v) := by
  have hidle : s.execState ≠ .idle := by rw [hs]; exact nofun
  have hw : ∀ {w₁}, s.execState = .busy w₁ → w₁ = w := fun h₁ => ExecState.busy.inj (h₁.symm.trans hs)
  rcases deliver_cases h with ⟨off, -, rfl⟩ | ⟨off, v, -, rfl⟩ | ⟨-, rfl⟩ | ⟨-, hi, -⟩ | ⟨w₁, -, h₁, hr⟩ |
    ⟨off, v, -, hi, -⟩ | ⟨off, v, w₁, u, rfl, h₁, hr, rfl⟩
  · exact absurd ht hidle
  · rcases State.hostWrite_busy_reset_or hs off v with e | ⟨hbusy, -⟩
    · exact .inl e
    · rw [hbusy] at ht; cases ht
  · exact .inr (.inl rfl)
  · exact absurd hi hidle
  · obtain rfl := hw h₁
    exact .inr (.inr ⟨t, hr, runWord_done hr, .inl rfl⟩)
  · exact absurd hi hidle
  · obtain rfl := hw h₁
    rcases State.writeAtCompletion_reset_or hr off v with e | ⟨-, hd, -⟩
    · exact .inl e
    · exact .inr (.inr ⟨u, hr, hd, .inr ⟨off, v, rfl, rfl⟩⟩)

/-! ### Legal states -/

theorem State.legal_iff (s : State) : s.legal = true ↔
    s.mem.wf = true ∧ (∀ c ∈ s.mem, inBuffer c.1 = true) ∧ errLegal s.errCode s.errArg = true ∧
      s.busyLegal = true := by
  simp only [State.legal, Bool.and_eq_true, List.all_eq_true, and_assoc]

theorem State.busyLegal_of_idle {s : State} (h : s.execState = .idle) : s.busyLegal = true := by
  simp only [State.busyLegal, h]

/-- What a busy engine's legal state asks of CMD and DONE survives any write to DONE that can only clear it. -/
theorem State.busyLegal_writeStatus {s : State} (h : s.busyLegal = true) (v : Word) :
    (s.writeStatus v).busyLegal = true := by
  cases hs : s.execState with
  | idle => exact State.busyLegal_of_idle hs
  | busy w =>
    simp only [State.busyLegal, hs, Bool.and_eq_true, Bool.not_eq_true'] at h
    obtain ⟨hcmd, hdone⟩ := h
    have hs' : (s.writeStatus v).execState = .busy w := hs
    simp only [State.busyLegal, hs']
    simp [State.writeStatus, hcmd, hdone]

/-- The content of ERR after any error is one of R271's. -/
theorem errLegal_of_error (e : CmdError) : errLegal (errorCode e) (errorArg e) = true := by
  cases e with
  | invalidFieldEncoding r => revert r; decide
  | domainTagTooLong => rfl
  | outputTooLarge => rfl
  | illegalCommand c => cases c <;> rfl

/-- A write inside the buffers keeps the memory canonical and inside them. -/
theorem Memory.writeBytes_legal {m : Memory} (hwf : m.wf = true) (hin : ∀ c ∈ m, inBuffer c.1 = true) {a : Nat}
    {b : List Byte} (hb : ∀ x, a ≤ x → x < a + b.length → inBuffer x = true) :
    (m.writeBytes a b).wf = true ∧ ∀ c ∈ m.writeBytes a b, inBuffer c.1 = true := by
  refine ⟨Memory.writeBytes_wf hwf a b, fun c hc => ?_⟩
  rcases Memory.mem_writeBytes hc with hc | ⟨hle, hlt⟩
  · exact hin c hc
  · exact hb c.1 hle hlt

theorem State.hostWrite_legal {s : State} (h : s.legal = true) (off : Offset) (v : Word) :
    (s.hostWrite off v).legal = true := by
  by_cases ha : off.toNat % 4 = 0
  · rw [s.hostWrite_aligned v ha]
    obtain ⟨hwf, hin, herr, hbusy⟩ := s.legal_iff.mp h
    rcases s.poke_cases off v ha with e | ⟨e, -⟩ | ⟨-, e⟩ | ⟨-, e⟩ | ⟨-, -, e⟩ | ⟨-, e⟩ | ⟨-, e⟩ | ⟨-, k, j, e⟩ |
      ⟨-, hoff, e⟩ <;> rw [e]
    case inr.inr.inl =>
      rw [State.writeCtrl]
      split
      · rfl
      · exact h
    case inr.inr.inr.inl => exact (State.legal_iff _).mpr ⟨hwf, hin, herr, State.busyLegal_writeStatus hbusy v⟩
    case inr.inr.inr.inr.inl =>
      exact (State.legal_iff _).mpr ⟨hwf, hin, herr, by simp [State.busyLegal]⟩
    case inr.inr.inr.inr.inr.inr.inr.inr =>
      obtain ⟨hwf', hin'⟩ := Memory.writeBytes_legal hwf hin (a := off.toNat) (b := wordBytes v)
        fun x hle hlt => inBuffer_word hoff ha ⟨hle, hlt⟩
      exact (State.legal_iff _).mpr ⟨hwf', hin', herr, hbusy⟩
    all_goals exact h
  · rw [s.hostWrite_misaligned v ha]; exact h

theorem runWord_legal {w : Word} {s t : State} (h : s.legal = true) (hr : runWord w s = .next t) :
    t.legal = true := by
  obtain ⟨hwf, hin, -, -⟩ := s.legal_iff.mp h
  rcases runWord_cases hr with ⟨e, -, rfl⟩ | ⟨u, hu, rfl⟩
  · exact (State.legal_iff _).mpr ⟨hwf, hin, errLegal_of_error e, rfl⟩
  · obtain ⟨i, -, hi⟩ := wordResult_ok hu
    have hmem : u.mem.wf = true ∧ ∀ c ∈ u.mem, inBuffer c.1 = true := by
      rcases commandResult_mem hi with e | ⟨b, hb, e⟩ <;> rw [e]
      · exact ⟨hwf, hin⟩
      · have hbase : Config.xoutBase = 0x2000 := rfl
        exact Memory.writeBytes_legal hwf hin fun x hle hlt => (inBuffer_iff x).mpr (by omega)
    exact (State.legal_iff _).mpr ⟨hmem.1, hmem.2, rfl, rfl⟩

theorem deliver_legal {e : BusEvent} {s t : State} (h : s.legal = true) (hd : deliver e s = .next t) :
    t.legal = true := by
  rcases deliver_cases hd with ⟨off, -, rfl⟩ | ⟨off, v, -, rfl⟩ | ⟨-, rfl⟩ | ⟨-, -, rfl⟩ | ⟨w, -, -, hr⟩ |
    ⟨off, v, -, -, rfl⟩ | ⟨off, v, w, u, -, -, hr, rfl⟩
  · exact h
  · exact State.hostWrite_legal h off v
  · rfl
  · exact h
  · exact runWord_legal h hr
  · exact State.hostWrite_legal h off v
  · have hu := runWord_legal h hr
    have hidle := runWord_execState hr
    rcases s.writeAtCompletion_cases u off v with ⟨-, -, e⟩ | ⟨-, e⟩ | ⟨-, e⟩ | ⟨-, -, -, e⟩ <;> rw [e]
    · rfl
    · exact hu
    · obtain ⟨hwf, hin, herr, -⟩ := u.legal_iff.mp hu
      exact (State.legal_iff _).mpr ⟨hwf, hin, herr, State.busyLegal_of_idle hidle⟩
    · exact State.hostWrite_legal hu off v

/-! ### QR -/

/-- A word's completion leaves QR, or is that of SQRTR or MAP without error (R41). -/
theorem runWord_qr {w : Word} {s t : State} (h : runWord w s = .next t) (hq : t.qr ≠ s.qr) :
    t.errCode = 0 ∧
      ((∃ rd ru rv, decode w = .ok (.sqrtr rd ru rv) ∧ t.qr = (sqrtRatio (s.feVal ru) (s.feVal rv)).2) ∨
        ∃ rx ry ru, decode w = .ok (.map rx ry ru) ∧ t.qr = (sswu (s.feVal ru)).isSquare) := by
  rcases runWord_cases h with ⟨e, -, rfl⟩ | ⟨u, hu, rfl⟩
  · exact absurd rfl hq
  · obtain ⟨i, hi, hc⟩ := wordResult_ok hu
    rcases commandResult_qr hc with hkeep | ⟨rd, ru, rv, rfl, hu⟩ | ⟨rx, ry, ru, rfl, hu⟩
    · exact absurd hkeep hq
    · exact ⟨rfl, .inl ⟨rd, ru, rv, hi, hu⟩⟩
    · exact ⟨rfl, .inr ⟨rx, ry, ru, hi, hu⟩⟩

/-- An event that changes QR is a reset, or the completion of SQRTR or MAP without error (R41). -/
theorem deliver_qr {e : BusEvent} {s t : State} (h : deliver e s = .next t) (hq : t.qr ≠ s.qr) :
    t = { State.reset with bus := t.bus, responses := t.responses } ∨
    ∃ w, s.execState = .busy w ∧ t.errCode = 0 ∧
      ((∃ rd ru rv, decode w = .ok (.sqrtr rd ru rv) ∧ t.qr = (sqrtRatio (s.feVal ru) (s.feVal rv)).2) ∨
        ∃ rx ry ru, decode w = .ok (.map rx ry ru) ∧ t.qr = (sswu (s.feVal ru)).isSquare) := by
  have hwrite : ∀ off v, t = s.hostWrite off v → t = { State.reset with bus := t.bus, responses := t.responses } := by
    rintro off v rfl
    rcases s.hostWrite_reset_or off v with ⟨-, -, e⟩ | ⟨hkeep, -⟩
    · rw [e]; rfl
    · exact absurd hkeep hq
  rcases deliver_cases h with ⟨off, -, rfl⟩ | ⟨off, v, -, ht⟩ | ⟨-, rfl⟩ | ⟨-, -, rfl⟩ | ⟨w, -, hw, hr⟩ |
    ⟨off, v, -, -, ht⟩ | ⟨off, v, w, u, -, hw, hr, rfl⟩
  · exact absurd rfl hq
  · exact .inl (hwrite off v ht)
  · exact .inl rfl
  · exact absurd rfl hq
  · exact .inr ⟨w, hw, runWord_qr hr hq⟩
  · exact .inl (hwrite off v ht)
  · rcases State.writeAtCompletion_reset_or hr off v with e | ⟨-, -, hqr, hcode⟩
    · rw [e]; exact .inl rfl
    · rw [hqr] at hq
      rw [hqr, hcode]
      exact .inr ⟨w, hw, runWord_qr hr hq⟩

/-! ### The obligations -/

/-- Settles O10: every kind of event keeps each part of a legal state. -/
theorem stepKeepsLegalStates : Obligations.StepKeepsLegalStates := by
  intro s t hs h
  obtain ⟨e, rest, he⟩ := exists_step_eq_deliver s
  exact deliver_legal (s := { s with bus := rest }) hs (he ▸ h)

/-- Settles O11: the base case of O10, by evaluation. -/
theorem resetIsLegal : Obligations.ResetIsLegal := rfl

/-- Settles O9: a step is an event, and every event answers a next state. -/
theorem everyStepAnswersNext : Obligations.EveryStepAnswersNext := by
  intro s
  obtain ⟨e, rest, he⟩ := exists_step_eq_deliver s
  rw [he]
  exact deliver_next e _

/-- Settles O7: with no event left, and at the engine's own event, the step is the completion of the busy engine's
word. -/
theorem stepRunsTheDecodedCommand : Obligations.StepRunsTheDecodedCommand := by
  intro s w i hs hi
  refine ⟨fun hb => ?_, fun rest hb => ?_⟩
  · rw [step_nil hb, engineTurn_busy hs, runWord_of_decode hi]
  · rw [step_cons hb, deliver, engineTurn_busy (s := { s with bus := rest }) hs, runWord_of_decode hi]

/-- Settles O8, event by event. -/
theorem stepDeliversTheNextEvent : Obligations.StepDeliversTheNextEvent := by
  refine fun s rest => ⟨fun off hb => step_cons hb, fun off v hb => step_cons hb, fun hb => step_cons hb,
    fun hs hb => ?_, fun hs hb => ?_, fun off v hs hb => ?_⟩
  · rw [step_cons hb, deliver, engineTurn_idle (s := { s with bus := rest }) hs]
  · rw [step_nil hb, engineTurn_idle hs]
  · rw [step_cons hb, deliver_writeAtCompletion_idle (s := { s with bus := rest }) hs]

/-- Settles O43: a read adds the bus's answer and nothing else. -/
theorem readsChangeNothing : Obligations.ReadsChangeNothing := fun _ _ => ⟨_, rfl⟩

/-- Settles O48, by the events that leave a command in flight. -/
theorem inputsAreFixedWhileBusy : Obligations.InputsAreFixedWhileBusy := fun _ _ _ _ _ hs h ht =>
  deliver_still_busy hs h ht

/-- Settles O17: an error leaves everything that the command reads, so `runWord_congr` gives the same error again. -/
theorem failedCommandFailsAgain : Obligations.FailedCommandFailsAgain := by
  intro w s t h hne
  rcases runWord_cases h with ⟨e, -, rfl⟩ | ⟨u, -, rfl⟩
  · exact runWord_congr h _ rfl rfl rfl rfl rfl
  · exact absurd rfl hne

/-- Settles O12, by induction on the list of events: an event leaves the command in flight with its inputs
(`deliver_still_busy`), or ends it (`deliver_ends_command`), and the last step ends it. -/
theorem acceptedCommandCompletes : Obligations.AcceptedCommandCompletes := by
  intro s w hs
  induction hb : s.bus generalizing s with
  | nil =>
    obtain ⟨u, hu⟩ := runWord_next w s
    have hstep : step s = .next u := by rw [step_nil hb, engineTurn_busy hs, hu]
    refine ⟨0, Nat.zero_le _, s, u, rfl, hs, rfl, rfl, rfl, rfl, hstep, runWord_execState hu, .inr ⟨u, ?_,
      runWord_done hu, .inl rfl⟩⟩
    rw [runWord_bus hu]; exact hu
  | cons e rest ih =>
    obtain ⟨t, ht⟩ := deliver_next e { s with bus := rest }
    have hstep : step s = .next t := (step_cons hb).trans ht
    have hrest : t.bus = rest := deliver_bus ht
    cases hx : t.execState with
    | busy w' =>
      obtain ⟨rfl, hfe, hmem, hm, hd, -⟩ := deliver_still_busy (s := { s with bus := rest }) hs ht hx
      obtain ⟨k, hk, m, t', hrun, hmw, hfe', hmem', hm', hd', hend⟩ := ih t hx hrest
      exact ⟨k + 1, Nat.succ_le_succ hk, m, t', (run_succ hstep k).trans hrun, hmw, hfe'.trans hfe, hmem'.trans hmem,
        hm'.trans hm, hd'.trans hd, hend⟩
    | idle =>
      refine ⟨0, Nat.zero_le _, s, t, rfl, hs, rfl, rfl, rfl, rfl, hstep, hx, ?_⟩
      rcases deliver_ends_command (s := { s with bus := rest }) hs ht hx with rfl | rfl | ⟨u, hu, hdone, hlast⟩
      · exact .inl rfl
      · exact .inl rfl
      · rw [hrest]
        refine .inr ⟨u, hu, hdone, hlast.imp_right ?_⟩
        rintro ⟨off, v, rfl, htu⟩
        exact ⟨off, v, hb, htu⟩

/-- Settles O57: a step is an event, and `deliver_qr` says which events change QR. -/
theorem qrIsWrittenBySqrtrAndMap : Obligations.QrIsWrittenBySqrtrAndMap := by
  refine ⟨fun s t h hq => ?_, rfl⟩
  obtain ⟨e, rest, he⟩ := exists_step_eq_deliver s
  exact deliver_qr (s := { s with bus := rest }) (he ▸ h) hq

/-- Settles O59: an idle engine has no completion, and a busy one's takes the write after it, but for a soft reset, a
CMD write and a STATUS write, which go before it. -/
theorem coincidentWriteIsOneOfTheTwoOrders : Obligations.CoincidentWriteIsOneOfTheTwoOrders := by
  intro s off v
  cases hs : s.execState with
  | idle => exact .inr ⟨s, engineTurn_idle hs, deliver_writeAtCompletion_idle hs off v⟩
  | busy w =>
    obtain ⟨u, hu⟩ := runWord_next w s
    rw [deliver_writeAtCompletion_busy hs hu]
    rcases s.writeAtCompletion_cases u off v with ⟨rfl, hsrst, e⟩ | ⟨rfl, e⟩ | ⟨rfl, e⟩ | ⟨-, -, -, e⟩ <;> rw [e]
    · exact .inl ⟨_, by rw [deliver, s.hostWrite_srst hsrst], rfl⟩
    · refine .inl ⟨_, by rw [deliver, State.hostWrite_cmd_busy hs v], ?_⟩
      rw [deliver, engineTurn_busy (s := s.dropWrite.respond .written) hs,
        runWord_congr hu (s.dropWrite.respond .written) rfl rfl rfl rfl rfl, runWord_frame hu]
      rfl
    · refine .inl ⟨_, by rw [deliver, s.hostWrite_status v], ?_⟩
      rw [deliver, engineTurn_busy (s := (s.writeStatus v).respond .written) hs,
        runWord_congr hu ((s.writeStatus v).respond .written) rfl rfl rfl rfl rfl, runWord_frame hu]
      rfl
    · exact .inr ⟨u, (engineTurn_busy hs).trans hu, rfl⟩

end Sys2Proof.Machine

/-! Settling what the outside can tell of the engine: the bits of STATUS (R40), the answers of a busy engine (R82) and
the latency (R320). Then the obligations O52, O49 and O60. -/

namespace Sys2Proof.Machine

/-! ### The bits of STATUS -/

/-- STATUS bit 2 is ERR (R40). -/
theorem State.statusWord_err (s : State) : s.statusWord.getLsbD 2 = s.errFlag := by
  simp [State.statusWord, flagBit_getLsbD, -BitVec.getLsbD_eq_getElem]

/-- STATUS bit 3 is QR (R40). -/
theorem State.statusWord_qr (s : State) : s.statusWord.getLsbD 3 = s.qr := by
  simp [State.statusWord, flagBit_getLsbD, -BitVec.getLsbD_eq_getElem]

/-- STATUS bit 4 is DROP (R40). -/
theorem State.statusWord_drop (s : State) : s.statusWord.getLsbD 4 = s.drop := by
  simp [State.statusWord, flagBit_getLsbD, -BitVec.getLsbD_eq_getElem]

/-- The bits of STATUS from 5 on read as 0 (R40). -/
theorem State.statusWord_high (s : State) {b : Nat} (hb : 5 ≤ b) : s.statusWord.getLsbD b = false := by
  by_cases hlt : b < 32
  · have h0 : b ≠ 0 := by omega
    have h1 : b ≠ 1 := by omega
    have h2 : b ≠ 2 := by omega
    have h3 : b ≠ 3 := by omega
    have h4 : b ≠ 4 := by omega
    simp [State.statusWord, flagBit_getLsbD, hlt, h0, h1, h2, h3, h4, -BitVec.getLsbD_eq_getElem]
  · exact BitVec.getLsbD_of_ge _ _ (Nat.le_of_not_lt hlt)

theorem State.errFlag_iff (s : State) : s.errFlag = true ↔ s.errCode ≠ 0 := bne_iff_ne

/-! ### A busy engine's answers -/

theorem State.sameButData_iff {s t : State} : s.sameButData t ↔ ∃ fe mem, t = { s with fe := fe, mem := mem } :=
  ⟨fun h => ⟨t.fe, t.mem, h.symm⟩, by rintro ⟨fe, mem, rfl⟩; rfl⟩

theorem State.sameButData_respond {s t : State} (h : s.sameButData t) (r : BusResponse) :
    (s.respond r).sameButData (t.respond r) := by
  obtain ⟨fe, mem, rfl⟩ := State.sameButData_iff.mp h
  rfl

/-- Reads of a busy engine do not depend on its registers and buffers (R82). -/
theorem State.peek_of_sameButData {s t : State} (hs : s.isBusy = true) (h : s.sameButData t) (off : Offset) :
    t.peek off = s.peek off := by
  obtain ⟨fe, mem, rfl⟩ := State.sameButData_iff.mp h
  have ht : State.isBusy { s with fe := fe, mem := mem } = true := hs
  cases hl : locate off with
  | control r => rw [State.peek_control _ hl, State.peek_control _ hl]; cases r <;> rfl
  | feWord k j => simp [State.peek, hl, hs, ht]
  | bufferWord a => simp [State.peek, hl, hs, ht]
  | reserved => rw [State.peek_reserved _ hl, State.peek_reserved _ hl]

/-- A write to a control register of a busy engine does the same whatever its registers and buffers hold (R82). -/
theorem State.writeControl_sameButData {s t : State} (hs : s.isBusy = true) (h : s.sameButData t) (r : CtlReg)
    (v : Word) : (s.writeControl r v).sameButData (t.writeControl r v) := by
  obtain ⟨fe, mem, rfl⟩ := State.sameButData_iff.mp h
  have ht : State.isBusy { s with fe := fe, mem := mem } = true := hs
  cases r with
  | ctrl =>
    simp only [State.writeControl, State.writeCtrl]
    split <;> rfl
  | cmd => simp only [State.writeControl, hs, ht]; rfl
  | msgLen => simp only [State.writeControl, hs, ht]; rfl
  | dstLen => simp only [State.writeControl, hs, ht]; rfl
  | _ => rfl

/-- A write to a busy engine does the same whatever its registers and buffers hold (R82). -/
theorem State.poke_sameButData {s t : State} (hs : s.isBusy = true) (h : s.sameButData t) (off : Offset) (v : Word) :
    (s.poke off v).sameButData (t.poke off v) := by
  obtain ⟨w, hw⟩ := s.isBusy_iff.mp hs
  have hw' : t.execState = .busy w := by obtain ⟨fe, mem, rfl⟩ := State.sameButData_iff.mp h; exact hw
  have hdrop : s.dropWrite.sameButData t.dropWrite := by
    obtain ⟨fe, mem, rfl⟩ := State.sameButData_iff.mp h; rfl
  cases hl : locate off with
  | control r => simpa only [State.poke, hl] using State.writeControl_sameButData hs h r v
  | feWord k j =>
    rwa [State.poke_data_busy hw v (.inl ⟨k, j, hl⟩), State.poke_data_busy hw' v (.inl ⟨k, j, hl⟩)]
  | bufferWord a => rwa [State.poke_data_busy hw v (.inr ⟨a, hl⟩), State.poke_data_busy hw' v (.inr ⟨a, hl⟩)]
  | reserved => simpa only [State.poke, hl] using h

/-! ### The latency -/

/-- A command that fails takes the latency of its error (R323). -/
theorem latency_of_failure {w : Word} {i : Instr} {s : State} {e : CmdError} (hi : decode w = .ok i)
    (h : firstFailure i s = some e) : latency w s = Config.latErr w (errorCode e) := by
  rw [← resultError_commandResult, resultError_eq_some] at h
  simp only [latency, hi, h]

/-- A command that passes its checks takes its own latency (R323). -/
theorem latency_of_success {w : Word} {i : Instr} {s : State} (hi : decode w = .ok i)
    (h : firstFailure i s = none) : latency w s = commandLatency i s := by
  rw [← resultError_commandResult] at h
  cases hr : commandResult i s with
  | error e => rw [hr] at h; cases h
  | ok u => simp only [latency, hi, hr]

/-- Equal canonicity is the same outcome of the check of R275. -/
theorem canon_eq_iff {a b : Nat} : canon a = canon b ↔ (Config.p ≤ a ↔ Config.p ≤ b) := by
  rw [canon, canon, decide_eq_decide]
  omega

/-- The checks of a command depend on the two lengths and on the canonicity of the operands that it comes to (R274). -/
theorem firstFailure_congr {i : Instr} {s t : State} (hm : s.msgLen = t.msgLen) (hd : s.dstLen = t.dstLen)
    (hop : ∀ r ∈ checkedOperands i s, canon (s.feVal r) = canon (t.feVal r)) : firstFailure i s = firstFailure i t := by
  cases i with
  | nop => rfl
  | xmd n => simp only [firstFailure, hm, hd]
  | h2f rd count => simp only [firstFailure, hm, hd]
  | reduce rd off => rfl
  | sqrtr rd ru rv =>
    have hu : Config.p ≤ s.feVal ru ↔ Config.p ≤ t.feVal ru :=
      canon_eq_iff.mp (hop ru (by simp only [checkedOperands]; split <;> simp))
    by_cases hs : Config.p ≤ s.feVal ru
    · simp only [firstFailure, hs, hu.mp hs, if_true]
    · have hcanon : canon (s.feVal ru) = true := decide_eq_true (Nat.lt_of_not_le hs)
      have hv : Config.p ≤ s.feVal rv ↔ Config.p ≤ t.feVal rv :=
        canon_eq_iff.mp (hop rv (by simp [checkedOperands, hcanon]))
      simp only [firstFailure, hu, hv]
  | map rx ry ru =>
    by_cases hxy : rx = ry
    · simp only [firstFailure, hxy, if_true]
    · have hu : Config.p ≤ s.feVal ru ↔ Config.p ≤ t.feVal ru :=
        canon_eq_iff.mp (hop ru (by simp [checkedOperands, hxy]))
      simp only [firstFailure, hu]

theorem commandLatency_congr (i : Instr) {s t : State} (hm : s.msgLen = t.msgLen) (hd : s.dstLen = t.dstLen) :
    commandLatency i s = commandLatency i t := by
  cases i <;> simp only [commandLatency, hm, hd]

/-! ### The obligations -/

/-- Settles O52: STATUS bit by bit, and its read and its write as those of a control register. -/
theorem statusRegister : Obligations.StatusRegister := by
  refine ⟨fun s => ⟨?_, s.statusWord_done, ?_, s.statusWord_qr, s.statusWord_drop, fun b hb => s.statusWord_high hb⟩,
    fun s => s.hostRead_control rfl locate_status, fun s v => s.hostWrite_status v, rfl⟩
  · rw [s.statusWord_busy, s.isBusy_iff]
  · rw [s.statusWord_err, s.errFlag_iff]

/-- Settles O49: a misaligned transaction gets the bus error in both states, and an aligned one reads alike and writes
alike. -/
theorem busyEngineRevealsNoData : Obligations.BusyEngineRevealsNoData := by
  intro s t w off v hw h
  have hs : s.isBusy = true := State.isBusy_of_busy hw
  by_cases ha : off.toNat % 4 = 0
  · rw [s.hostRead_aligned ha, t.hostRead_aligned ha, State.peek_of_sameButData hs h, s.hostWrite_aligned v ha,
      t.hostWrite_aligned v ha]
    exact ⟨State.sameButData_respond h _, State.sameButData_respond (State.poke_sameButData hs h off v) _⟩
  · rw [s.hostRead_misaligned ha, t.hostRead_misaligned ha, s.hostWrite_misaligned v ha, t.hostWrite_misaligned v ha]
    exact ⟨State.sameButData_respond h _, State.sameButData_respond h _⟩

/-- Settles O60: the first check that fails is the same in both states, and so is the latency that it, or the command
without error, takes. -/
theorem latencyDependsOnPublicValues : Obligations.LatencyDependsOnPublicValues := by
  rintro w s t ⟨hm, hd, hop⟩
  cases hi : decode w with
  | error x => simp only [latency, hi]
  | ok i =>
    have hfail := firstFailure_congr hm hd (hop i hi)
    cases hs : firstFailure i s with
    | some e => rw [latency_of_failure hi hs, latency_of_failure hi (hfail ▸ hs)]
    | none =>
      rw [latency_of_success hi hs, latency_of_success hi (hfail ▸ hs), commandLatency_congr i hm hd]

end Sys2Proof.Machine

/-! Settling spec/40_field.md and spec/43_sqrt_ratio.md: inversion, the constants, and the square-root ratio, over
`ZMod p`, which is a field because p is prime. Then the obligations O28, O29, O30 and O36. -/

namespace Sys2Proof.Machine

/-! ### Numbers below p as elements of the field -/

/-- A residue is c exactly where its image is, for canonical c. -/
theorem mod_p_eq_iff {a c : Nat} (hc : c < Config.p) : a % Config.p = c ↔ (a : ZMod Config.p) = c := by
  rw [ZMod.natCast_eq_natCast_iff', Nat.mod_eq_of_lt hc]

theorem cast_inj_iff {a b : Nat} (ha : a < Config.p) (hb : b < Config.p) : (a : ZMod Config.p) = b ↔ a = b :=
  ⟨eq_of_cast_eq ha hb, congrArg _⟩

/-- Every element of the field is the image of a canonical number. -/
theorem exists_cast_eq (x : ZMod Config.p) : ∃ a < Config.p, (a : ZMod Config.p) = x := by
  have : NeZero Config.p := ⟨p_pos.ne'⟩
  exact ⟨x.val, x.val_lt, x.natCast_zmod_val⟩

theorem cast_eq_zero_iff {a : Nat} (ha : a < Config.p) : (a : ZMod Config.p) = 0 ↔ a = 0 :=
  ⟨fun h => eq_of_cast_eq ha p_pos (by simpa using h), fun h => by simp [h]⟩

theorem cast_ne_zero {a : Nat} (ha : a < Config.p) (h0 : a ≠ 0) : (a : ZMod Config.p) ≠ 0 :=
  (cast_eq_zero_iff ha).not.mpr h0

/-- Fermat's little theorem, with p − 1 as 2·(2·E_SQRT + 1) (R135). -/
theorem sq_pow_eq_one {a : ZMod Config.p} (ha : a ≠ 0) : (a ^ 2) ^ (2 * Config.eSqrt + 1) = 1 := by
  have := Laws.fact_p_prime
  have he : Config.p - 1 = 2 * (2 * Config.eSqrt + 1) := by have := Laws.eSqrt_eq; omega
  rw [← pow_mul, ← he]
  exact ZMod.pow_card_sub_one_eq_one ha

/-- Euler's criterion, the half that the model needs: a square is no number whose power to (p − 1)/2 is not 1. -/
theorem not_square_of_pow {c : ZMod Config.p} (hc : c ≠ 0) (h : c ^ (2 * Config.eSqrt + 1) ≠ 1) (x : ZMod Config.p) :
    x ^ 2 ≠ c := by
  rintro rfl
  exact h (sq_pow_eq_one fun h0 => hc (by simp [h0]))

/-- The image of `finv` is the field's inverse, 0 for 0 (R137). -/
theorem cast_finv (a : Nat) : ((finv a : Nat) : ZMod Config.p) = (a : ZMod Config.p)⁻¹ := by
  have := Laws.fact_p_prime
  rw [finv, cast_fpow]
  by_cases h0 : (a : ZMod Config.p) = 0
  · rw [h0, inv_zero, zero_pow (by decide +kernel)]
  · refine eq_inv_of_mul_eq_one_left ?_
    rw [← pow_succ, show Config.eInv + 1 = Config.p - 1 by have := Laws.eInv_eq; omega]
    exact ZMod.pow_card_sub_one_eq_one h0

theorem cast_finv_mul {a : Nat} (h0 : (a : ZMod Config.p) ≠ 0) : ((finv a : Nat) : ZMod Config.p) * a = 1 := by
  have := Laws.fact_p_prime
  rw [cast_finv, inv_mul_cancel₀ h0]

@[simp] theorem fmul_zero (a : Nat) : fmul a 0 = 0 := by rw [fmul, Nat.mul_zero, Nat.zero_mod]
@[simp] theorem zero_fmul (a : Nat) : fmul 0 a = 0 := by rw [fmul, Nat.zero_mul, Nat.zero_mod]

theorem feq_iff {a b : Nat} : feq a b = true ↔ a = b := beq_iff_eq

theorem isZero_iff {a : Nat} : isZero a = true ↔ a = 0 := feq_iff

/-- The square of a canonical number is one number, whether it is multiplied out or computed. -/
theorem fmul_fsqr_eq_iff {a v c : Nat} (hc : c < Config.p) :
    fmul (fsqr a) v = c ↔ (a : ZMod Config.p) ^ 2 * v = c := by
  rw [fmul, mod_p_eq_iff hc, Nat.cast_mul, cast_fsqr]

/-! ### The square-root ratio -/

/-- The root is (u·v³)^E_SQRT·u·v (R210). -/
theorem cast_root (u v : Nat) : (((sqrtRatio u v).1 : Nat) : ZMod Config.p) =
    ((u : ZMod Config.p) * v ^ 3) ^ Config.eSqrt * u * v := by
  simp only [sqrtRatio, cast_fmul, cast_fpow, cast_fcube]

theorem root_lt (u v : Nat) : (sqrtRatio u v).1 < Config.p := fmul_lt _ _

/-- The flag says root²·v = u (R210). -/
theorem isSquare_iff {u : Nat} (hu : u < Config.p) (v : Nat) :
    (sqrtRatio u v).2 = true ↔ (((sqrtRatio u v).1 : Nat) : ZMod Config.p) ^ 2 * v = u := by
  rw [← fmul_fsqr_eq_iff hu]
  exact feq_iff

/-- The exact root, as the spec writes it (R210). -/
theorem root_eq (u v : Nat) : (sqrtRatio u v).1 = (u * v ^ 3) ^ ((Config.p - 3) / 4) * u * v % Config.p := by
  have he : (Config.p - 3) / 4 = Config.eSqrt := by have := Laws.eSqrt_eq; omega
  rw [he]
  refine ((mod_p_eq_iff (root_lt u v)).mpr ?_).symm
  rw [cast_root]
  push_cast
  rfl

/-- The flag, as the spec writes it (R210). -/
theorem isSquare_iff_mod {u : Nat} (hu : u < Config.p) (v : Nat) :
    (sqrtRatio u v).2 = true ↔ (sqrtRatio u v).1 ^ 2 * v % Config.p = u := by
  rw [isSquare_iff hu, mod_p_eq_iff hu]
  push_cast
  rfl

/-- root²·v is u times χ(u·v), where v ≠ 0 (R211): the factor between them is v^(p − 1). -/
theorem root_sq_mul (u : Nat) {v : Nat} (hv : (v : ZMod Config.p) ≠ 0) :
    (((sqrtRatio u v).1 : Nat) : ZMod Config.p) ^ 2 * v = u * (u * v) ^ (2 * Config.eSqrt + 1) := by
  have h1 := sq_pow_eq_one hv
  rw [cast_root]
  generalize (u : ZMod Config.p) = a, (v : ZMod Config.p) = b, Config.eSqrt = e at h1
  calc ((a * b ^ 3) ^ e * a * b) ^ 2 * b = a * (a * b) ^ (2 * e + 1) * (b ^ 2) ^ (2 * e + 1) := by ring
    _ = a * (a * b) ^ (2 * e + 1) := by rw [h1, mul_one]

/-- χ of anything but 0 is 1 or −1. -/
theorem pow_eq_one_or_neg_one {a : ZMod Config.p} (ha : a ≠ 0) :
    a ^ (2 * Config.eSqrt + 1) = 1 ∨ a ^ (2 * Config.eSqrt + 1) = -1 := by
  have := Laws.fact_p_prime
  have h := sq_pow_eq_one ha
  rw [← pow_mul, mul_comm, pow_mul] at h
  exact sq_eq_sq_iff_eq_or_eq_neg.mp (h.trans (one_pow 2).symm)

/-- Where u·v ≠ 0, root²·v is u or −u (R211). -/
theorem root_sq_mul_cases {u v : Nat} (hu : (u : ZMod Config.p) ≠ 0) (hv : (v : ZMod Config.p) ≠ 0) :
    (((sqrtRatio u v).1 : Nat) : ZMod Config.p) ^ 2 * v = u ∨
    (((sqrtRatio u v).1 : Nat) : ZMod Config.p) ^ 2 * v = -u := by
  have := Laws.fact_p_prime
  rw [root_sq_mul u hv]
  rcases pow_eq_one_or_neg_one (mul_ne_zero hu hv) with h | h <;> rw [h]
  · exact .inl (mul_one _)
  · exact .inr (mul_neg_one _)

/-- The flag tells whether u/v is a square: x²·v = u has a solution (R211). -/
theorem isSquare_iff_exists {u v : Nat} (hu : u < Config.p) (hu0 : (u : ZMod Config.p) ≠ 0)
    (hv : (v : ZMod Config.p) ≠ 0) : (sqrtRatio u v).2 = true ↔ ∃ x : ZMod Config.p, x ^ 2 * v = u := by
  have := Laws.fact_p_prime
  refine (isSquare_iff hu v).trans ⟨fun h => ⟨_, h⟩, fun ⟨x, hx⟩ => ?_⟩
  have hxv : x * v ≠ 0 := mul_ne_zero (by rintro rfl; exact hu0 (by simp [← hx])) hv
  have hsq : (u : ZMod Config.p) * v = (x * v) ^ 2 := by rw [← hx]; ring
  rw [root_sq_mul u hv, hsq, sq_pow_eq_one hxv, mul_one]

/-- The ratio of 0 over anything has root 0, and is a square (R211). -/
theorem sqrtRatio_zero_left (v : Nat) : sqrtRatio 0 v = (0, true) := by
  have hroot : (sqrtRatio 0 v).1 = 0 := by simp [sqrtRatio]
  have hflag : (sqrtRatio 0 v).2 = true := by rw [isSquare_iff p_pos, hroot]; simp
  exact Prod.ext hroot hflag

/-! ### The denominator that MAP inverts -/

theorem select_lt {c : Bool} {a b : Nat} (ha : a < Config.p) (hb : b < Config.p) : select c a b < Config.p := by
  cases c
  · exact hb
  · exact ha

theorem sswuT1_lt (u : Nat) : sswuT1 u < Config.p := fadd_lt _ _

/-- x1d is Z where t1 is 0, and t1 elsewhere (R231). -/
theorem sswuX1d_eq (u : Nat) : sswuX1d u = if sswuT1 u = 0 then Config.curveZ else sswuT1 u := by
  rw [sswuX1d, select, if_congr isZero_iff rfl rfl]

/-- x1n is B/A where t1 is 0, and −B/A·(1 + t1) elsewhere (R231). -/
theorem sswuX1n_eq (u : Nat) : sswuX1n u =
    if sswuT1 u = 0 then Config.cBA else fmul Config.cNegBA (fadd 1 (sswuT1 u)) := by
  rw [sswuX1n, select, if_congr isZero_iff rfl rfl]

theorem sswuX1d_ne_zero (u : Nat) : sswuX1d u ≠ 0 := by
  rw [sswuX1d_eq]
  split
  · decide
  · assumption

theorem sswuX1d_lt (u : Nat) : sswuX1d u < Config.p := select_lt (by decide) (sswuT1_lt u)

/-! ### The constants -/

theorem fpow_curveZ : fpow Config.curveZ (2 * Config.eSqrt + 1) = Config.p - 1 := by decide +kernel

theorem fpow_neg_one : fpow (Config.p - 1) (2 * Config.eSqrt + 1) = Config.p - 1 := by decide +kernel

/-- A canonical constant whose χ is −1 is no square (R133). -/
theorem not_square_of_fpow {c : Nat} (hc : c < Config.p) (h0 : c ≠ 0)
    (h : fpow c (2 * Config.eSqrt + 1) = Config.p - 1) (x : Nat) : x * x % Config.p ≠ c := by
  have hpow : (c : ZMod Config.p) ^ (2 * Config.eSqrt + 1) ≠ 1 := by
    rw [Laws.cast_pow_eq h]
    exact fun h1 => absurd (eq_of_cast_eq (a := Config.p - 1) (b := 1) (by decide) (by decide) (by simpa using h1))
      (by decide)
  rw [ne_eq, mod_p_eq_iff hc, Nat.cast_mul, ← sq]
  exact not_square_of_pow (cast_ne_zero hc h0) hpow x

/-! ### The obligations -/

/-- Settles O36, over the field: the root's formula, and χ(u·v) as the factor between root²·v and u. -/
theorem sqrtRatioMeaning : Obligations.SqrtRatioMeaning := by
  intro u v hu hv
  refine ⟨root_eq u v, isSquare_iff_mod hu v, fun hu0 hv0 => ?_, fun h => by rw [h, sqrtRatio_zero_left]⟩
  have hu' := cast_ne_zero hu hu0
  have hv' := cast_ne_zero hv hv0
  refine ⟨?_, ?_, fun h => ?_, fun h => ?_⟩
  · have he : (Config.p - 1) / 2 = 2 * Config.eSqrt + 1 := by have := Laws.eSqrt_eq; omega
    rw [fmul_fsqr_eq_iff (fmul_lt _ _), root_sq_mul u hv', he, cast_fmul, cast_fpow, cast_fmul]
  · rw [isSquare_iff_exists hu hu' hv']
    constructor
    · rintro ⟨x, hx⟩
      obtain ⟨a, -, rfl⟩ := exists_cast_eq x
      exact ⟨a, (fmul_fsqr_eq_iff hu).mpr hx⟩
    · rintro ⟨x, hx⟩
      exact ⟨x, (fmul_fsqr_eq_iff hu).mp hx⟩
  · exact (fmul_fsqr_eq_iff hu).mpr ((isSquare_iff hu v).mp h)
  · rw [fmul_fsqr_eq_iff (fneg_lt u), cast_fneg hu.le]
    refine (root_sq_mul_cases hu' hv').resolve_left fun hsq => ?_
    exact absurd ((isSquare_iff hu v).mpr hsq) (by simp [h])

/-- Settles O28: over the field `finv` is the inverse, and x1d is t1, or Z where t1 is 0. -/
theorem inversionIsExact : Obligations.InversionIsExact := by
  have := Laws.fact_p_prime
  refine ⟨fun _ => rfl, fun a ha0 ha b hb => ?_, by decide +kernel, fun u _ => ?_⟩
  · have h0 := cast_ne_zero ha ha0.ne'
    rw [mod_p_eq_iff (by decide), Nat.cast_mul, Nat.cast_one, mul_comm, mul_eq_one_iff_eq_inv₀ h0, ← cast_finv,
      cast_inj_iff hb (finv_lt a)]
  · exact ⟨sswuX1d_ne_zero u, sswuX1d_lt u⟩

/-- Settles O29: Euler's criterion for the non-squares, and the root of each square. -/
theorem constantProperties : Obligations.ConstantProperties := by
  refine ⟨not_square_of_fpow (by decide) (by decide) fpow_curveZ,
    not_square_of_fpow (by decide) (by decide) fpow_neg_one,
    ⟨by decide +kernel, fpow 10 ((Config.p + 1) / 4), fpow_lt _ _, by decide +kernel⟩,
    ⟨by decide +kernel, Config.cSqrtNegZ3, by decide, by decide +kernel⟩,
    fpow (curvePoly Config.cBZA 1) ((Config.p + 1) / 4), fpow_lt _ _, by decide +kernel⟩

/-- Settles O30, by evaluation of the constants. -/
theorem constantTableIsRight : Obligations.ConstantTableIsRight := by
  unfold Obligations.ConstantTableIsRight
  decide +kernel

end Sys2Proof.Machine

/-! Settling what each command does: the state that a command without error leaves, its destinations, and what it reads.
Then the obligations O19, O20, O21, O22, O23, O24, O25, O26, O37 and O38. -/

namespace Sys2Proof.Machine

/-! ### Field registers that hold canonical values -/

theorem lt_two_pow_of_canonical {v : Nat} (h : v < Config.p) : v < 2 ^ 256 := h.trans (by decide)

theorem State.feVal_setFe_self (s : State) (r : FieldReg) {v : Nat} (h : v < Config.p) : (s.setFe r v).feVal r = v :=
  s.setFe_feVal_self r (lt_two_pow_of_canonical h)

theorem State.feVal_setFe_of_ne (s : State) {r k : FieldReg} (h : k ≠ r) (v : Nat) :
    (s.setFe r v).feVal k = s.feVal k := congrArg BitVec.toNat (s.setFe_getElem_of_ne h v)

/-- A register written with a canonical value holds it, and the others are unchanged. -/
theorem State.setFe_kept_or_canonical (s : State) (r : FieldReg) {v : Nat} (h : v < Config.p) (k : FieldReg) :
    (s.setFe r v).fe[k] = s.fe[k] ∨ (s.setFe r v).feVal k < Config.p := by
  by_cases hk : k = r
  · subst hk
    exact .inr ((s.feVal_setFe_self k h).trans_lt h)
  · exact .inl (s.setFe_getElem_of_ne hk v)

/-- H2F's registers, where every element is canonical (R191). -/
theorem State.feVal_setFeFrom (s : State) (rd : FieldReg) {es : List Nat} (hes : ∀ e ∈ es, e < Config.p)
    (k : FieldReg) : (s.setFeFrom rd es).feVal k =
      if rd.val ≤ k.val ∧ k.val < rd.val + es.length then es.getD (k.val - rd.val) 0 else s.feVal k := by
  rw [State.feVal, s.setFeFrom_getElem rd es k]
  split
  next hk =>
    have hlt : k.val - rd.val < es.length := by omega
    have hmem : es.getD (k.val - rd.val) 0 < Config.p := by
      rw [List.getD_eq_getElem es 0 hlt]; exact hes _ (List.getElem_mem hlt)
    rw [BitVec.toNat_ofNat, Nat.mod_eq_of_lt (lt_two_pow_of_canonical hmem)]
  next => rfl

/-- H2F's registers keep their value, or hold an element. -/
theorem State.setFeFrom_kept_or_canonical (s : State) (rd : FieldReg) {es : List Nat} (hes : ∀ e ∈ es, e < Config.p)
    (k : FieldReg) : (s.setFeFrom rd es).fe[k] = s.fe[k] ∨ (s.setFeFrom rd es).feVal k < Config.p := by
  by_cases hk : rd.val ≤ k.val ∧ k.val < rd.val + es.length
  · have hlt : k.val - rd.val < es.length := by omega
    rw [s.feVal_setFeFrom rd hes, if_pos hk, List.getD_eq_getElem es 0 hlt]
    exact .inr (hes _ (List.getElem_mem hlt))
  · exact .inl (by rw [s.setFeFrom_getElem, if_neg hk])

/-- Element j of hash-to-field is chunk j of the expansion modulo p (R190). -/
theorem hashToField_getD (msg dst : List Byte) {count j : Nat} (hj : j < count) :
    (hashToField msg dst count).getD j 0 =
      os2ip (((expand msg dst (48 * count)).drop (48 * j)).take 48) % Config.p := by
  have hlen : j < (hashToField msg dst count).length := by rwa [hashToField_length]
  rw [List.getD_eq_getElem _ 0 hlen]
  simp [hashToField, reduce48, Config.chunkLen]

/-! ### The point of the map and its sign -/

theorem sswuY2_lt (u y : Nat) : sswuY2 u y < Config.p := fmul_lt _ _

theorem fixSign_lt (u : Nat) {y : Nat} (hy : y < Config.p) : fixSign u y < Config.p := select_lt hy (fneg_lt y)

theorem sswu_x_lt (u : Nat) : (sswu u).x < Config.p := fmul_lt _ _

theorem sswu_y_lt (u : Nat) : (sswu u).y < Config.p := fixSign_lt u (select_lt (root_lt _ _) (sswuY2_lt _ _))

/-! ### XMD and then the REDUCEs -/

/-- A part of a written range reads back as that part of what was stored. -/
theorem Memory.readBytes_writeBytes_part (m : Memory) (a : Nat) {b : List Byte} {k n : Nat} (h : k + n ≤ b.length) :
    (m.writeBytes a b).readBytes (a + k) n = (b.drop k).take n := by
  apply List.ext_getElem
  · simp [Memory.readBytes]; omega
  · intro i hi _
    have hin : i < n := by simpa using hi
    simp only [Memory.readBytes, List.getElem_map, List.getElem_range, List.getElem_take, List.getElem_drop]
    rw [Memory.read_writeBytes, if_pos (by omega), show a + k + i - a = k + i by omega, List.getD_eq_getElem]

theorem State.setFe_getElem_self (s : State) (r : FieldReg) (v : Nat) : (s.setFe r v).fe[r] = BitVec.ofNat 256 v := by
  simp [State.setFe]

/-- States that differ from one state in their registers alone are equal where the registers are. -/
theorem State.eq_of_fe {s a b : State} (ha : a = { s with fe := a.fe }) (hb : b = { s with fe := b.fe })
    (h : ∀ k : FieldReg, a.fe[k] = b.fe[k]) : a = b := by
  have hfe : a.fe = b.fe := Vector.ext fun k hk => h ⟨k, hk⟩
  rw [ha, hb, hfe]

theorem State.setFeFrom_nil (s : State) (rd : FieldReg) : s.setFeFrom rd [] = s := by
  refine State.eq_of_fe (s := s) rfl rfl fun k => ?_
  rw [s.setFeFrom_getElem, if_neg (by simp)]

/-- Writing one element more is writing the register after the others. -/
theorem State.setFe_setFeFrom (s : State) (rd : FieldReg) (es : List Nat) (e : Nat) (h : rd.val + es.length < 8) :
    (s.setFeFrom rd es).setFe (Fin.ofNat 8 (rd.val + es.length)) e = s.setFeFrom rd (es ++ [e]) := by
  have hr : (Fin.ofNat 8 (rd.val + es.length)).val = rd.val + es.length := Nat.mod_eq_of_lt h
  refine State.eq_of_fe (s := s) rfl rfl fun k => ?_
  rw [s.setFeFrom_getElem, List.length_append, List.length_singleton]
  by_cases hk : k = Fin.ofNat 8 (rd.val + es.length)
  · subst hk
    rw [State.setFe_getElem_self, if_pos (by omega), hr, Nat.add_sub_cancel_left, List.getD_append_right _ _ _ _ le_rfl]
    simp
  · have hne : k.val ≠ rd.val + es.length := fun he => hk (Fin.ext (he.trans hr.symm))
    rw [State.setFe_getElem_of_ne _ hk, s.setFeFrom_getElem]
    refine ite_congr (by rw [eq_iff_iff]; omega) (fun hin => ?_) fun _ => rfl
    rw [List.getD_append _ _ _ _ (by omega)]

/-- A REDUCE of chunk i, over a state whose registers hold the elements before it, writes element i (R193). -/
theorem exec_reduce_chunk {x : State}
    (hx : x = { x with errCode := 0, errArg := 0, done := true, execState := .idle }) {rd : FieldReg} {es : List Nat}
    (h8 : rd.val + es.length ≤ 8) {i : Nat} (hi : i < es.length) (hchunk : reduce48 (x.xoutBytes (48 * i) 48) = es[i]) :
    exec (.reduce (Fin.ofNat 8 (rd.val + i)) (48 * i)) (x.setFeFrom rd (es.take i)) =
      .next (x.setFeFrom rd (es.take (i + 1))) := by
  have hlen : (es.take i).length = i := by rw [List.length_take]; omega
  have hstep := x.setFe_setFeFrom rd (es.take i) es[i] (by omega)
  rw [hlen, List.take_concat_get' es i hi] at hstep
  have hbytes : (x.setFeFrom rd (es.take i)).xoutBytes (48 * i) Config.chunkLen = x.xoutBytes (48 * i) 48 := rfl
  rw [exec_of_result (reduceResult_ok _ _ (by omega)), hbytes, hchunk, hstep]
  conv_rhs => rw [hx]
  rfl

/-! ### What the commands read -/

/-- ERR after a command is decided by the first check that fails. -/
theorem exec_errWord_congr {i : Instr} {s t s' t' : State} (h : firstFailure i s = firstFailure i t)
    (hs : exec i s = .next s') (ht : exec i t = .next t') : s'.errWord = t'.errWord := by
  rw [← resultError_commandResult, ← resultError_commandResult] at h
  rw [exec_eq] at hs ht
  cases hs
  cases ht
  cases hr : commandResult i s with
  | error e => rw [hr, resultError, eq_comm, resultError_eq_some] at h; rw [h]; rfl
  | ok u =>
    cases hr' : commandResult i t with
    | error e => rw [hr, hr'] at h; cases h
    | ok u' => rw [State.finish_ok_errWord, State.finish_ok_errWord]

/-- A command that leaves ERR.CODE 0 passed all its checks. -/
theorem firstFailure_eq_none {i : Instr} {s s' : State} (hs : exec i s = .next s') (h0 : s'.errCode = 0) :
    firstFailure i s = none := by
  rw [exec_eq] at hs
  cases hs
  obtain ⟨u, hu⟩ := (s.finish_errCode_eq_zero _).mp h0
  exact firstFailure_eq_none_of_ok hu

/-- The message and the tag are the bytes that the lengths name (R83). -/
theorem readBytes_congr_length {m m' : Memory} {a : Nat} {k k' : BitVec 16} (hk : k = k')
    (h : ∀ i < k.toNat, m.read (a + i) = m'.read (a + i)) : m.readBytes a k.toNat = m'.readBytes a k'.toNat := by
  subst hk
  exact Memory.readBytes_congr h

/-! ### What the commands write -/

/-- A command without error leaves a register, or writes it with a canonical value (R141). -/
theorem commandResult_fe {i : Instr} {s u : State} (h : commandResult i s = .ok u) (k : FieldReg) :
    u.fe[k] = s.fe[k] ∨ u.feVal k < Config.p := by
  have hpass := firstFailure_eq_none_of_ok h
  cases i with
  | nop => cases h; exact .inl rfl
  | xmd n =>
    obtain ⟨hm, hd, hn⟩ := firstFailure_xmd_eq_none hpass
    cases (xmdResult_ok hm hd hn).symm.trans h
    exact .inl rfl
  | h2f rd count =>
    obtain ⟨hc, h8, hm, hd⟩ := firstFailure_h2f_eq_none hpass
    cases (h2fResult_ok hc h8 hm hd).symm.trans h
    exact s.setFeFrom_kept_or_canonical rd (fun e he => hashToField_lt he) k
  | reduce rd off =>
    cases (reduceResult_ok rd s (firstFailure_reduce_eq_none hpass)).symm.trans h
    exact s.setFe_kept_or_canonical rd (reduce48_lt _) k
  | sqrtr rd ru rv =>
    obtain ⟨hu, hv⟩ := firstFailure_sqrtr_eq_none hpass
    cases (sqrtrResult_ok rd hu hv).symm.trans h
    exact s.setFe_kept_or_canonical rd (root_lt _ _) k
  | map rx ry ru =>
    obtain ⟨hxy, hu⟩ := firstFailure_map_eq_none hpass
    cases (mapResult_ok hxy hu).symm.trans h
    rcases (s.setFe rx (sswu (s.feVal ru)).x).setFe_kept_or_canonical ry (sswu_y_lt _) k with hkept | hcanon
    · refine (s.setFe_kept_or_canonical rx (sswu_x_lt _) k).imp hkept.trans fun hx => ?_
      exact (congrArg BitVec.toNat hkept).trans_lt hx
    · exact .inr hcanon

/-! ### The square-root ratio's corner cases -/

/-- The ratio over 0 has root 0, and is a square where u is 0 alone (R212). -/
theorem sqrtRatio_zero_right (u : Nat) : sqrtRatio u 0 = (0, u == 0) := by
  have hroot : (sqrtRatio u 0).1 = 0 := by simp [sqrtRatio]
  have hflag : (sqrtRatio u 0).2 = (u == 0) := by simp [sqrtRatio, feq, BEq.comm (a := u)]
  exact Prod.ext hroot hflag

/-- The ratio of u over itself has root 1 and is a square (R214). -/
theorem sqrtRatio_self {u : Nat} (hu : u < Config.p) (hu0 : u ≠ 0) : sqrtRatio u u = (1, true) := by
  have h1 := sq_pow_eq_one (cast_ne_zero hu hu0)
  have hroot : (sqrtRatio u u).1 = 1 := by
    refine eq_of_cast_eq (root_lt u u) (by decide) ?_
    rw [cast_root, Nat.cast_one, ← h1]
    ring
  have hflag : (sqrtRatio u u).2 = true := by rw [isSquare_iff hu, hroot]; simp
  exact Prod.ext hroot hflag

/-! ### The obligations -/

/-- Settles O19: the expansion has n bytes, and stands in XOUT from 0x2000 on. -/
theorem xmdWritesTheExpansion : Obligations.XmdWritesTheExpansion := by
  intro n s hm hd hn
  refine ⟨_, exec_of_result (xmdResult_ok hm hd hn), rfl, fun i hi => ?_, fun a ha => ?_⟩
  · refine (s.mem.read_writeBytes _ _ _).trans ?_
    have hbase : Config.xoutBase = 0x2000 := rfl
    rw [if_pos (by rw [expand_length]; omega), hbase, Nat.add_sub_cancel_left]
    rfl
  · exact s.mem.read_writeBytes_outside _ _ a (by rwa [expand_length])

/-- Settles O20: the registers after `setFeFrom`, with the elements of `hashToField`. -/
theorem hashToFieldWritesElements : Obligations.HashToFieldWritesElements := by
  intro rd count s hc h8 hm hd
  refine ⟨_, exec_of_result (h2fResult_ok hc h8 hm hd), rfl, fun k => ?_⟩
  refine (s.feVal_setFeFrom rd (fun e he => hashToField_lt he) k).trans ?_
  rw [hashToField_length]
  exact ite_congr rfl (fun hk => hashToField_getD _ _ (by omega)) fun _ => rfl

/-- Settles O21: the written register holds the reduced chunk, which is canonical. -/
theorem reduceWritesOneRegister : Obligations.ReduceWritesOneRegister := by
  intro rd off s ho
  exact ⟨_, exec_of_result (reduceResult_ok rd s ho), rfl, s.feVal_setFe_self rd (reduce48_lt _),
    fun k hk => s.feVal_setFe_of_ne hk _⟩

/-- Settles O22: the written register holds the root, which `root_eq` and `isSquare_iff_mod` say exactly. -/
theorem sqrtrWritesRootAndFlag : Obligations.SqrtrWritesRootAndFlag := by
  intro rd ru rv s hu hv
  have hroot : (s.setFe rd (sqrtRatio (s.feVal ru) (s.feVal rv)).1).feVal rd =
      (sqrtRatio (s.feVal ru) (s.feVal rv)).1 := s.feVal_setFe_self rd (root_lt _ _)
  have hflag := isSquare_iff_mod hu (s.feVal rv)
  refine ⟨_, exec_of_result (sqrtrResult_ok rd hu hv), rfl, hroot, hroot.trans (root_eq _ _), hflag.trans ?_,
    fun k hk => s.feVal_setFe_of_ne hk _⟩
  exact iff_of_eq (congrArg (fun r => r ^ 2 * s.feVal rv % Config.p = s.feVal ru) hroot.symm)

/-- Settles O23: x and then y are written, each canonical, to two different registers. -/
theorem mapWritesPointAndFlag : Obligations.MapWritesPointAndFlag := by
  intro rx ry ru s hxy hu
  refine ⟨_, exec_of_result (mapResult_ok hxy hu), rfl, ?_, State.feVal_setFe_self _ ry (sswu_y_lt _),
    fun k hkx hky => ?_⟩
  · exact (State.feVal_setFe_of_ne _ hxy _).trans (s.feVal_setFe_self rx (sswu_x_lt _))
  · exact (State.feVal_setFe_of_ne _ hky _).trans (s.feVal_setFe_of_ne hkx _)

/-- Settles O24: the REDUCEs write the elements of `hashToField` one by one, each from its chunk of the expansion that
XMD wrote. -/
theorem hashToFieldIsXmdThenReduce : Obligations.HashToFieldIsXmdThenReduce := by
  intro rd count s h x hc h8 hm hd hh hx
  rw [exec_of_result (h2fResult_ok hc h8 hm hd)] at hh
  rw [exec_of_result (xmdResult_ok hm hd (by omega))] at hx
  obtain rfl := Host.Outcome.next.inj hh
  obtain rfl := Host.Outcome.next.inj hx
  have hlen : (hashToField s.message s.tag count).length = count := hashToField_length _ _ _
  have hout := expand_length s.message s.tag (48 * count)
  refine ⟨fun i => State.setFeFrom _ rd ((hashToField s.message s.tag count).take i), State.setFeFrom_nil _ rd,
    fun i hi => exec_reduce_chunk rfl (by omega) (by omega) ?_, ?_, rfl, rfl, fun a ha => ?_⟩
  · refine Eq.trans ?_ ((hashToField_getD s.message s.tag hi).symm.trans (List.getD_eq_getElem _ 0 (by omega)))
    exact congrArg (fun b => os2ip b % Config.p) (s.mem.readBytes_writeBytes_part _ (by omega))
  · exact congrArg (fun es => (s.setFeFrom rd es).fe) (List.take_of_length_le hlen.le)
  · exact s.mem.read_writeBytes_outside _ _ a (by rwa [hout])

/-- Settles O25: equal inputs pass the same checks, and the values of the destinations are those of O19 to O23. -/
theorem commandsReadOnlyTheirInputs : Obligations.CommandsReadOnlyTheirInputs := by
  refine fun s t => ⟨fun n s' t' hm hd hmsg htag hs ht => ?_, fun rd count s' t' hm hd hmsg htag hs ht => ?_,
    fun rd off s' t' hx hs ht => ?_, fun rd ru rv s' t' hu hv hs ht => ?_, fun rx ry ru s' t' hu hs ht => ?_⟩
  · refine ⟨exec_errWord_congr (firstFailure_congr hm hd (by simp [checkedOperands])) hs ht, fun h0 i hi => ?_⟩
    obtain ⟨hml, hdl, hn⟩ := firstFailure_xmd_eq_none (firstFailure_eq_none hs h0)
    obtain ⟨_, hs₁, -, hsval, -⟩ := xmdWritesTheExpansion n s hml hdl hn
    obtain ⟨_, ht₁, -, htval, -⟩ := xmdWritesTheExpansion n t (hm ▸ hml) (hd ▸ hdl) hn
    obtain rfl := Host.Outcome.next.inj (hs.symm.trans hs₁)
    obtain rfl := Host.Outcome.next.inj (ht.symm.trans ht₁)
    rw [hsval i hi, htval i hi, readBytes_congr_length hm hmsg, readBytes_congr_length hd htag]
  · refine ⟨exec_errWord_congr (firstFailure_congr hm hd (by simp [checkedOperands])) hs ht, fun h0 k hk hk' => ?_⟩
    obtain ⟨hc, h8, hml, hdl⟩ := firstFailure_h2f_eq_none (firstFailure_eq_none hs h0)
    obtain ⟨_, hs₁, -, hsval⟩ := hashToFieldWritesElements rd count s hc h8 hml hdl
    obtain ⟨_, ht₁, -, htval⟩ := hashToFieldWritesElements rd count t hc h8 (hm ▸ hml) (hd ▸ hdl)
    obtain rfl := Host.Outcome.next.inj (hs.symm.trans hs₁)
    obtain rfl := Host.Outcome.next.inj (ht.symm.trans ht₁)
    rw [hsval k, htval k, if_pos ⟨hk, hk'⟩, if_pos ⟨hk, hk'⟩, readBytes_congr_length hm hmsg,
      readBytes_congr_length hd htag]
  · refine ⟨exec_errWord_congr (s := s) (t := t) rfl hs ht, fun h0 => ?_⟩
    have ho := firstFailure_reduce_eq_none (firstFailure_eq_none hs h0)
    obtain ⟨_, hs₁, -, hsval, -⟩ := reduceWritesOneRegister rd off s ho
    obtain ⟨_, ht₁, -, htval, -⟩ := reduceWritesOneRegister rd off t ho
    obtain rfl := Host.Outcome.next.inj (hs.symm.trans hs₁)
    obtain rfl := Host.Outcome.next.inj (ht.symm.trans ht₁)
    rw [hsval, htval, Memory.readBytes_congr hx]
  · refine ⟨exec_errWord_congr (by simp only [firstFailure, hu, hv]) hs ht, fun h0 => ?_⟩
    obtain ⟨hup, hvp⟩ := firstFailure_sqrtr_eq_none (firstFailure_eq_none hs h0)
    obtain ⟨_, hs₁, hsframe, hsval, -⟩ := sqrtrWritesRootAndFlag rd ru rv s hup hvp
    obtain ⟨_, ht₁, htframe, htval, -⟩ := sqrtrWritesRootAndFlag rd ru rv t (hu ▸ hup) (hv ▸ hvp)
    obtain rfl := Host.Outcome.next.inj (hs.symm.trans hs₁)
    obtain rfl := Host.Outcome.next.inj (ht.symm.trans ht₁)
    refine ⟨by rw [hsval, htval, hu, hv],
      (congrArg State.qr hsframe).trans (.trans ?_ (congrArg State.qr htframe).symm)⟩
    simp only [hu, hv]
  · refine ⟨exec_errWord_congr (by simp only [firstFailure, hu]) hs ht, fun h0 => ?_⟩
    obtain ⟨hxy, hup⟩ := firstFailure_map_eq_none (firstFailure_eq_none hs h0)
    obtain ⟨_, hs₁, hsframe, hsx, hsy, -⟩ := mapWritesPointAndFlag rx ry ru s hxy hup
    obtain ⟨_, ht₁, htframe, htx, hty, -⟩ := mapWritesPointAndFlag rx ry ru t hxy (hu ▸ hup)
    obtain rfl := Host.Outcome.next.inj (hs.symm.trans hs₁)
    obtain rfl := Host.Outcome.next.inj (ht.symm.trans ht₁)
    refine ⟨by rw [hsx, htx, hu], by rw [hsy, hty, hu],
      (congrArg State.qr hsframe).trans (.trans ?_ (congrArg State.qr htframe).symm)⟩
    simp only [hu]

/-- Settles O26: the primitives' bounds, and the destinations of each command. -/
theorem commandsWriteCanonicalValues : Obligations.CommandsWriteCanonicalValues := by
  refine ⟨fun a b k => ⟨fadd_lt a b, fsub_lt a b, fneg_lt a, fmul_lt a b, fsqr_lt a, fpow_lt a k, finv_lt a⟩,
    fun _ _ _ ha hb => select_lt ha hb, fun a => (Nat.mod_lt a Nat.two_pos).trans (by decide), fun i s t r h => ?_⟩
  rw [exec_eq] at h
  cases h
  cases hr : commandResult i s with
  | error e => exact .inl rfl
  | ok u => exact commandResult_fe hr r

/-- Settles O37: both factors of the root hold v, which is 0. -/
theorem sqrtRatioOfZeroDenominator : Obligations.SqrtRatioOfZeroDenominator := by
  refine ⟨fun u _ => sqrtRatio_zero_right u, fun rd ru rv s hu hv => ?_⟩
  obtain ⟨t, ht, hframe, hroot, -⟩ := sqrtrWritesRootAndFlag rd ru rv s hu (hv ▸ p_pos)
  rw [hv, sqrtRatio_zero_right] at hframe hroot
  exact ⟨t, ht, congrArg State.errCode hframe, hroot, congrArg State.qr hframe⟩

/-- Settles O38: over u = v the root is u^(p − 1). -/
theorem sqrtrOfEqualOperands : Obligations.SqrtrOfEqualOperands := by
  intro rd r s hr
  obtain ⟨t, ht, hframe, hroot, -⟩ := sqrtrWritesRootAndFlag rd r r s hr hr
  have hratio : sqrtRatio (s.feVal r) (s.feVal r) = (if s.feVal r = 0 then 0 else 1, true) := by
    split
    next h0 => rw [h0, sqrtRatio_zero_left]
    next h0 => exact sqrtRatio_self hr h0
  rw [hratio] at hframe hroot
  exact ⟨t, ht, congrArg State.qr hframe, congrArg State.errCode hframe, hroot⟩

end Sys2Proof.Machine

/-! Settling spec/44_sswu_map.md: the map over `ZMod p`. The first candidate is x1n/x1d; where its g is no square, Z·u²
times it is taken, whose g is (Z·u²)³ times as large; and y is the root with the sign of u. Then the obligations O39,
O40 and O41. -/

namespace Sys2Proof.Machine

/-! ### The curve's equation over the field -/

/-- x³ + A·x + B over the field, where A = −3 (R132). -/
def curveRhs (x : ZMod Config.p) : ZMod Config.p := x ^ 3 - 3 * x + (Config.curveB : Nat)

theorem cast_curveG (x : Nat) : ((curveG x : Nat) : ZMod Config.p) = curveRhs x := by
  simp only [curveG, cast_fadd, cast_fcube, cast_fmul, Laws.cast_curveA, curveRhs]
  ring

theorem curveG_lt (x : Nat) : curveG x < Config.p := fadd_lt _ _

/-- No point of the curve has y = 0 (R134). -/
theorem curveRhs_ne_zero (x : ZMod Config.p) : curveRhs x ≠ 0 := Laws.cubic_no_root x

theorem curvePoly_lt (n d : Nat) : curvePoly n d < Config.p := fadd_lt _ _

/-- The homogeneous polynomial at n, d is d³ times the polynomial at x, where x = n/d (R230, step 4). -/
theorem cast_curvePoly {x : ZMod Config.p} {n d : Nat} (h : x * d = n) :
    ((curvePoly n d : Nat) : ZMod Config.p) = d ^ 3 * curveRhs x := by
  simp only [curvePoly, cast_fadd, cast_fcube, cast_fmul, cast_fsqr, Laws.cast_curveA, curveRhs, ← h]
  ring

/-! ### Z·u² and t1 -/

theorem cast_sswuZu2 (u : Nat) : ((sswuZu2 u : Nat) : ZMod Config.p) = -10 * (u : ZMod Config.p) ^ 2 := by
  rw [sswuZu2, cast_fmul, cast_fsqr, Laws.cast_curveZ]

theorem sswuZu2_lt (u : Nat) : sswuZu2 u < Config.p := fmul_lt _ _

theorem cast_sswuT1 (u : Nat) : ((sswuT1 u : Nat) : ZMod Config.p) =
    (sswuZu2 u : ZMod Config.p) + (sswuZu2 u : ZMod Config.p) ^ 2 := by
  rw [sswuT1, cast_fadd, cast_fsqr]

theorem cast_ten_ne_zero : (10 : ZMod Config.p) ≠ 0 := by
  have := cast_ne_zero (a := 10) (by decide) (by decide)
  exact_mod_cast this

/-- t1 is 0 where Z·u² is 0 or −1 (R232). -/
theorem sswuT1_eq_zero_iff {u : Nat} (hu : u < Config.p) :
    sswuT1 u = 0 ↔ u = 0 ∨ sswuZu2 u = Config.p - 1 := by
  have := Laws.fact_p_prime
  have hone : ((Config.p - 1 : Nat) : ZMod Config.p) = -1 := by rw [Nat.cast_sub p_pos]; simp
  have hfactor : (sswuZu2 u : ZMod Config.p) + (sswuZu2 u : ZMod Config.p) ^ 2 =
      (sswuZu2 u : ZMod Config.p) * (sswuZu2 u - (-1)) := by ring
  rw [← cast_eq_zero_iff (sswuT1_lt u), cast_sswuT1, hfactor, mul_eq_zero, sub_eq_zero, ← hone,
    cast_inj_iff (sswuZu2_lt u) (by decide), cast_sswuZu2, ← cast_eq_zero_iff hu]
  simp [cast_ten_ne_zero]

/-- Z·u² is −1 where 10·u² is 1, for Z = −10 (R232). -/
theorem sswuZu2_eq_neg_one_iff (u : Nat) : sswuZu2 u = Config.p - 1 ↔ fmul 10 (fsqr u) = 1 := by
  have hone : ((Config.p - 1 : Nat) : ZMod Config.p) = -1 := by rw [Nat.cast_sub p_pos]; simp
  rw [← cast_inj_iff (sswuZu2_lt u) (by decide), ← cast_inj_iff (fmul_lt 10 _) (by decide), cast_sswuZu2, hone,
    cast_fmul, cast_fsqr, neg_mul, neg_inj]
  simp

/-! ### The first candidate -/

theorem firstCandidate_eq (u : Nat) : firstCandidate u =
    if sswuT1 u = 0 then Config.cBZA else fmul Config.cNegBA (fadd 1 (finv (sswuT1 u))) := by
  have ht : fmul (sswuZu2 u) (fadd 1 (sswuZu2 u)) = sswuT1 u := by
    refine eq_of_cast_eq (fmul_lt _ _) (sswuT1_lt u) ?_
    rw [cast_fmul, cast_fadd, cast_sswuT1, Nat.cast_one]
    ring
  rw [← ht]
  rfl

theorem firstCandidate_lt (u : Nat) : firstCandidate u < Config.p := by
  rw [firstCandidate_eq]
  split
  · decide
  · exact fmul_lt _ _

theorem cBZA_mul_Z : fmul Config.cBZA Config.curveZ = Config.cBA := by decide +kernel

/-- The first candidate is x1n/x1d (R231). -/
theorem firstCandidate_mul_x1d (u : Nat) :
    (firstCandidate u : ZMod Config.p) * (sswuX1d u : Nat) = (sswuX1n u : Nat) := by
  rw [firstCandidate_eq, sswuX1d_eq, sswuX1n_eq]
  split
  next => rw [← cast_fmul, cBZA_mul_Z]
  next h0 =>
    have hinv := cast_finv_mul (cast_ne_zero (sswuT1_lt u) h0)
    rw [cast_fmul, cast_fmul, cast_fadd, cast_fadd, Nat.cast_one]
    linear_combination (Config.cNegBA : ZMod Config.p) * hinv

theorem cNegBA_mul_three : fmul Config.cNegBA 3 = Config.curveB := by decide +kernel

/-- Away from the exceptional inputs the first candidate x1 has 3·x1·t1 = B·(1 + t1) (R231). -/
theorem three_mul_firstCandidate {u : Nat} (h0 : sswuT1 u ≠ 0) :
    3 * (firstCandidate u : ZMod Config.p) * (sswuT1 u : Nat) = (Config.curveB : Nat) * (1 + (sswuT1 u : Nat)) := by
  have hmul := firstCandidate_mul_x1d u
  have hB := congrArg (Nat.cast : Nat → ZMod Config.p) cNegBA_mul_three
  rw [sswuX1d_eq, if_neg h0, sswuX1n_eq, if_neg h0, cast_fmul, cast_fadd, Nat.cast_one] at hmul
  rw [cast_fmul] at hB
  push_cast at hB
  rw [← hB]
  linear_combination 3 * hmul

/-- g(Z·u²·x1) = (Z·u²)³·g(x1), away from the exceptional inputs (R231). -/
theorem curveRhs_second {u : Nat} (h0 : sswuT1 u ≠ 0) :
    curveRhs ((sswuZu2 u : ZMod Config.p) * firstCandidate u) =
      (sswuZu2 u : ZMod Config.p) ^ 3 * curveRhs (firstCandidate u) := by
  have hx := three_mul_firstCandidate h0
  rw [cast_sswuT1] at hx
  simp only [curveRhs]
  linear_combination ((sswuZu2 u : ZMod Config.p) - 1) * hx

/-! ### The flag and x -/

theorem cast_x1d_ne_zero (u : Nat) : ((sswuX1d u : Nat) : ZMod Config.p) ≠ 0 :=
  cast_ne_zero (sswuX1d_lt u) (sswuX1d_ne_zero u)

/-- The square-root ratio that the map takes (R230, step 5). -/
def firstRatio (u : Nat) : Nat × Bool := sqrtRatio (curvePoly (sswuX1n u) (sswuX1d u)) (fcube (sswuX1d u))

/-- The root of g at the chosen candidate, before its sign is fixed (R230, steps 7 and 8). -/
def unsignedY (u : Nat) : Nat := select (firstRatio u).2 (firstRatio u).1 (sswuY2 u (firstRatio u).1)

theorem sswu_isSquare (u : Nat) : (sswu u).isSquare = (firstRatio u).2 := rfl

theorem sswu_y (u : Nat) : (sswu u).y = fixSign u (unsignedY u) := rfl

/-- The ratio's numerator and denominator are d³·g(x1) and d³, for d = x1d ≠ 0. -/
theorem cast_curvePoly_first (u : Nat) : ((curvePoly (sswuX1n u) (sswuX1d u) : Nat) : ZMod Config.p) =
    (sswuX1d u : ZMod Config.p) ^ 3 * curveRhs (firstCandidate u) :=
  cast_curvePoly (firstCandidate_mul_x1d u)

theorem cast_curvePoly_first_ne_zero (u : Nat) :
    ((curvePoly (sswuX1n u) (sswuX1d u) : Nat) : ZMod Config.p) ≠ 0 := by
  have := Laws.fact_p_prime
  rw [cast_curvePoly_first]
  exact mul_ne_zero (pow_ne_zero 3 (cast_x1d_ne_zero u)) (curveRhs_ne_zero _)

theorem cast_fcube_x1d_ne_zero (u : Nat) : ((fcube (sswuX1d u) : Nat) : ZMod Config.p) ≠ 0 := by
  have := Laws.fact_p_prime
  rw [cast_fcube]
  exact pow_ne_zero 3 (cast_x1d_ne_zero u)

/-- x²·d³ = ±d³·g is x² = ±g. -/
theorem sq_mul_fcube_x1d_iff (u : Nat) (x g : ZMod Config.p) :
    x ^ 2 * (fcube (sswuX1d u) : Nat) = (sswuX1d u : ZMod Config.p) ^ 3 * g ↔ x ^ 2 = g := by
  have := Laws.fact_p_prime
  rw [cast_fcube, mul_comm]
  exact mul_right_inj' (pow_ne_zero 3 (cast_x1d_ne_zero u))

/-- QR says whether g(x1) is a square (R231). -/
theorem sswu_isSquare_iff (u : Nat) :
    (sswu u).isSquare = true ↔ ∃ y : ZMod Config.p, y ^ 2 = curveRhs (firstCandidate u) := by
  rw [sswu_isSquare, firstRatio, isSquare_iff_exists (curvePoly_lt _ _) (cast_curvePoly_first_ne_zero u)
    (cast_fcube_x1d_ne_zero u), cast_curvePoly_first]
  exact exists_congr fun y => sq_mul_fcube_x1d_iff u y _

/-- The ratio's root squares to g(x1) where that is a square, and to −g(x1) elsewhere (R211, R234). -/
theorem firstRatio_root_sq (u : Nat) : (((firstRatio u).1 : Nat) : ZMod Config.p) ^ 2 =
    if (firstRatio u).2 then curveRhs (firstCandidate u) else -curveRhs (firstCandidate u) := by
  have hflag := isSquare_iff (curvePoly_lt (sswuX1n u) (sswuX1d u)) (fcube (sswuX1d u))
  have hcases := root_sq_mul_cases (cast_curvePoly_first_ne_zero u) (cast_fcube_x1d_ne_zero u)
  rw [cast_curvePoly_first] at hflag hcases
  rw [← mul_neg, sq_mul_fcube_x1d_iff, sq_mul_fcube_x1d_iff] at hcases
  rw [sq_mul_fcube_x1d_iff] at hflag
  split
  next h => exact hflag.mp h
  next h => exact hcases.resolve_left fun hsq => h (hflag.mpr hsq)

/-- An exceptional input's ratio is one of constants, which is a square (R232). -/
theorem sswu_isSquare_of_exceptional {u : Nat} (h0 : sswuT1 u = 0) : (sswu u).isSquare = true := by
  have hconst : (sqrtRatio (curvePoly Config.cBA Config.curveZ) (fcube Config.curveZ)).2 = true := by decide +kernel
  rwa [sswu_isSquare, firstRatio, sswuX1n_eq, sswuX1d_eq, if_pos h0, if_pos h0]

/-- x is the first candidate, or Z·u² times it (R231, R234). -/
theorem sswu_x_eq (u : Nat) : (sswu u).x =
    if (sswu u).isSquare then firstCandidate u else fmul (sswuZu2 u) (firstCandidate u) := by
  have hinv := cast_finv_mul (cast_x1d_ne_zero u)
  have hx : (sswu u).x =
      fmul (select (sswu u).isSquare (sswuX1n u) (fmul (sswuZu2 u) (sswuX1n u))) (finv (sswuX1d u)) := rfl
  rw [hx, select]
  split
  · refine eq_of_cast_eq (fmul_lt _ _) (firstCandidate_lt u) ?_
    rw [cast_fmul, ← firstCandidate_mul_x1d]
    linear_combination (firstCandidate u : ZMod Config.p) * hinv
  · refine eq_of_cast_eq (fmul_lt _ _) (fmul_lt _ _) ?_
    rw [cast_fmul, cast_fmul, cast_fmul, ← firstCandidate_mul_x1d]
    linear_combination (sswuZu2 u : ZMod Config.p) * firstCandidate u * hinv

/-! ### y -/

theorem fsqr_cSqrtNegZ3 : fsqr Config.cSqrtNegZ3 = 1000 := by decide +kernel

/-- Before its sign is fixed y is a root of g(x) (R233, R234). -/
theorem unsignedY_sq (u : Nat) : ((unsignedY u : Nat) : ZMod Config.p) ^ 2 = curveRhs ((sswu u).x : Nat) := by
  have hroot := firstRatio_root_sq u
  rw [sswu_x_eq, sswu_isSquare, unsignedY, select]
  split
  next h => rwa [if_pos h] at hroot
  next h =>
    have h0 : sswuT1 u ≠ 0 := fun h0 => h (sswu_isSquare_of_exceptional h0)
    have hC : (Config.cSqrtNegZ3 : ZMod Config.p) ^ 2 = 1000 := by
      rw [← cast_fsqr, fsqr_cSqrtNegZ3]; norm_num
    rw [if_neg h] at hroot
    rw [cast_fmul, curveRhs_second h0, cast_sswuZu2, sswuY2, cast_fmul, cast_fmul, cast_fcube]
    linear_combination (u : ZMod Config.p) ^ 6 * Config.cSqrtNegZ3 ^ 2 * hroot -
      (u : ZMod Config.p) ^ 6 * curveRhs (firstCandidate u) * hC

theorem unsignedY_lt (u : Nat) : unsignedY u < Config.p := select_lt (root_lt _ _) (sswuY2_lt _ _)

theorem ne_zero_of_sq_eq_curveRhs {y : Nat} {x : ZMod Config.p} (h : (y : ZMod Config.p) ^ 2 = curveRhs x) :
    y ≠ 0 := by
  rintro rfl
  exact curveRhs_ne_zero x (by rw [← h]; simp)

theorem fneg_eq {y : Nat} (hy0 : y ≠ 0) : fneg y = Config.p - y :=
  Nat.mod_eq_of_lt (Nat.sub_lt p_pos (Nat.pos_of_ne_zero hy0))

/-- p is odd, so negation changes the sign of what is not 0 (R139). -/
theorem sub_mod_two {y : Nat} (hy : y < Config.p) : (Config.p - y) % 2 ≠ y % 2 := by
  have hp : Config.p % 2 = 1 := by decide
  omega

/-- After step 9 y has the sign of u (R233). -/
theorem fixSign_mod_two (u : Nat) {y : Nat} (hy : y < Config.p) (hy0 : y ≠ 0) : fixSign u y % 2 = u % 2 := by
  have hodd := sub_mod_two hy
  rw [fixSign, select]
  split
  next h => exact beq_iff_eq.mp h
  next h =>
    have hne : y % 2 ≠ u % 2 := fun he => h (beq_iff_eq.mpr he)
    rw [fneg_eq hy0]
    omega

theorem cast_fixSign_sq (u : Nat) {y : Nat} (hy : y < Config.p) :
    ((fixSign u y : Nat) : ZMod Config.p) ^ 2 = (y : ZMod Config.p) ^ 2 := by
  rw [fixSign, select]
  split
  · rfl
  · rw [cast_fneg hy.le, neg_sq]

/-- The point is on the curve (R236). -/
theorem sswu_y_sq (u : Nat) : ((sswu u).y : ZMod Config.p) ^ 2 = curveRhs ((sswu u).x : Nat) := by
  rw [sswu_y, cast_fixSign_sq u (unsignedY_lt u), unsignedY_sq]

theorem sswu_y_ne_zero (u : Nat) : (sswu u).y ≠ 0 := ne_zero_of_sq_eq_curveRhs (sswu_y_sq u)

theorem sswu_y_mod_two (u : Nat) : (sswu u).y % 2 = u % 2 :=
  fixSign_mod_two u (unsignedY_lt u) (ne_zero_of_sq_eq_curveRhs (unsignedY_sq u))

/-- Canonical numbers with one square and one sign are equal (R233). -/
theorem eq_of_sq_eq_of_mod_two {a b : Nat} (ha : a < Config.p) (hb : b < Config.p)
    (hsq : (a : ZMod Config.p) ^ 2 = (b : ZMod Config.p) ^ 2) (hmod : a % 2 = b % 2) : a = b := by
  have := Laws.fact_p_prime
  rcases sq_eq_sq_iff_eq_or_eq_neg.mp hsq with h | h
  · exact eq_of_cast_eq ha hb h
  · by_cases hb0 : b = 0
    · subst hb0
      exact (cast_eq_zero_iff ha).mp (by simpa using h)
    · have hneg : a = Config.p - b := by
        rw [← fneg_eq hb0]
        exact eq_of_cast_eq ha (fneg_lt b) (by rw [h, cast_fneg hb.le])
      exact absurd hmod (hneg ▸ sub_mod_two hb)

/-- y is the one canonical root of g(x) with the sign of u (R233). -/
theorem sswu_y_eq_iff (u : Nat) {y : Nat} (hy : y < Config.p) :
    (sswu u).y = y ↔ (y : ZMod Config.p) ^ 2 = curveRhs ((sswu u).x : Nat) ∧ y % 2 = u % 2 := by
  refine ⟨?_, fun ⟨hsq, hmod⟩ => ?_⟩
  · rintro rfl
    exact ⟨sswu_y_sq u, sswu_y_mod_two u⟩
  · exact eq_of_sq_eq_of_mod_two (sswu_y_lt u) hy ((sswu_y_sq u).trans hsq.symm) ((sswu_y_mod_two u).trans hmod.symm)

/-! ### The opposite input -/

/-- u comes into x, QR and the first candidate as u² alone. -/
theorem sswuZu2_neg {u : Nat} (hu : u < Config.p) : sswuZu2 (Config.p - u) = sswuZu2 u := by
  refine eq_of_cast_eq (sswuZu2_lt _) (sswuZu2_lt _) ?_
  rw [cast_sswuZu2, cast_sswuZu2, Nat.cast_sub hu.le]
  simp

theorem sswu_x_congr {u v : Nat} (h : sswuZu2 u = sswuZu2 v) : (sswu u).x = (sswu v).x := by
  have ht : sswuT1 u = sswuT1 v := by rw [sswuT1, sswuT1, h]
  have hflag : (sswu u).isSquare = (sswu v).isSquare := by
    simp only [sswu_isSquare, firstRatio, sswuX1n_eq, sswuX1d_eq, ht]
  rw [sswu_x_eq, sswu_x_eq, hflag, firstCandidate_eq, firstCandidate_eq, ht, h]

/-! ### The exceptional inputs -/

/-- A root of 1/10 (R232). -/
def exceptionalRoot : Nat := 0x95d527d249c8dc5cadbf4c70bb59aaab72c14fffbad5622bd147b86a639ec6d9

theorem fmul_ten_exceptionalRoot : fmul 10 (fsqr exceptionalRoot) = 1 := by decide +kernel

/-- The two square roots of 1/10 (R232). -/
theorem fmul_ten_fsqr_eq_one_iff {u : Nat} (hu : u < Config.p) :
    fmul 10 (fsqr u) = 1 ↔ u = exceptionalRoot ∨ u = Config.p - exceptionalRoot := by
  have := Laws.fact_p_prime
  have hr : exceptionalRoot ≠ 0 := by decide
  have hrp : exceptionalRoot < Config.p := by decide
  have hcast : ∀ v : Nat, fmul 10 (fsqr v) = 1 ↔ 10 * (v : ZMod Config.p) ^ 2 = 1 := fun v => by
    rw [← cast_inj_iff (fmul_lt 10 _) (by decide), cast_fmul, cast_fsqr]; simp
  rw [hcast, ← (hcast exceptionalRoot).mp fmul_ten_exceptionalRoot, mul_right_inj' cast_ten_ne_zero,
    sq_eq_sq_iff_eq_or_eq_neg, cast_inj_iff hu hrp, ← cast_fneg hrp.le, cast_inj_iff hu (fneg_lt _), fneg_eq hr]

/-! ### The obligations -/

/-- Settles O39: the point of every canonical u, and that of p − u, whose y is the root with the other sign. -/
theorem mapIsTotalAndOnTheCurve : Obligations.MapIsTotalAndOnTheCurve := by
  refine ⟨fun u _ => ⟨sswu_x_lt u, sswu_y_lt u, ?_, sswu_y_mod_two u, sswu_y_ne_zero u⟩, fun u hu hu0 => ?_⟩
  · refine eq_of_cast_eq (fsqr_lt _) (curveG_lt (sswu u).x) ?_
    exact (cast_fsqr _).trans ((sswu_y_sq u).trans (cast_curveG _).symm)
  · have hx : (sswu (Config.p - u)).x = (sswu u).x := sswu_x_congr (sswuZu2_neg hu)
    have hy := sswu_y_lt u
    have hy0 := sswu_y_ne_zero u
    refine ⟨hx, (sswu_y_eq_iff _ (by omega)).mpr ⟨?_, ?_⟩⟩
    · rw [← fneg_eq hy0, cast_fneg hy.le, neg_sq, hx, sswu_y_sq]
    · have := sub_mod_two hy
      have := sub_mod_two hu
      have := sswu_y_mod_two u
      omega

/-- Settles O40: what MAP writes is `sswu`'s point, and QR, x and y are read off it by `sswu_isSquare_iff`, `sswu_x_eq`
and `sswu_y_eq_iff`. -/
theorem mapTakesTheFirstSquareCandidate : Obligations.MapTakesTheFirstSquareCandidate := by
  intro rx ry ru s hxy hu
  obtain ⟨t, ht, hframe, hx, hy, -⟩ := mapWritesPointAndFlag rx ry ru s hxy hu
  have hq : t.qr = (sswu (s.feVal ru)).isSquare := congrArg State.qr hframe
  have hroot : ∀ x y : Nat, y * y % Config.p = curveG x ↔ (y : ZMod Config.p) ^ 2 = curveRhs x := fun x y => by
    rw [mod_p_eq_iff (curveG_lt x), cast_curveG, Nat.cast_mul, ← sq]
  refine ⟨t, ht, ?_, ?_, fun y hyp => ?_⟩
  · rw [hq, sswu_isSquare_iff]
    simp only [hroot]
    refine ⟨fun ⟨y, h⟩ => ?_, fun ⟨y, h⟩ => ⟨y, h⟩⟩
    obtain ⟨a, -, rfl⟩ := exists_cast_eq y
    exact ⟨a, h⟩
  · rw [hx, hq, sswu_x_eq]; rfl
  · rw [hy, hx, hroot, sswu_y_eq_iff _ hyp]

/-- Settles O41: t1 = Z·u²·(1 + Z·u²), Z = −10, and the constants' ratio for the value at an exceptional input. -/
theorem exceptionalInputsOfTheMap : Obligations.ExceptionalInputsOfTheMap := by
  refine ⟨fun u hu => sswuT1_eq_zero_iff hu, fun u _ => sswuZu2_eq_neg_one_iff u,
    ⟨exceptionalRoot, by decide, by decide, fmul_ten_exceptionalRoot, fun u hu => ?_⟩, fun u _ h0 => ?_,
    fun u _ => ⟨sswuX1d_ne_zero u, fun h0 => cast_fcube_x1d_ne_zero u (by rw [h0]; simp)⟩⟩
  · rw [sswuT1_eq_zero_iff hu, sswuZu2_eq_neg_one_iff]
    exact or_congr_right (fmul_ten_fsqr_eq_one_iff hu)
  · have hsquare := sswu_isSquare_of_exceptional h0
    rw [sswu_x_eq, if_pos hsquare, firstCandidate_eq, if_pos h0]
    exact ⟨rfl, hsquare⟩

end Sys2Proof.Machine

/-! Settling spec/41_xmd.md: SHA-256's padding, schedule, rounds and digest, and the expander's blocks and bytes. Then
the obligations O31, O32, O33, O34 and O35. -/

namespace Sys2Proof.Machine

/-! ### Lists by their elements -/

theorem getElem?_eq_some_getD {α : Type} (l : List α) {i : Nat} (d : α) (h : i < l.length) :
    l[i]? = some (l.getD i d) := by
  rw [List.getD_eq_getElem l d h, List.getElem?_eq_getElem h]

/-- A fold over one element more. -/
theorem foldl_take_succ {α β : Type} (f : β → α → β) (b : β) {l : List α} {i : Nat} {x : α} (h : l[i]? = some x) :
    (l.take (i + 1)).foldl f b = f ((l.take i).foldl f b) x := by
  rw [List.take_add_one, h, List.foldl_append]; rfl

/-! ### The padding -/

/-- No count of zero bytes below the model's fills the last block (R171). -/
theorem padding_least {len j : Nat} (hj : j < (119 - len % 64) % 64) : (len + j + 9) % 64 ≠ 0 := by omega

/-! ### The message schedule -/

@[simp] theorem shaWords_length (n : Nat) (b : List Byte) : (shaWords n b).length = n := by
  induction n generalizing b with
  | zero => rfl
  | succ n ih => simp [shaWords, ih]

/-- Word t of a block is its bytes 4t to 4t + 3 (R171). -/
theorem shaWords_getD (n : Nat) (b : List Byte) {t : Nat} (ht : t < n) :
    (shaWords n b).getD t 0 = bytesWord ((b.drop (4 * t)).take 4) := by
  induction n generalizing b t with
  | zero => omega
  | succ n ih =>
    cases t with
    | zero => rfl
    | succ t => rw [shaWords, List.getD_cons_succ, ih _ (by omega), List.drop_drop, Nat.mul_succ, Nat.add_comm]

/-- The value of up to four bytes as a word (R75). -/
theorem bytesWord_toNat_of_length {b : List Byte} (h : b.length ≤ 4) : (bytesWord b).toNat = os2ip b := by
  have hlt : os2ip b < 2 ^ 32 := (os2ip_lt b).trans_le (Nat.pow_le_pow_right (by decide) h)
  rw [bytesWord, BitVec.toNat_ofNat, Nat.mod_eq_of_lt hlt]

/-- The schedule after k extensions, latest word first (R175). -/
def shaHistory (block : List Byte) (k : Nat) : List Word := Nat.repeat shaExtend k (shaWords 16 block).reverse

theorem shaSchedule_eq (block : List Byte) : shaSchedule block = (shaHistory block 48).reverse := rfl

theorem shaHistory_succ (block : List Byte) (k : Nat) :
    shaHistory block (k + 1) = shaExtend (shaHistory block k) := rfl

theorem shaHistory_length (block : List Byte) (k : Nat) : (shaHistory block k).length = 16 + k := by
  induction k with
  | zero => simp [shaHistory, Nat.repeat]
  | succ k ih => rw [shaHistory_succ, shaExtend, List.length_cons, ih]; rfl

/-- Extending keeps the words before. -/
theorem shaHistory_getD_add (block : List Byte) (k j i : Nat) :
    (shaHistory block (k + j)).getD (j + i) 0 = (shaHistory block k).getD i 0 := by
  induction j with
  | zero => rw [Nat.add_zero, Nat.zero_add]
  | succ j ih => rw [← Nat.add_assoc, shaHistory_succ, shaExtend, Nat.succ_add, List.getD_cons_succ, ih]

/-- W[t] (R175). -/
def scheduleWord (block : List Byte) (t : Nat) : Word := (shaHistory block 48).getD (63 - t) 0

/-- W[t], as it stands in the history after any number of extensions that reach it. -/
theorem scheduleWord_eq (block : List Byte) {t k : Nat} (hk : k ≤ 48) (ht : t < 16 + k) :
    scheduleWord block t = (shaHistory block k).getD (15 + k - t) 0 := by
  have h := shaHistory_getD_add block k (48 - k) (15 + k - t)
  rwa [show k + (48 - k) = 48 by omega, show 48 - k + (15 + k - t) = 63 - t by omega] at h

theorem shaSchedule_eq_map (block : List Byte) : shaSchedule block = (List.range 64).map (scheduleWord block) := by
  have hlen : (shaHistory block 48).length = 64 := shaHistory_length block 48
  rw [shaSchedule_eq]
  apply List.ext_getElem
  · simp [hlen]
  · intro t ht _
    have ht64 : t < 64 := by simpa [hlen] using ht
    rw [List.getElem_reverse, List.getElem_map, List.getElem_range, scheduleWord, List.getD_eq_getElem _ _ (by omega)]
    simp only [hlen]

/-- The first sixteen words are the block's (R175). -/
theorem scheduleWord_low (block : List Byte) {t : Nat} (ht : t < 16) :
    (scheduleWord block t).toNat = os2ip ((block.drop (4 * t)).take 4) := by
  have hw : scheduleWord block t = (shaWords 16 block).getD t 0 := by
    rw [scheduleWord_eq block (Nat.zero_le _) ht]
    have hlen := shaWords_length 16 block
    show (shaWords 16 block).reverse.getD (15 + 0 - t) 0 = _
    rw [List.getD_eq_getElem _ _ (by simp; omega), List.getD_eq_getElem _ _ (by omega), List.getElem_reverse]
    congr 1
    omega
  rw [hw, shaWords_getD 16 block ht, bytesWord_toNat_of_length (by simp)]

/-- The recurrence of R175. -/
theorem scheduleWord_high (block : List Byte) {t : Nat} (h16 : 16 ≤ t) (ht : t < 64) :
    scheduleWord block t = shaSmallS1 (scheduleWord block (t - 2)) + scheduleWord block (t - 7) +
      shaSmallS0 (scheduleWord block (t - 15)) + scheduleWord block (t - 16) := by
  obtain ⟨k, rfl⟩ := Nat.exists_eq_add_of_le h16
  have hword : ∀ d, 1 ≤ d → d ≤ 16 →
      scheduleWord block (16 + k - d) = (shaHistory block k).getD (d - 1) 0 := fun d h1 h2 => by
    rw [scheduleWord_eq block (k := k) (by omega) (by omega)]
    congr 1
    omega
  rw [scheduleWord_eq block (k := k + 1) (by omega) (by omega), shaHistory_succ, shaExtend,
    show 15 + (k + 1) - (16 + k) = 0 by omega, List.getD_cons_zero, hword 2 (by omega) (by omega),
    hword 7 (by omega) (by omega), hword 15 (by omega) (by omega), hword 16 (by omega) (by omega)]

/-! ### The rounds, the chaining and the digest -/

theorem shaK_length : shaK.length = 64 := rfl

theorem shaSchedule_length (block : List Byte) : (shaSchedule block).length = 64 := by
  rw [shaSchedule_eq, List.length_reverse, shaHistory_length]

/-- The working variables before round t (R175). -/
def shaRounds (s : HashState) (block : List Byte) (t : Nat) : HashState :=
  ((shaK.zip (shaSchedule block)).take t).foldl (fun x kw => shaRound x kw.1 kw.2) s

/-- Round t uses K[t] and W[t] (R175). -/
theorem shaRounds_succ (s : HashState) (block : List Byte) {t : Nat} {kt wt : Word} (hk : shaK[t]? = some kt)
    (hw : (shaSchedule block)[t]? = some wt) :
    shaRounds s block (t + 1) = shaRound (shaRounds s block t) kt wt :=
  foldl_take_succ _ _ (x := (kt, wt)) (by rw [List.getElem?_zip_eq_some]; exact ⟨hk, hw⟩)

/-- A block's rounds are all 64, and the sums follow them (R175). -/
theorem shaBlock_eq (s : HashState) (block : List Byte) : shaBlock s block =
    ⟨s.a + (shaRounds s block 64).a, s.b + (shaRounds s block 64).b, s.c + (shaRounds s block 64).c,
      s.d + (shaRounds s block 64).d, s.e + (shaRounds s block 64).e, s.f + (shaRounds s block 64).f,
      s.g + (shaRounds s block 64).g, s.h + (shaRounds s block 64).h⟩ := by
  have hall : (shaK.zip (shaSchedule block)).take 64 = shaK.zip (shaSchedule block) :=
    List.take_of_length_le (by rw [List.length_zip, shaK_length, shaSchedule_length]; decide)
  simp only [shaRounds, hall]
  rfl

/-- A word's four bytes are its big-endian string (R10, R75). -/
theorem wordBytes_eq_i2osp (v : Word) : wordBytes v = i2osp v.toNat 4 := by
  have hbyte : ∀ start, v.extractLsb' start 8 = BitVec.ofNat 8 (v.toNat / 2 ^ start) := fun start => by
    apply BitVec.eq_of_toNat_eq
    rw [BitVec.extractLsb'_toNat, BitVec.toNat_ofNat, Nat.shiftRight_eq_div_pow]
  simp only [wordBytes, hbyte, i2osp, Nat.div_div_eq_div_mul, List.nil_append, List.cons_append, Nat.pow_zero,
    Nat.div_one]
  rfl

/-! ### The expander's blocks -/

/-- Each block of the loop hashes the one before it (R161, step 3). -/
theorem xmdLoop_getD (b0 dst : List Byte) {k j : Nat} (i : Nat) (prev : List Byte) (hj : j < k) :
    (prev :: xmdLoop b0 dst k i prev).getD (j + 1) [] =
      xmdBlock b0 ((prev :: xmdLoop b0 dst k i prev).getD j []) dst (i + j) := by
  induction k generalizing i prev j with
  | zero => omega
  | succ k ih =>
    cases j with
    | zero => rfl
    | succ j =>
      have h := ih (j := j) (i + 1) (xmdBlock b0 prev dst i) (by omega)
      rw [xmdLoop, List.getD_cons_succ, h, List.getD_cons_succ, Nat.succ_add_eq_add_succ]

/-- Every block after the first hashes the one before it (R161, step 3). -/
theorem xmdBlocks_getD_succ (msg dst : List Byte) {n j : Nat} (hj : j + 1 < xmdEll n) :
    (xmdBlocks msg dst n).getD (j + 1) [] =
      xmdBlock (xmdB0 msg dst n) ((xmdBlocks msg dst n).getD j []) dst (j + 2) := by
  rw [Nat.add_comm j 2]
  exact xmdLoop_getD _ _ 2 _ (by omega)

theorem xmdBlocks_getD_zero (msg dst : List Byte) (n : Nat) :
    (xmdBlocks msg dst n).getD 0 [] = xmdB1 (xmdB0 msg dst n) dst := rfl

theorem xmdEll_eq (n : Nat) : xmdEll n = (n + 31) / 32 := rfl

/-- Up to 32 bytes take one block, b1, and so do none (R163). -/
theorem xmdBlocks_of_le {n : Nat} (msg dst : List Byte) (h : n ≤ 32) :
    xmdBlocks msg dst n = [xmdB1 (xmdB0 msg dst n) dst] := by
  have hloop : xmdEll n - 1 = 0 := by rw [xmdEll_eq]; omega
  simp only [xmdBlocks, hloop, xmdLoop]

/-- Byte i of blocks of 32 bytes is byte i mod 32 of block i/32. -/
theorem flatten_getElem?_of_blocks {l : List (List Byte)} (h : ∀ b ∈ l, b.length = 32) (i : Nat) :
    l.flatten[i]? = (l.getD (i / 32) [])[i % 32]? := by
  induction l generalizing i with
  | nil => simp
  | cons b l ih =>
    have hb : b.length = 32 := h b (by simp)
    rw [List.flatten_cons]
    by_cases hi : i < 32
    · rw [List.getElem?_append_left (by omega), Nat.div_eq_of_lt hi, Nat.mod_eq_of_lt hi, List.getD_cons_zero]
    · obtain ⟨k, rfl⟩ := Nat.exists_eq_add_of_le (Nat.le_of_not_lt hi)
      rw [List.getElem?_append_right (by omega), hb, Nat.add_sub_cancel_left, ih (fun c hc => h c (by simp [hc])),
        show (32 + k) / 32 = k / 32 + 1 by omega, List.getD_cons_succ, Nat.add_mod_left]

/-- Byte i of the expansion is byte i mod 32 of block b_(i/32 + 1) (R161, step 4). -/
theorem expand_getElem? (msg dst : List Byte) {n i : Nat} (hi : i < n) :
    (expand msg dst n)[i]? = ((xmdBlocks msg dst n).getD (i / 32) [])[i % 32]? := by
  rw [expand, List.getElem?_take_of_lt hi, flatten_getElem?_of_blocks fun _ hb => xmdBlocks_block_length hb]

/-- Block b_i of R161, from b_1 on. -/
def xmdNth (msg dst : List Byte) (n i : Nat) : List Byte := (xmdBlocks msg dst n).getD (i - 1) []

theorem byte_eq (n : Nat) : byte n = [BitVec.ofNat 8 n] := rfl

theorem be16_eq (n : Nat) : be16 n = [BitVec.ofNat 8 (n / 256), BitVec.ofNat 8 n] := rfl

/-- A string before the tag, and the tag's own length after it (R161). -/
theorem append_dstPrime (b dst : List Byte) : b ++ dstPrime dst = b ++ dst ++ [BitVec.ofNat 8 dst.length] :=
  (List.append_assoc b dst _).symm

/-- b_i for i ≥ 2 (R161, step 3). -/
theorem xmdNth_of_two_le (msg dst : List Byte) {n i : Nat} (h2 : 2 ≤ i) (hi : i ≤ xmdEll n) :
    xmdNth msg dst n i = xmdBlock (xmdB0 msg dst n) (xmdNth msg dst n (i - 1)) dst i := by
  obtain ⟨j, rfl⟩ := Nat.exists_eq_add_of_le' h2
  exact xmdBlocks_getD_succ msg dst (by omega)

/-! ### The obligations -/

/-- Settles O31: the blocks of short outputs, the last block of the longest, and the command over empty inputs. -/
theorem expanderEdgeCases : Obligations.ExpanderEdgeCases := by
  refine ⟨fun msg dst => ⟨rfl, xmdBlocks_of_le msg dst (by decide)⟩, fun msg dst n _ hn => ?_, fun msg dst => ?_, rfl,
    fun n s hm hd hn => ?_⟩
  · rw [expand, xmdBlocks_of_le msg dst hn, List.flatten_singleton]
  · have hlen : (xmdBlocks msg dst 8160).length = 255 := xmdBlocks_length_eq msg dst 8160
    refine ⟨_, hlen, getElem?_eq_some_getD _ [] (by omega), ?_, rfl⟩
    rw [getElem?_eq_some_getD _ [] (by omega), xmdBlocks_getD_succ msg dst (j := 253) (by decide)]
  · refine ⟨_, exec_of_result (xmdResult_ok (by simp [hm]) (by simp [hd]) hn), rfl, ?_⟩
    have hmsg : s.message = [] := by simp [State.message, State.msgBytes, Memory.readBytes, hm]
    have htag : s.tag = [] := by simp [State.tag, State.dstBytes, Memory.readBytes, hd]
    rw [hmsg, htag]
    rfl

/-- Settles O32: the least padding, and the schedule as the words of its history. -/
theorem hashPaddingAndSchedule : Obligations.HashPaddingAndSchedule := by
  refine ⟨fun m => ?_, fun block _ => ⟨scheduleWord block, shaSchedule_eq_map block,
    fun t ht => scheduleWord_low block ht, fun t h16 ht => scheduleWord_high block h16 ht⟩⟩
  refine ⟨(119 - m.length % 64) % 64, rfl, shaPad_length_mod m, ?_, fun j hj => padding_least hj⟩
  simp only [shaPad, List.length_append, List.length_singleton, zeros_length, i2osp_length]
  omega

/-- Settles O33: the states before each round and before each block, and the digest's words as big-endian strings. -/
theorem hashRoundsAndDigest : Obligations.HashRoundsAndDigest := by
  refine ⟨fun x y z => ⟨rfl, rfl, rfl, rfl, rfl, rfl⟩, fun s block _ => ?_, fun m => ?_⟩
  · refine ⟨shaRounds s block, rfl, fun t ht => ?_, shaBlock_eq s block⟩
    have hk := getElem?_eq_some_getD shaK (i := t) 0 ht
    have hw := getElem?_eq_some_getD (shaSchedule block) (i := t) 0 (by rwa [shaSchedule_length])
    exact ⟨_, _, _, hk, hw, rfl, shaRounds_succ s block hk hw⟩
  · refine ⟨fun i => shaBlocks i (shaPad m) shaInit, rfl, fun i _ => shaBlocks_succ i _ _, ?_⟩
    rintro v rfl
    simp only [← wordBytes_eq_i2osp]
    rfl

/-- Settles O34, by evaluation. -/
theorem hashCheckValues : Obligations.HashCheckValues := by
  unfold Obligations.HashCheckValues
  decide +kernel

/-- Settles O35: the length and the number of the blocks, each block by R161's steps, and the bytes of the blocks. -/
theorem expanderLengthAndWork : Obligations.ExpanderLengthAndWork := by
  intro msg dst n
  refine ⟨expand_length msg dst n, ?_, fun _ _ => ⟨xmdB0 msg dst n, xmdNth msg dst n, ?_, ?_, fun i h2 hi => ?_,
    fun i hi => ?_⟩⟩
  · rw [xmdHashCalls, xmdBlocks_length_eq, xmdEll_eq]
    omega
  · rw [xmdB0, append_dstPrime, be16_eq, byte_eq]; rfl
  · refine (xmdBlocks_getD_zero msg dst n).trans ?_
    rw [xmdB1, append_dstPrime, byte_eq]; rfl
  · rw [xmdNth_of_two_le msg dst h2 hi, xmdBlock, append_dstPrime, byte_eq]; rfl
  · have hlen : i < (expand msg dst n).length := by rwa [expand_length]
    refine ⟨_, ?_, List.getElem?_eq_getElem hlen⟩
    rw [xmdNth, Nat.add_sub_cancel, ← expand_getElem? msg dst hi, List.getElem?_eq_getElem hlen]

end Sys2Proof.Machine
